-- ==== Sys2Proof/Word.lean ====
section
/-! DEFINITION. The word types: a byte of memory (R60), a 32-bit register word (R9) and a vector
register of sixteen byte lanes (R8, R14). -/

namespace Sys2Proof

/-- One byte of `M`, one symbol, one lane (R60, R14). -/
abbrev Byte := BitVec 8

/-- The contents of a host-visible register (R9, D3). -/
abbrev Word := BitVec 32

/-- A vector value: sixteen lanes, lane 0 first, lane 0 at the lowest address (R14, R66). -/
abbrev Vec := Vector Byte 16

end Sys2Proof
end

