-- ==== Sys2Proof/Config.lean ====
section
/-! DEFINITION. The values the spec leaves open, as constants with no body: nothing in Lean can
evaluate one, so every claim holds whatever they are. The open parameter `MEM_SIZE` (R10) is a field
of State (`memTop`), so that claims hold for each of its values. `BUS_PROTOCOL` and `REG_BASE` have no
behavioural content (R10) and stand nowhere. -/

namespace Sys2Proof

/-- What a byte of `M` holds at power-up, per address: unknown, and the same at every read until it is
written (R51, R73, U11). Log entry 2. -/
opaque Config.powerUpByte : Nat → Byte

/-- What an internal vector register holds between commands and after a reset: unspecified (R45, U10).
First argument: the draw; second: which register. Log entry 5. -/
opaque Config.freeVec : Nat → Nat → Vec

/-- An unspecified 32-bit value: an internal loop register between commands (R46, U10), or a register
whose mid-command value the host reads (U13). First argument: the draw; second: which item.
Log entries 5 and 9. -/
opaque Config.freeWord : Nat → Nat → Word

/-- How many of the host's accesses during a command come before the command sets `PV` (R22): the rules
place that point nowhere. Argument: the draw. Log entry 25. -/
opaque Config.freePoint : Nat → Nat

/-- Which of the values it may hold a byte of `M` holds after a hard reset during a command (R242, U12).
First argument: the draw; second: the address. Log entry 10. -/
opaque Config.freeChoice : Nat → Nat → Nat

end Sys2Proof
end

