-- ==== Sys2Proof/Syntax.lean ====
section
/-! DEFINITION. The eleven commands, one constructor per row of spec/opcode_table.json (R2, R91). -/

namespace Sys2Proof

/-- A command. Format S commands carry nothing; format V commands carry the flag `ALN` (R91, R92):
`true` selects the aligned variant. Every other operand is implicit in the register block (R93). -/
inductive Instr where
  /-- `LG2`: stage-count derivation and stage-parameter initialisation (R111). -/
  | lg2
  /-- `ILV`: bit interleave into `TEMP` (R121). -/
  | ilv
  /-- `BFS`: one scalar butterfly stage (R131). -/
  | bfs
  /-- `CPB`: copy `FRAME` back to `TEMP` (R132). -/
  | cpb
  /-- `UPD`: stage-parameter update (R113). -/
  | upd
  /-- `MAC`: one data-parallel macro-stage pass (R161). -/
  | mac (aln : Bool)
  /-- `MIC`: the last four stages fused (R171). -/
  | mic (aln : Bool)
  /-- `XFS`: whole scalar transform (R133). -/
  | xfs
  /-- `XFV`: whole data-parallel transform (R180). -/
  | xfv (aln : Bool)
  /-- `ENS`: encode, scalar (R182). -/
  | ens
  /-- `ENV`: encode, data-parallel (R183). -/
  | env (aln : Bool)
  deriving DecidableEq, Repr

end Sys2Proof
end

