-- ==== Sys2Proof/WellFormed.lean ====
section
/-! DEFINITION. What a legal command is: the three conditions of R94 on a command word, and the same
conditions on the fields of an instruction. -/

namespace Sys2Proof

/-- R94 (a): `OP` is one of 0x1 .. 0xB. -/
def opAssigned (op : Nat) : Bool := 1 ≤ op && op ≤ 0xB

/-- R91: the operations of format V, which take the flag `ALN`. -/
def opTakesFlag (op : Nat) : Bool := op == 0x6 || op == 0x7 || op == 0x9 || op == 0xB

/-- R94 (a) on a word: bits 3:0. -/
def LegalOp (w : Word) : Bool := opAssigned (w.toNat % 16)

/-- R94 (b) on a word: bits 31:5 are all 0. -/
def LegalZero (w : Word) : Bool := w.toNat / 32 == 0

/-- R94 (c) on a word: bit 4 is 0 if the command is of format S. -/
def LegalFlag (w : Word) : Bool := opTakesFlag (w.toNat % 16) || w.toNat / 16 % 2 == 0

/-- R94: a command word is legal exactly when (a), (b) and (c) hold. -/
def LegalWord (w : Word) : Bool := LegalOp w && LegalZero w && LegalFlag w

/-- The `OP` number of a command (R91). -/
def Instr.op : Instr → Nat
  | .lg2 => 0x1
  | .ilv => 0x2
  | .bfs => 0x3
  | .cpb => 0x4
  | .upd => 0x5
  | .mac _ => 0x6
  | .mic _ => 0x7
  | .xfs => 0x8
  | .xfv _ => 0x9
  | .ens => 0xA
  | .env _ => 0xB

/-- The `ALN` flag of a command; a format S command has none, so bit 4 of its word is 0 (R92). -/
def Instr.flag : Instr → Bool
  | .mac aln => aln
  | .mic aln => aln
  | .xfv aln => aln
  | .env aln => aln
  | .lg2 => false
  | .ilv => false
  | .bfs => false
  | .cpb => false
  | .upd => false
  | .xfs => false
  | .ens => false

/-- An instruction is well formed when its fields meet R94 (a) and (c). `ALN` is one bit and no other
field exists, so no term of Instr is refused; the checks with something to refuse are those on words. -/
def Instr.WellFormed (i : Instr) : Bool := opAssigned i.op && (opTakesFlag i.op || !i.flag)

end Sys2Proof
end

