-- ==== Sys2Proof/Decode.lean ====
section
/-! DEFINITION. Decoding a command word (R90 to R95), total and rejecting by name, and the encoder
written from the same table; the host-script names of the commands (R97). -/

namespace Sys2Proof

/-- Why a word is illegal (R94): the condition that fails. -/
inductive Illegal where
  /-- Bits 31:5 are not all 0: R94 (b). -/
  | zeroField
  /-- `OP` is 0x0 or 0xC .. 0xF: R94 (a). -/
  | reservedOp
  /-- Bit 4 is set on a format S command: R94 (c). -/
  | flagOnFormatS
  deriving DecidableEq, Repr

/-- `w[3:0]`, the field `OP` (R90). -/
def opField (w : Word) : Nat := w.toNat % 16

/-- `w[4]`, the field `ALN` (R90). -/
def alnField (w : Word) : Bool := w.toNat / 16 % 2 == 1

/-- `w[31:5]`, the must-be-zero field `ZERO` (R90). -/
def zeroField (w : Word) : Nat := w.toNat / 32

/-- A format S command stands only where bit 4 is 0 (R94 (c)). -/
def formatS (aln : Bool) (i : Instr) : Except Illegal Instr :=
  if aln then .error .flagOnFormatS else .ok i

/-- R95: decoding, a total function on 32-bit words. -/
def decode (w : Word) : Except Illegal Instr :=
  if zeroField w ≠ 0 then .error .zeroField
  else
    match opField w with
    | 0x1 => formatS (alnField w) .lg2
    | 0x2 => formatS (alnField w) .ilv
    | 0x3 => formatS (alnField w) .bfs
    | 0x4 => formatS (alnField w) .cpb
    | 0x5 => formatS (alnField w) .upd
    | 0x6 => .ok (.mac (alnField w))
    | 0x7 => .ok (.mic (alnField w))
    | 0x8 => formatS (alnField w) .xfs
    | 0x9 => .ok (.xfv (alnField w))
    | 0xA => formatS (alnField w) .ens
    | 0xB => .ok (.env (alnField w))
    | _ => .error .reservedOp

/-- The word of a command (R90, R91): `OP` in bits 3:0, `ALN` in bit 4, 0 above. -/
def encode (i : Instr) : Word := BitVec.ofNat 32 (i.op + if i.flag then 16 else 0)

/-- The instruction the decoder reads from a table word. A command is one 32-bit word written to `CMD`
(R90), so the word's bit 0 is bit 0 of the number; a number that does not fit 32 bits is no command. -/
def decodeTableWord (nbits w : Nat) : Option Instr :=
  if nbits ≤ 32 ∧ w < 2 ^ 32 then
    match decode (BitVec.ofNat 32 w) with
    | .ok i => some i
    | .error _ => none
  else none

/-- The host-script statement of a command (R97): the suffix `.a` sets `ALN`. -/
def Instr.scriptName : Instr → String
  | .lg2 => "lg2"
  | .ilv => "ilv"
  | .bfs => "bfs"
  | .cpb => "cpb"
  | .upd => "upd"
  | .mac aln => if aln then "mac.a" else "mac"
  | .mic aln => if aln then "mic.a" else "mic"
  | .xfs => "xfs"
  | .xfv aln => if aln then "xfv.a" else "xfv"
  | .ens => "ens"
  | .env aln => if aln then "env.a" else "env"

end Sys2Proof
end

