-- ==== Sys2Proof/Machine/State.lean ====
section
/-! DEFINITION. The state of one engine (R20), the host's moves it has still to take and what the host
has been shown, the reasons a step can stop, and the state after reset (R50). -/

namespace Sys2Proof.Machine

/-- The four flags of `STATUS`, bits 0 to 3; bits 31:4 read 0 and have no storage (R22). -/
structure Status where
  busy : Bool
  done : Bool
  err : Bool
  pv : Bool
  deriving DecidableEq, Repr

/-- The two stored bits of `CTRL`; bits 30:2 and `SRST` read 0 and have no storage (R25). -/
structure Ctrl where
  ieDone : Bool
  ieErr : Bool
  deriving DecidableEq, Repr

/-- The fault causes (R202): exactly nine values, codes 0 to 8 (U19). -/
inductive Cause where
  | none
  | illegalCommand
  | badFrameSize
  | frameTooSmall
  | badStage
  | misaligned
  | outOfRange
  | overlap
  | busError
  deriving DecidableEq, Repr

/-- The internal registers no host access can see: the vector register file (R45) and the loop
registers (R46). -/
structure Internal where
  r0 : Vec
  r1 : Vec
  sh : Vec
  f0 : Vec
  f1 : Vec
  i : Word
  branch : Word
  bit : Word
  tp : Word
  fp : Word
  deriving DecidableEq, Repr

/-- The host-visible registers (R20). -/
inductive Reg where
  | cmd
  | status
  | cause
  | finfo
  | ctrl
  | frameSize
  | frameBase
  | tempBase
  | maskBase
  | frozenBase
  | infoBase
  | stageCount
  | stage
  | frameHalf
  | numBranches
  | frozenIdx
  | infoIdx
  deriving DecidableEq, Repr

/-- One access of the host: to the register port, at a byte offset and with an access size in bytes
(R39), to the memory `M` (R60), or a look at the interrupt output (R220). -/
inductive HostAccess where
  | write (offset size : Nat) (value : Word)
  | read (offset size : Nat)
  | memWrite (addr : Nat) (bytes : List Byte)
  | memRead (addr : Nat)
  | senseIrq
  deriving DecidableEq, Repr

/-- The three `encode` pseudo-instructions (R98). -/
inductive EncodeVariant where
  | s
  | v
  | va
  deriving DecidableEq, Repr

/-- One move of the host: a statement of the host script (R97, R98), hard reset (R240), or a `CMD`
write together with what the host does while that command runs (R244), hard reset included (R242). -/
inductive HostMove where
  | access (a : HostAccess)
  | commandDuring (w : Word) (during : List HostAccess) (hardReset : Bool)
  | hardReset
  | encode (variant : EncodeVariant) (frame temp mask frozen info n : Word)
  | xfsSteps
  | xfsLoop
  | xfvSteps
  | xfvLoop
  deriving DecidableEq, Repr

/-- One line of the listing: what a read of the host showed (R97). -/
inductive Shown where
  | reg (offset : Nat) (value : Word)
  | byte (addr : Nat) (value : Byte)
  | irq (level : Bool)
  deriving DecidableEq, Repr

/-- The data memory `M` (R60): the bytes something has written, by rising address. -/
abbrev Memory := List Host.Cell

/-- The state of one engine with its host. -/
structure State where
  /-- `STATUS` (R22). -/
  status : Status
  /-- `CAUSE` (R23). -/
  cause : Cause
  /-- `FINFO` (R24). -/
  finfo : Word
  /-- `CTRL` (R25). -/
  ctrl : Ctrl
  /-- `FRAME_SIZE` (R26). -/
  frameSize : Word
  /-- `FRAME_BASE` (R27). -/
  frameBase : Word
  /-- `TEMP_BASE` (R28). -/
  tempBase : Word
  /-- `MASK_BASE` (R29). -/
  maskBase : Word
  /-- `FROZEN_BASE` (R30). -/
  frozenBase : Word
  /-- `INFO_BASE` (R31). -/
  infoBase : Word
  /-- `STAGE_COUNT` (R32). -/
  stageCount : Word
  /-- `STAGE` (R33). -/
  stage : Word
  /-- `FRAME_HALF` (R34). -/
  frameHalf : Word
  /-- `NUM_BRANCHES` (R35). -/
  numBranches : Word
  /-- `FROZEN_IDX` (R36). -/
  frozenIdx : Word
  /-- `INFO_IDX` (R37). -/
  infoIdx : Word
  /-- The internal registers (R45, R46). -/
  internal : Internal
  /-- The data memory `M` (R60). -/
  mem : Memory
  /-- The open parameter `MEM_SIZE` (R10) as `MEM_SIZE - 1`; no step changes it. Log entry 1. -/
  memTop : Word
  /-- The model's own: how many free values have been drawn. Log entry 5. -/
  draws : Nat
  /-- The model's own: the host's moves to come, next first. Log entry 7. -/
  script : List HostMove
  /-- The model's own: what the host has been shown, latest first. Log entry 7. -/
  listing : List Shown
  deriving DecidableEq, Repr

/-- Why a step stops with a fault. No command of the engine does: the engine's own faults are recorded
in `STATUS`, `CAUSE` and `FINFO`, and the step goes on (R201). -/
inductive Fault where
  /-- Raised by `hostMemWrite` and `hostMemRead` when the host names an address that does not exist
  (R60: addresses 0 .. MEM_SIZE - 1). Safe: the model stops, and nothing is claimed after it. -/
  | hostOutsideMemory (addr : Nat)
  deriving DecidableEq, Repr

/-- Why a step has no meaning. -/
inductive Refusal where
  /-- Raised by an arm of `exec` whose instruction has no meaning yet; no arm does. Safe. -/
  | notModelled (mnemonic : String)
  /-- Raised by the register port for an access that is not one aligned 32-bit word: not defined by
  the spec, a model refuses it (R39, U8). Safe. -/
  | portAccess (offset size : Nat)
  /-- Raised by the register port for an offset above 0xFF, which the register block does not have
  (R20). Safe. -/
  | outsideRegisterBlock (offset : Nat)
  /-- Raised when the host touches a window of the running command in a way R75 forbids: a race a
  model refuses (U9). Safe. -/
  | windowRace (addr : Nat)
  deriving DecidableEq, Repr

/-- Right after reset: every host-visible register 0 (R50), nothing of `M` written (R51). The internal
registers (log entry 4), `memTop` (log entry 1), `draws` (log entry 5), `script` and `listing` (log
entry 7) hold the values those entries name. -/
def State.reset : State :=
  { status := { busy := false, done := false, err := false, pv := false }
    cause := .none
    finfo := 0
    ctrl := { ieDone := false, ieErr := false }
    frameSize := 0
    frameBase := 0
    tempBase := 0
    maskBase := 0
    frozenBase := 0
    infoBase := 0
    stageCount := 0
    stage := 0
    frameHalf := 0
    numBranches := 0
    frozenIdx := 0
    infoIdx := 0
    internal :=
      { r0 := Vector.replicate 16 0, r1 := Vector.replicate 16 0, sh := Vector.replicate 16 0,
        f0 := Vector.replicate 16 0, f1 := Vector.replicate 16 0,
        i := 0, branch := 0, bit := 0, tp := 0, fp := 0 }
    mem := []
    memTop := 0xFFFFFFFF
    draws := 0
    script := []
    listing := [] }

end Sys2Proof.Machine
end

