-- ==== Sys2Proof/Machine/Ops.lean ====
section
/-! DEFINITION. The named operations over memory and registers: reading and writing `M` (R60, R64,
R15), raising a fault (R201) and the reset that is the only way back from one (R224, R240), a command
in progress and its memory accesses. -/

namespace Sys2Proof.Machine

/-! ## The data memory as a list of cells -/

/-- The byte the list holds for an address, if anything has written it. -/
def Memory.lookup : Memory → Nat → Option Byte
  | [], _ => none
  | c :: m, a => if c.1 = a then some c.2 else Memory.lookup m a

/-- What an address reads as that nothing has written: its unknown power-up value (R51, U11), a free
value per address. Log entry 2. -/
def Memory.unlisted (a : Nat) : Byte := Config.powerUpByte a

/-- One byte of `M`: "the latest earlier write to that byte", or "the byte's unknown initial value if
nothing wrote it" (R73). -/
def Memory.read (m : Memory) (a : Nat) : Byte := (Memory.lookup m a).getD (Memory.unlisted a)

/-- Storing one byte, keeping the cells by rising address: "writes store the byte and nothing else"
(R70). A written byte stays listed whatever its value, since an unlisted one is unknown. Log entry 3. -/
def Memory.write : Memory → Nat → Byte → Memory
  | [], a, b => [(a, b)]
  | c :: m, a, b =>
    if a < c.1 then (a, b) :: c :: m
    else if a = c.1 then (a, b) :: m
    else c :: Memory.write m a b

/-- The canonical form: addresses strictly rising. Every cell was written, so no entry stands for an
unlisted byte. Log entry 3. -/
def Memory.wf : Memory → Bool
  | [] => true
  | c :: m => (match m with
    | [] => true
    | d :: _ => decide (c.1 < d.1)) && Memory.wf m

/-- Storing consecutive bytes, the first at the given address. -/
def Memory.writeBytes : Memory → Nat → List Byte → Memory
  | m, _, [] => m
  | m, a, b :: bs => Memory.writeBytes (Memory.write m a b) (a + 1) bs

/-- `MEM_SIZE`, the number of bytes of `M`: 1 to 2^32 (R10). -/
def State.memSize (s : State) : Nat := s.memTop.toNat + 1

/-! ## Free values of the internal registers, faults and resets -/

/-- Internal registers with unspecified values (R45, R46, U10), by draw. -/
def freeInternal (draw : Nat) : Internal :=
  { r0 := Config.freeVec draw 0, r1 := Config.freeVec draw 1, sh := Config.freeVec draw 2,
    f0 := Config.freeVec draw 3, f1 := Config.freeVec draw 4,
    i := Config.freeWord draw 0, branch := Config.freeWord draw 1, bit := Config.freeWord draw 2,
    tp := Config.freeWord draw 3, fp := Config.freeWord draw 4 }

/-- The internal registers become unspecified: "their values between commands and after reset are
unspecified and unobservable" (R45, R46). -/
def State.forgetInternal (s : State) : State :=
  { s with internal := freeInternal s.draws, draws := s.draws + 1 }

/-- `raise <Cause>(info)` (R201): taking a fault. The cause and the information word are recorded,
`ERR` is set and `BUSY` cleared, and nothing else changes (R223). -/
def State.raise (c : Cause) (info : Nat) (s : State) : State :=
  { s with
    cause := c
    finfo := BitVec.ofNat 32 info
    status := { s.status with err := true, busy := false } }

/-- Hard reset, and soft reset, of the registers: every host-visible register 0 (R50), the internal
registers unspecified, `M` not touched (R51, R240, R241). The only return from a fault (R224). -/
def State.resetRegisters (s : State) : State :=
  { s with
    status := { busy := false, done := false, err := false, pv := false }
    cause := .none
    finfo := 0
    ctrl := { ieDone := false, ieErr := false }
    frameSize := 0
    frameBase := 0
    tempBase := 0
    maskBase := 0
    frozenBase := 0
    infoBase := 0
    stageCount := 0
    stage := 0
    frameHalf := 0
    numBranches := 0
    frozenIdx := 0
    infoIdx := 0
    internal := freeInternal s.draws
    draws := s.draws + 1 }

/-! ## A command in progress -/

/-- A command in progress: the state so far, and every byte the command has stored, latest first. The
log serves only a hard reset during the command (R242). -/
structure Run where
  st : State
  log : List Host.Cell
  deriving DecidableEq, Repr

/-- Ending the command in progress by a fault (R201). -/
def Run.raise (c : Cause) (info : Nat) (r : Run) : Run := { r with st := r.st.raise c info }

/-- `MemRead(addr, 1)` (R15, R64). -/
def Run.memRead (a : Nat) (r : Run) : Except Run Byte :=
  if a + 1 ≤ r.st.memSize then .ok (Memory.read r.st.mem a) else .error (r.raise .busError a)

/-- Storing a byte that is known to be in `M`, and logging it. -/
def Run.store (a : Nat) (b : Byte) (r : Run) : Run :=
  { st := { r.st with mem := Memory.write r.st.mem a b }, log := (a, b) :: r.log }

/-- `MemWrite(addr, 1, b)` (R15, R64). -/
def Run.memWrite (a : Nat) (b : Byte) (r : Run) : Except Run Run :=
  if a + 1 ≤ r.st.memSize then .ok (r.store a b) else .error (r.raise .busError a)

/-- `MemRead(addr, 16)`: lane i is the byte at `addr + i` (R66); an access that leaves `M` reads
nothing (R64). -/
def Run.memRead16 (a : Nat) (r : Run) : Except Run Vec :=
  if a + 16 ≤ r.st.memSize then .ok (Vector.ofFn fun i => Memory.read r.st.mem (a + i.val))
  else .error (r.raise .busError a)

/-- Storing bytes that are known to be in `M`, lowest address first. -/
def Run.storeBytes : Nat → List Byte → Run → Run
  | _, [], r => r
  | a, b :: bs, r => Run.storeBytes (a + 1) bs (r.store a b)

/-- `MemWrite(addr, 16, v)`: lane i goes to `addr + i` (R66); an access that leaves `M` writes nothing
(R64). -/
def Run.memWrite16 (a : Nat) (v : Vec) (r : Run) : Except Run Run :=
  if a + 16 ≤ r.st.memSize then .ok (Run.storeBytes a v.toList r) else .error (r.raise .busError a)

/-! ## The loops of the pseudocode (R17) -/

/-- `count` passes of a loop body, the loop variable rising from `start`; a raised fault ends it. -/
def loopFrom (body : Nat → Run → Except Run Run) : Nat → Nat → Run → Except Run Run
  | 0, _, r => .ok r
  | count + 1, start, r => (body start r).bind (loopFrom body count (start + 1))

/-- `for i = 0 .. n-1`: in that order, and nothing when n = 0 (R17). -/
def forEach (n : Nat) (body : Nat → Run → Except Run Run) (r : Run) : Except Run Run :=
  loopFrom body n 0 r

/-- At most `fuel` passes of `while cond(STAGE)`. -/
def whileFuel (cond : Word → Bool) (body : Run → Except Run Run) : Nat → Run → Except Run Run
  | 0, r => .ok r
  | fuel + 1, r => if cond r.st.stage then (body r).bind (whileFuel cond body fuel) else .ok r

/-- `while cond(STAGE): body`, for the two loops of the engine, whose body ends in `do_UPD()` and so
lowers `STAGE` by one: the value of `STAGE` at the start bounds the passes (R187). Log entry 14. -/
def whileStage (cond : Word → Bool) (body : Run → Except Run Run) (r : Run) : Except Run Run :=
  whileFuel cond body r.st.stage.toNat r

end Sys2Proof.Machine
end

