-- ==== Sys2Proof/Machine/Flags.lean ====
section
/-! DEFINITION. The flags: the words `STATUS`, `CAUSE` and `CTRL` read as (R22, R23, R25), the
interrupt output (R220), and what acceptance and completion of a command do to `STATUS` (R200). -/

namespace Sys2Proof.Machine

/-- One bit of a register word, as a number. -/
def bitAt (b : Bool) (i : Nat) : Nat := if b then 2 ^ i else 0

/-- `STATUS` as the host reads it: `BUSY`, `DONE`, `ERR`, `PV` in bits 0 to 3, 0 above (R22). -/
def Status.word (s : Status) : Word :=
  BitVec.ofNat 32 (bitAt s.busy 0 + bitAt s.done 1 + bitAt s.err 2 + bitAt s.pv 3)

/-- `CTRL` as the host reads it: `IE_DONE`, `IE_ERR` in bits 0 and 1; the rest, `SRST` included, 0 (R25). -/
def Ctrl.word (c : Ctrl) : Word := BitVec.ofNat 32 (bitAt c.ieDone 0 + bitAt c.ieErr 1)

/-- The cause codes (R202). -/
def Cause.code : Cause → Nat
  | .none => 0
  | .illegalCommand => 1
  | .badFrameSize => 2
  | .frameTooSmall => 3
  | .badStage => 4
  | .misaligned => 5
  | .outOfRange => 6
  | .overlap => 7
  | .busError => 8

/-- The interrupt output `irq`, a pure function of state (R220). -/
def State.irq (s : State) : Bool :=
  (s.status.done && s.ctrl.ieDone) || (s.status.err && s.ctrl.ieErr)

/-- Acceptance of a command: `DONE <- 0`, `BUSY <- 1` (R200). -/
def State.accept (s : State) : State :=
  { s with status := { s.status with done := false, busy := true } }

/-- Completion of a command: `BUSY <- 0`, `DONE <- 1` (R200). -/
def State.complete (s : State) : State :=
  { s with status := { s.status with busy := false, done := true } }

/-- A command is accepted when the engine is neither busy nor in error (R21). -/
def State.ready (s : State) : Bool := !s.status.busy && !s.status.err

/-- A host write to `STATUS` while not busy: bit 1 written as 1 clears `DONE`, and nothing else (R22). -/
def State.writeStatus (w : Word) (s : State) : State :=
  if w.getLsbD 1 then { s with status := { s.status with done := false } } else s

/-- A host write to `CTRL` while not busy: `SRST` resets every register whatever the other bits were
(R241); otherwise the two enables are stored (R25). -/
def State.writeCtrl (w : Word) (s : State) : State :=
  if w.getLsbD 31 then s.resetRegisters
  else { s with ctrl := { ieDone := w.getLsbD 0, ieErr := w.getLsbD 1 } }

/-- A host write to `FRAME_SIZE` while not busy: all 32 bits are stored, and `PV` is cleared, "any
value, even the same" (R22, R26). -/
def State.writeFrameSize (w : Word) (s : State) : State :=
  { s with frameSize := w, status := { s.status with pv := false } }

end Sys2Proof.Machine
end

