-- ==== Sys2Proof/Machine/Operands.lean ====
section
/-! DEFINITION. The operands of a command: the buffers as windows of `M` (R15, R61), the checks of
the check phase (R203 to R210), and which command applies which (R212) and uses which window (R65). -/

namespace Sys2Proof.Machine

/-! ## Buffers -/

/-- N, the number of symbols: the value of `FRAME_SIZE` (R17, R26). -/
def State.frameLength (s : State) : Nat := s.frameSize.toNat

/-- The address of `TEMP[i]` (R15, R28), exact arithmetic (R118). -/
def State.tempAddr (s : State) (i : Nat) : Nat := s.tempBase.toNat + i

/-- The address of `FRAME[i]` (R15, R27). -/
def State.frameAddr (s : State) (i : Nat) : Nat := s.frameBase.toNat + i

/-- The address of `MASK[i]` (R15, R29). -/
def State.maskAddr (s : State) (i : Nat) : Nat := s.maskBase.toNat + i

/-- The address of `FROZEN[i]` (R15, R30). -/
def State.frozenAddr (s : State) (i : Nat) : Nat := s.frozenBase.toNat + i

/-- The address of `INFO[i]` (R15, R31). -/
def State.infoAddr (s : State) (i : Nat) : Nat := s.infoBase.toNat + i

/-! ## The checks -/

/-- A failing check: the cause and the information word (R202). -/
abbrev Failure := Cause × Nat

/-- `FRAME_SIZE` is a power of two: not 0, and `FRAME_SIZE & (FRAME_SIZE - 1) = 0` (R205). -/
def State.legalFrameSize (s : State) : Bool :=
  s.frameSize != 0 && s.frameSize &&& (s.frameSize - 1) == 0

/-- The stage condition of a command (R207). -/
inductive StageNeed where
  | notUsed
  | atLeastOne
  | atLeastFive
  | exactlyFour
  deriving DecidableEq, Repr

/-- Does `STAGE` meet the condition (R207)? -/
def stageMeets (need : StageNeed) (stage : Word) : Bool :=
  match need with
  | .notUsed => true
  | .atLeastOne => 1 ≤ stage.toNat
  | .atLeastFive => 5 ≤ stage.toNat
  | .exactlyFour => stage.toNat == 4

/-- One row of R212: which checks a command applies. `aligned` is whether R208 applies, which for a
format V command is its flag `ALN`. -/
structure Checks where
  frameSize : Bool
  minSize : Bool
  stage : StageNeed
  aligned : Bool
  temp : Bool
  frame : Bool
  mask : Bool
  overlap : Bool
  deriving DecidableEq, Repr

/-- `BAD_FRAME_SIZE` (R205). -/
def checkFrameSize (s : State) : Option Failure :=
  if s.legalFrameSize then none else some (.badFrameSize, s.frameSize.toNat)

/-- `FRAME_TOO_SMALL` (R206). -/
def checkMinSize (s : State) : Option Failure :=
  if s.frameLength < 16 then some (.frameTooSmall, s.frameSize.toNat) else none

/-- `BAD_STAGE` (R207). -/
def checkStage (need : StageNeed) (s : State) : Option Failure :=
  if s.status.pv && stageMeets need s.stage then none else some (.badStage, s.stage.toNat)

/-- `MISALIGNED` for one base (R208). -/
def checkAligned (base : Word) : Option Failure :=
  if base.toNat % 16 = 0 then none else some (.misaligned, base.toNat)

/-- `OUT_OF_RANGE` for one window, in exact arithmetic (R209). -/
def checkWindow (base : Word) (s : State) : Option Failure :=
  if base.toNat + s.frameLength ≤ s.memSize then none else some (.outOfRange, base.toNat)

/-- The `TEMP` and `FRAME` windows share no address (R63). -/
def State.disjoint (s : State) : Bool :=
  s.tempBase.toNat + s.frameLength ≤ s.frameBase.toNat
    || s.frameBase.toNat + s.frameLength ≤ s.tempBase.toNat

/-- `OVERLAP` (R210). -/
def checkOverlap (s : State) : Option Failure :=
  if s.disjoint then none else some (.overlap, s.tempBase.toNat)

/-- A check that the row applies only if it is marked (R212). -/
def onlyIf (applies : Bool) (check : Option Failure) : Option Failure :=
  if applies then check else none

/-- The first of several checks that fails (R203). -/
def firstFailing : List (Option Failure) → Option Failure
  | [] => none
  | some f :: _ => some f
  | none :: rest => firstFailing rest

/-- The check phase in its fixed order (R203): frame size, minimum size, stage, alignment (`TEMP`, then
`FRAME`), range (`TEMP`, `FRAME`, `MASK`), overlap. -/
def checkPhase (c : Checks) (s : State) : Option Failure :=
  firstFailing
    [ onlyIf c.frameSize (checkFrameSize s),
      onlyIf c.minSize (checkMinSize s),
      onlyIf (c.stage != .notUsed) (checkStage c.stage s),
      onlyIf c.aligned (checkAligned s.tempBase),
      onlyIf c.aligned (checkAligned s.frameBase),
      onlyIf c.temp (checkWindow s.tempBase s),
      onlyIf c.frame (checkWindow s.frameBase s),
      onlyIf c.mask (checkWindow s.maskBase s),
      onlyIf c.overlap (checkOverlap s) ]

/-- R212, the row of each command. -/
def checksOf : Instr → Checks
  | .lg2 =>
    { frameSize := true, minSize := false, stage := .notUsed, aligned := false,
      temp := false, frame := false, mask := false, overlap := false }
  | .ilv =>
    { frameSize := true, minSize := false, stage := .notUsed, aligned := false,
      temp := true, frame := false, mask := true, overlap := false }
  | .bfs =>
    { frameSize := true, minSize := false, stage := .atLeastOne, aligned := false,
      temp := true, frame := true, mask := false, overlap := true }
  | .cpb =>
    { frameSize := true, minSize := false, stage := .notUsed, aligned := false,
      temp := true, frame := true, mask := false, overlap := true }
  | .upd =>
    { frameSize := false, minSize := false, stage := .atLeastOne, aligned := false,
      temp := false, frame := false, mask := false, overlap := false }
  | .mac aln =>
    { frameSize := true, minSize := true, stage := .atLeastFive, aligned := aln,
      temp := true, frame := true, mask := false, overlap := true }
  | .mic aln =>
    { frameSize := true, minSize := true, stage := .exactlyFour, aligned := aln,
      temp := true, frame := true, mask := false, overlap := true }
  | .xfs =>
    { frameSize := true, minSize := false, stage := .notUsed, aligned := false,
      temp := true, frame := true, mask := false, overlap := true }
  | .xfv aln =>
    { frameSize := true, minSize := true, stage := .notUsed, aligned := aln,
      temp := true, frame := true, mask := false, overlap := true }
  | .ens =>
    { frameSize := true, minSize := false, stage := .notUsed, aligned := false,
      temp := true, frame := true, mask := true, overlap := true }
  | .env aln =>
    { frameSize := true, minSize := true, stage := .notUsed, aligned := aln,
      temp := true, frame := true, mask := true, overlap := true }

/-! ## Which command touches which buffer (R65) -/

/-- One row of R65: the windows a command reads or writes. -/
structure BufferUse where
  mask : Bool
  frozen : Bool
  info : Bool
  temp : Bool
  frame : Bool
  deriving DecidableEq, Repr

/-- R65, the row of each command on a frame of n symbols: `XFS` and `ENS` do not touch `FRAME` "at all when
N = 1". -/
def buffersOf (i : Instr) (n : Nat) : BufferUse :=
  match i with
  | .lg2 => { mask := false, frozen := false, info := false, temp := false, frame := false }
  | .ilv => { mask := true, frozen := true, info := true, temp := true, frame := false }
  | .bfs => { mask := false, frozen := false, info := false, temp := true, frame := true }
  | .cpb => { mask := false, frozen := false, info := false, temp := true, frame := true }
  | .upd => { mask := false, frozen := false, info := false, temp := false, frame := false }
  | .mac _ => { mask := false, frozen := false, info := false, temp := true, frame := true }
  | .mic _ => { mask := false, frozen := false, info := false, temp := true, frame := true }
  | .xfs => { mask := false, frozen := false, info := false, temp := true, frame := n != 1 }
  | .xfv _ => { mask := false, frozen := false, info := false, temp := true, frame := true }
  | .ens => { mask := true, frozen := true, info := true, temp := true, frame := n != 1 }
  | .env _ => { mask := true, frozen := true, info := true, temp := true, frame := true }

/-- What the host can notice of a command while it runs: the windows it uses (R65, R75), the value it leaves
in `PV`, and how many of the host's accesses come before `PV` holds that value (R22; log entry 25). -/
structure Running where
  use : BufferUse
  pvAfter : Bool
  pvSetAt : Nat
  deriving DecidableEq, Repr

/-- The `PV` bit while the command runs: as at acceptance up to that point, as the command leaves it from
then on (R22). -/
def Running.pv (c : Running) (s : State) : Bool := if c.pvSetAt = 0 then c.pvAfter else s.status.pv

/-- The same command one access of the host later. -/
def Running.later (c : Running) : Running := { c with pvSetAt := c.pvSetAt - 1 }

/-- A command of which nothing is known and which may use every window. It stands for the command of an idle
engine, where it matters nowhere, and of a busy one between steps, which no run reaches (log entry 23). -/
def Running.unknown : Running :=
  { use := { mask := true, frozen := true, info := true, temp := true, frame := true }
    pvAfter := false
    pvSetAt := 1 }

/-- Mask byte i, `MASK[i]` (R15). -/
def State.mask (s : State) (i : Nat) : Byte := Memory.read s.mem (s.maskAddr i)

/-- The number of non-zero bytes among `MASK[0 .. i-1]`, c1(i) (R126). -/
def State.frozenBefore (s : State) (i : Nat) : Nat :=
  (List.range i).countP fun k => s.mask k != 0

/-- f, the number of frozen values the mask asks for (R61). -/
def State.frozenCount (s : State) : Nat := s.frozenBefore s.frameLength

/-- z = N - f, the number of info values the mask asks for (R61). -/
def State.infoCount (s : State) : Nat := s.frameLength - s.frozenCount

/-- Is the address in the window of n bytes at the base (R61)? -/
def inWindow (base : Word) (n a : Nat) : Bool := base.toNat ≤ a && a < base.toNat + n

/-- The interleaver cannot overwrite the mask it counts by: `MASK` and `TEMP` share no address. -/
def State.maskApart (s : State) : Bool :=
  s.maskBase.toNat + s.frameLength ≤ s.tempBase.toNat || s.tempBase.toNat + s.frameLength ≤ s.maskBase.toNat

/-- The length of the `FROZEN` window while the interleaver runs: f (R61), and N, the most it can be, where
it may overwrite its own mask. Log entry 11. -/
def State.frozenWindow (s : State) : Nat := if s.maskApart then s.frozenCount else s.frameLength

/-- The length of the `INFO` window while the interleaver runs: z = N - f (R61), likewise. Log entry 11. -/
def State.infoWindow (s : State) : Nat := if s.maskApart then s.infoCount else s.frameLength

/-- The addresses the host may not read while a command runs: `TEMP` and `FRAME`, whichever command it is
(R75). -/
def State.readRaces (s : State) (a : Nat) : Bool :=
  inWindow s.tempBase s.frameLength a || inWindow s.frameBase s.frameLength a

/-- The addresses the host may not write while a command runs: every window that command uses (R65,
R75). -/
def State.writeRaces (u : BufferUse) (s : State) (a : Nat) : Bool :=
  (u.temp && inWindow s.tempBase s.frameLength a) || (u.frame && inWindow s.frameBase s.frameLength a)
    || (u.mask && inWindow s.maskBase s.frameLength a)
    || (u.frozen && inWindow s.frozenBase s.frozenWindow a)
    || (u.info && inWindow s.infoBase s.infoWindow a)

/-! ## Symbols of the buffers -/

/-- Reading `TEMP[i]` (R15). -/
def Run.readTemp (i : Nat) (r : Run) : Except Run Byte := r.memRead (r.st.tempAddr i)

/-- Reading `FRAME[i]` (R15). -/
def Run.readFrame (i : Nat) (r : Run) : Except Run Byte := r.memRead (r.st.frameAddr i)

/-- Reading `MASK[i]` (R15). -/
def Run.readMask (i : Nat) (r : Run) : Except Run Byte := r.memRead (r.st.maskAddr i)

/-- `TEMP[i] <- b` (R15). -/
def Run.writeTemp (i : Nat) (b : Byte) (r : Run) : Except Run Run :=
  r.memWrite (r.st.tempAddr i) b

/-- `FRAME[i] <- b` (R15). -/
def Run.writeFrame (i : Nat) (b : Byte) (r : Run) : Except Run Run :=
  r.memWrite (r.st.frameAddr i) b

/-! ## The life cycle of a command -/

/-- R200 for a legal word the engine accepts: acceptance, the check phase, then the command's body,
which may raise `BUS_ERROR`, then completion. A fault in the check phase leaves everything but
`STATUS`, `CAUSE` and `FINFO` as it was (R223); after a body the internal registers are unspecified
(R45, R46). -/
def runCommand (c : Checks) (body : Run → Except Run Run) (s : State) : Run :=
  match checkPhase c s.accept with
  | some f => { st := s.accept.raise f.1 f.2, log := [] }
  | none =>
    match body { st := s.accept, log := [] } with
    | .ok r => { r with st := r.st.complete.forgetInternal }
    | .error r => { r with st := r.st.forgetInternal }

/-- A command is one step of the machine, and its end is always a next state: a fault of the engine is
recorded in `STATUS`, `CAUSE` and `FINFO` (R74, R200, R201). -/
def Run.outcome (r : Run) : Host.Outcome State Fault Refusal := .next r.st

end Sys2Proof.Machine
end

