-- ==== Sys2Proof/Machine/Interleaver.lean ====
section
/-! DEFINITION. `ILV`: the bit interleaver (R120 to R126). -/

namespace Sys2Proof.Machine

/-- `FROZEN_IDX <- 0`, `INFO_IDX <- 0`: the start of `do_ILV()` (R121). -/
def Run.clearIndices (r : Run) : Run := { r with st := { r.st with frozenIdx := 0, infoIdx := 0 } }

/-- `FROZEN_IDX <- FROZEN_IDX + 1` (R121). -/
def Run.countFrozen (r : Run) : Run := { r with st := { r.st with frozenIdx := r.st.frozenIdx + 1 } }

/-- `INFO_IDX <- INFO_IDX + 1` (R121). -/
def Run.countInfo (r : Run) : Run := { r with st := { r.st with infoIdx := r.st.infoIdx + 1 } }

/-- One position of the interleaver: the mask byte, then the next unread frozen or info value, then
the `TEMP` byte (R121). The mask test is "nonzero" (R122). -/
def interleaveAt (i : Nat) (r : Run) : Except Run Run :=
  (r.readMask i).bind fun m =>
    if m ≠ 0 then
      (r.memRead (r.st.frozenAddr r.st.frozenIdx.toNat)).bind fun b => r.countFrozen.writeTemp i b
    else
      (r.memRead (r.st.infoAddr r.st.infoIdx.toNat)).bind fun b => r.countInfo.writeTemp i b

/-- `do_ILV()` (R121): "exactly `frame_size` times", left to right. -/
def doIlv (r : Run) : Except Run Run := forEach r.st.frameLength interleaveAt r.clearIndices

/-- The run of one `ILV` command (R121). -/
def runIlv (s : State) : Run := runCommand (checksOf .ilv) doIlv s

/-- `ILV` (R121). -/
def execIlv (s : State) : Host.Outcome State Fault Refusal := (runIlv s).outcome

end Sys2Proof.Machine
end

