-- ==== Sys2Proof/Machine/StageCount.lean ====
section
/-! DEFINITION. `LG2` and `UPD`: stage-count derivation, stage-parameter initialisation and update
(R110 to R114). -/

namespace Sys2Proof.Machine

/-- The five-step parallel bit reduction over a 32-bit word (R110, R111): step k contributes the bit of
weight 2^k when any bit under its alternating mask is set. -/
def log2Reduction (v : Word) : Word :=
  (if v &&& 0xAAAAAAAA ≠ 0 then 1 else 0)
    ||| (if v &&& 0xCCCCCCCC ≠ 0 then 2 else 0)
    ||| (if v &&& 0xF0F0F0F0 ≠ 0 then 4 else 0)
    ||| (if v &&& 0xFF00FF00 ≠ 0 then 8 else 0)
    ||| (if v &&& 0xFFFF0000 ≠ 0 then 16 else 0)

/-- The effect of `do_LG2()` on the registers (R111). -/
def State.deriveStages (s : State) : State :=
  { s with
    stageCount := log2Reduction s.frameSize
    stage := log2Reduction s.frameSize
    frameHalf := s.frameSize >>> 1
    numBranches := 1
    status := { s.status with pv := true } }

/-- The effect of `do_UPD()` on the registers (R113). -/
def State.updateStages (s : State) : State :=
  { s with
    numBranches := s.numBranches <<< 1
    frameHalf := s.frameHalf >>> 1
    stage := s.stage - 1 }

/-- `do_LG2()` (R111). -/
def doLg2 (r : Run) : Except Run Run := .ok { r with st := r.st.deriveStages }

/-- `do_UPD()` (R113). -/
def doUpd (r : Run) : Except Run Run := .ok { r with st := r.st.updateStages }

/-- The run of one `LG2` command (R111). -/
def runLg2 (s : State) : Run := runCommand (checksOf .lg2) doLg2 s

/-- `LG2` (R111). -/
def execLg2 (s : State) : Host.Outcome State Fault Refusal := (runLg2 s).outcome

/-- The run of one `UPD` command (R113). -/
def runUpd (s : State) : Run := runCommand (checksOf .upd) doUpd s

/-- `UPD` (R113). -/
def execUpd (s : State) : Host.Outcome State Fault Refusal := (runUpd s).outcome

end Sys2Proof.Machine
end

