-- ==== Sys2Proof/Machine/ScalarStage.lean ====
section
/-! DEFINITION. `BFS`, `CPB` and `XFS`: one scalar butterfly stage, the copy back and the whole scalar
transform (R130 to R136). -/

namespace Sys2Proof.Machine

/-- One bit pair of a branch that starts at `base`, in the equivalent form of R131:
`FRAME[base+i] <- TEMP[base+2i] ^ TEMP[base+2i+1]` and `FRAME[base+fh+i] <- TEMP[base+2i+1]`. -/
def butterflyAt (base fh i : Nat) (r : Run) : Except Run Run :=
  (r.readTemp (base + 2 * i)).bind fun a =>
    (r.readTemp (base + 2 * i + 1)).bind fun b =>
      (r.writeFrame (base + i) (a ^^^ b)).bind fun r => r.writeFrame (base + fh + i) b

/-- One branch of a scalar stage: its `FRAME_HALF` bit pairs in order (R131). -/
def butterflyBranch (fh g : Nat) (r : Run) : Except Run Run :=
  forEach fh (butterflyAt (g * (2 * fh)) fh) r

/-- `do_BFS()` (R131): branch g starts at `g * 2 * fh`. -/
def doBfs (r : Run) : Except Run Run :=
  forEach r.st.numBranches.toNat (butterflyBranch r.st.frameHalf.toNat) r

/-- `TEMP[i] <- FRAME[i]` (R132). -/
def copyBackAt (i : Nat) (r : Run) : Except Run Run := (r.readFrame i).bind fun b => r.writeTemp i b

/-- `do_CPB()` (R132). -/
def doCpb (r : Run) : Except Run Run := forEach r.st.frameLength copyBackAt r

/-- One pass of the loop of `do_XFS()`: stage, copy back, update (R133; the copy back runs after every
stage, 90_conflicts.md C7). -/
def scalarRound (r : Run) : Except Run Run := ((doBfs r).bind doCpb).bind doUpd

/-- `do_XFS()` (R133): `while STAGE != 0`. -/
def doXfs (r : Run) : Except Run Run :=
  (doLg2 r).bind (whileStage (fun stage => stage != 0) scalarRound)

/-- The run of one `BFS` command (R131). -/
def runBfs (s : State) : Run := runCommand (checksOf .bfs) doBfs s

/-- `BFS` (R131). -/
def execBfs (s : State) : Host.Outcome State Fault Refusal := (runBfs s).outcome

/-- The run of one `CPB` command (R132). -/
def runCpb (s : State) : Run := runCommand (checksOf .cpb) doCpb s

/-- `CPB` (R132). -/
def execCpb (s : State) : Host.Outcome State Fault Refusal := (runCpb s).outcome

/-- The run of one `XFS` command (R133). -/
def runXfs (s : State) : Run := runCommand (checksOf .xfs) doXfs s

/-- `XFS` (R133). -/
def execXfs (s : State) : Host.Outcome State Fault Refusal := (runXfs s).outcome

end Sys2Proof.Machine
end

