-- ==== Sys2Proof/Machine/Vectors.lean ====
section
/-! DEFINITION. The lane-vector datapath: the primitives inside `MAC` and `MIC` (R140 to R147), the
lane masks and permutation tables (R148 to R150) and the masked shift-XOR step (R151). -/

namespace Sys2Proof.Machine

/-- Lane i of a vector; there is no lane past 15 (R14). -/
def lane (v : Vec) (i : Nat) : Byte := v.toList.getD i 0

/-- `VSHR(v, d)`: every lane moves d places toward lane 0, zero fill (R143). -/
def vshr (v : Vec) (d : Nat) : Vec := Vector.ofFn fun i => if i.val + d ≤ 15 then lane v (i.val + d) else 0

/-- `VAND(a, b)`, lane by lane (R144). -/
def vand (a b : Vec) : Vec := Vector.ofFn fun i => lane a i.val &&& lane b i.val

/-- `VXOR(a, b)`, lane by lane (R145). -/
def vxor (a b : Vec) : Vec := Vector.ofFn fun i => lane a i.val ^^^ lane b i.val

/-- `VPERM(v, P)`, a gather: result lane j takes source lane P[j] (R146). -/
def vperm (v : Vec) (table : List Nat) : Vec := Vector.ofFn fun j => lane v (table.getD j.val 0)

/-- `VCATLO(a, b)`: the low halves (R147). -/
def vcatlo (a b : Vec) : Vec :=
  Vector.ofFn fun i => if i.val < 8 then lane a i.val else lane b (i.val - 8)

/-- `VCATHI(a, b)`: the high halves (R147). -/
def vcathi (a b : Vec) : Vec :=
  Vector.ofFn fun i => if i.val < 8 then lane a (i.val + 8) else lane b i.val

/-- `LANEMASK[d]`: lane i is 0xFF when `(i & d) = 0` and 0x00 otherwise (R148). -/
def laneMask (d : Nat) : Vec := Vector.ofFn fun i => if i.val &&& d = 0 then 0xFF else 0x00

/-- The separating permutation: the even lanes in order, then the odd lanes (R149). -/
def sepTable : List Nat := [0, 2, 4, 6, 8, 10, 12, 14, 1, 3, 5, 7, 9, 11, 13, 15]

/-- The bit-reversal permutation: entry j is j with its four binary digits reversed (R150). -/
def revTable : List Nat := [0, 8, 4, 12, 2, 10, 6, 14, 1, 9, 5, 13, 3, 11, 7, 15]

/-- `XSTEP(v, d)`: shift toward lane 0 by d, keep the absorbing lanes, XOR into v (R151). -/
def xstep (v : Vec) (d : Nat) : Vec := vxor (vand (vshr v d) (laneMask d)) v

/-- The butterfly of one register: neighbour XOR, then even and odd separated (R152). -/
def registerButterfly (v : Vec) : Vec := vperm (xstep v 1) sepTable

/-- The four fused stages of one chunk: bit reversal, then the reductions at distances 8, 4, 2, 1
(R171; four and not three: 90_conflicts.md C1). -/
def fusedStages (v : Vec) : Vec := xstep (xstep (xstep (xstep (vperm v revTable) 8) 4) 2) 1

/-- `VLoadU(addr)` (R141). -/
def Run.vloadU (a : Nat) (r : Run) : Except Run Vec := r.memRead16 a

/-- `VLoadA(addr)`: "the same function with the precondition `addr mod 16 = 0`" (R141), which the base
check of R68 guarantees. -/
def Run.vloadA (a : Nat) (r : Run) : Except Run Vec := r.memRead16 a

/-- `VLoad(addr)`: the primitive the command's `ALN` selects (R141). -/
def Run.vload (aln : Bool) (a : Nat) (r : Run) : Except Run Vec :=
  if aln then r.vloadA a else r.vloadU a

/-- `VStoreU(addr, v)` (R142). -/
def Run.vstoreU (a : Nat) (v : Vec) (r : Run) : Except Run Run := r.memWrite16 a v

/-- `VStoreA(addr, v)`: the same with the precondition `addr mod 16 = 0` (R142). -/
def Run.vstoreA (a : Nat) (v : Vec) (r : Run) : Except Run Run := r.memWrite16 a v

/-- `VStore(addr, v)`: the primitive the command's `ALN` selects (R142). -/
def Run.vstore (aln : Bool) (a : Nat) (v : Vec) (r : Run) : Except Run Run :=
  if aln then r.vstoreA a v else r.vstoreU a v

end Sys2Proof.Machine
end

