-- ==== Sys2Proof/Machine/VectorStage.lean ====
section
/-! DEFINITION. `MAC`, `MIC` and `XFV`: one data-parallel macro-stage pass, the fused micro stage and
the whole data-parallel transform (R160 to R173, R180). -/

namespace Sys2Proof.Machine

/-- How many chunks the inner loop of `MAC` runs per branch: `for bit = 0 .. fh-1 step 16` (R161). -/
def chunksPerBranch (fh : Nat) : Nat := (fh + 15) / 16

/-- One chunk of `MAC` (R161): two registers loaded from `TEMP + tp`, each its butterfly, the low halves
stored at `FRAME + fp`, the high halves `fh` further on. -/
def macroChunk (aln : Bool) (fh tp fp : Nat) (r : Run) : Except Run Run :=
  (r.vload aln (r.st.tempAddr tp)).bind fun r0 =>
    (r.vload aln (r.st.tempAddr (tp + 16))).bind fun r1 =>
      let r0 := registerButterfly r0
      let r1 := registerButterfly r1
      (r.vstore aln (r.st.frameAddr fp) (vcatlo r0 r1)).bind fun r =>
        r.vstore aln (r.st.frameAddr (fp + fh)) (vcathi r0 r1)

/-- One branch of `MAC`: each chunk advances `tp` by 32 and `fp` by 16, and the branch ends by advancing
`fp` by `fh` (R161). -/
def macroBranch (aln : Bool) (fh g : Nat) (r : Run) : Except Run Run :=
  forEach (chunksPerBranch fh)
    (fun c => macroChunk aln fh (g * (32 * chunksPerBranch fh) + 32 * c)
      (g * (16 * chunksPerBranch fh + fh) + 16 * c)) r

/-- `do_MAC(aln)` (R161). -/
def doMac (aln : Bool) (r : Run) : Except Run Run :=
  forEach r.st.numBranches.toNat (macroBranch aln r.st.frameHalf.toNat) r

/-- One chunk of `MIC` (R171): load, the four fused stages, store. -/
def microChunk (aln : Bool) (g : Nat) (r : Run) : Except Run Run :=
  (r.vload aln (r.st.tempAddr (16 * g))).bind fun v =>
    r.vstore aln (r.st.frameAddr (16 * g)) (fusedStages v)

/-- The register writes at the end of `do_MIC()`: where four `UPD`s would have put them (R171). -/
def State.finishStages (s : State) : State :=
  { s with stage := 0, frameHalf := 0, numBranches := s.frameSize }

/-- `do_MIC(aln)` (R171). -/
def doMic (aln : Bool) (r : Run) : Except Run Run :=
  (forEach r.st.numBranches.toNat (microChunk aln) r).bind fun r =>
    .ok { r with st := r.st.finishStages }

/-- One pass of the macro loop of `do_XFV()`: macro stage, copy back, update (R180). -/
def macroRound (aln : Bool) (r : Run) : Except Run Run := ((doMac aln r).bind doCpb).bind doUpd

/-- `do_XFV(aln)` (R180): `while STAGE > 4`, then `do_MIC(aln)`. -/
def doXfv (aln : Bool) (r : Run) : Except Run Run :=
  ((doLg2 r).bind (whileStage (fun stage => decide (4 < stage.toNat)) (macroRound aln))).bind
    (doMic aln)

/-- The run of one `MAC` command (R161). -/
def runMac (aln : Bool) (s : State) : Run := runCommand (checksOf (.mac aln)) (doMac aln) s

/-- `MAC` (R161). -/
def execMac (aln : Bool) (s : State) : Host.Outcome State Fault Refusal := (runMac aln s).outcome

/-- The run of one `MIC` command (R171). -/
def runMic (aln : Bool) (s : State) : Run := runCommand (checksOf (.mic aln)) (doMic aln) s

/-- `MIC` (R171). -/
def execMic (aln : Bool) (s : State) : Host.Outcome State Fault Refusal := (runMic aln s).outcome

/-- The run of one `XFV` command (R180). -/
def runXfv (aln : Bool) (s : State) : Run := runCommand (checksOf (.xfv aln)) (doXfv aln) s

/-- `XFV` (R180). -/
def execXfv (aln : Bool) (s : State) : Host.Outcome State Fault Refusal := (runXfv aln s).outcome

end Sys2Proof.Machine
end

