-- ==== Sys2Proof/Machine/Encode.lean ====
section
/-! DEFINITION. `ENS` and `ENV`: the whole encode, interleave then transform (R181 to R184). -/

namespace Sys2Proof.Machine

/-- The body of `ENS` (R182): `do_ILV()`, then `do_XFS()`; a `BUS_ERROR` ends it before any stage. -/
def doEns (r : Run) : Except Run Run := (doIlv r).bind doXfs

/-- The body of `ENV` (R183): `do_ILV()`, "the same scalar one in every variant", then `do_XFV(aln)`. -/
def doEnv (aln : Bool) (r : Run) : Except Run Run := (doIlv r).bind (doXfv aln)

/-- The run of one `ENS` command (R182). -/
def runEns (s : State) : Run := runCommand (checksOf .ens) doEns s

/-- `ENS` (R182). -/
def execEns (s : State) : Host.Outcome State Fault Refusal := (runEns s).outcome

/-- The run of one `ENV` command (R183). -/
def runEnv (aln : Bool) (s : State) : Run := runCommand (checksOf (.env aln)) (doEnv aln) s

/-- `ENV` (R183). -/
def execEnv (aln : Bool) (s : State) : Host.Outcome State Fault Refusal := (runEnv aln s).outcome

end Sys2Proof.Machine
end

