-- ==== Sys2Proof/Machine/Dispatch.lean ====
section
/-! DEFINITION. One arm per constructor of Instr: the meaning of each command. -/

namespace Sys2Proof.Machine

/-- What a legal command does to an engine that accepts it (R200): one direct call of its meaning. -/
def exec (i : Instr) (s : State) : Host.Outcome State Fault Refusal :=
  match i with
  | .lg2 => Sys2Proof.Machine.execLg2 s
  | .ilv => Sys2Proof.Machine.execIlv s
  | .bfs => Sys2Proof.Machine.execBfs s
  | .cpb => Sys2Proof.Machine.execCpb s
  | .upd => Sys2Proof.Machine.execUpd s
  | .mac aln => Sys2Proof.Machine.execMac aln s
  | .mic aln => Sys2Proof.Machine.execMic aln s
  | .xfs => Sys2Proof.Machine.execXfs s
  | .xfv aln => Sys2Proof.Machine.execXfv aln s
  | .ens => Sys2Proof.Machine.execEns s
  | .env aln => Sys2Proof.Machine.execEnv aln s

end Sys2Proof.Machine
end

