-- ==== Sys2Proof/Machine/Registers.lean ====
section
/-! DEFINITION. The register block: offsets (R20), what each register reads as (R39) and what a host
write to it does, `CMD` apart (R21 to R37). -/

namespace Sys2Proof.Machine

/-- The register at an aligned offset of the block; none at a reserved offset (R20). -/
def regAt (offset : Nat) : Option Reg :=
  match offset / 4 with
  | 0x0 => some .cmd
  | 0x1 => some .status
  | 0x2 => some .cause
  | 0x3 => some .finfo
  | 0x4 => some .ctrl
  | 0x5 => some .frameSize
  | 0x6 => some .frameBase
  | 0x7 => some .tempBase
  | 0x8 => some .maskBase
  | 0x9 => some .frozenBase
  | 0xA => some .infoBase
  | 0xB => some .stageCount
  | 0xC => some .stage
  | 0xD => some .frameHalf
  | 0xE => some .numBranches
  | 0xF => some .frozenIdx
  | 0x10 => some .infoIdx
  | _ => none

/-- The offset of a register (R20). -/
def Reg.offset : Reg → Nat
  | .cmd => 0x00
  | .status => 0x04
  | .cause => 0x08
  | .finfo => 0x0C
  | .ctrl => 0x10
  | .frameSize => 0x14
  | .frameBase => 0x18
  | .tempBase => 0x1C
  | .maskBase => 0x20
  | .frozenBase => 0x24
  | .infoBase => 0x28
  | .stageCount => 0x2C
  | .stage => 0x30
  | .frameHalf => 0x34
  | .numBranches => 0x38
  | .frozenIdx => 0x3C
  | .infoIdx => 0x40

/-- What a register holds, as the host reads it; `CMD` keeps no value and reads 0 (R21, R39). -/
def readReg (r : Reg) (s : State) : Word :=
  match r with
  | .cmd => 0
  | .status => s.status.word
  | .cause => BitVec.ofNat 32 s.cause.code
  | .finfo => s.finfo
  | .ctrl => s.ctrl.word
  | .frameSize => s.frameSize
  | .frameBase => s.frameBase
  | .tempBase => s.tempBase
  | .maskBase => s.maskBase
  | .frozenBase => s.frozenBase
  | .infoBase => s.infoBase
  | .stageCount => s.stageCount
  | .stage => s.stage
  | .frameHalf => s.frameHalf
  | .numBranches => s.numBranches
  | .frozenIdx => s.frozenIdx
  | .infoIdx => s.infoIdx

/-- A host write to a register other than `CMD` while the engine is not busy: the six operand registers
store it, `STATUS` and `CTRL` do what R22 and R25 say, a read-only register ignores it (R39). -/
def writeReg (r : Reg) (w : Word) (s : State) : State :=
  match r with
  | .cmd => s
  | .status => s.writeStatus w
  | .cause => s
  | .finfo => s
  | .ctrl => s.writeCtrl w
  | .frameSize => s.writeFrameSize w
  | .frameBase => { s with frameBase := w }
  | .tempBase => { s with tempBase := w }
  | .maskBase => { s with maskBase := w }
  | .frozenBase => { s with frozenBase := w }
  | .infoBase => { s with infoBase := w }
  | .stageCount => s
  | .stage => s
  | .frameHalf => s
  | .numBranches => s
  | .frozenIdx => s
  | .infoIdx => s

/-- The registers whose values the host reads while `BUSY = 1` are not specified (R244, U13). -/
def unspecifiedWhileBusy : Reg → Bool
  | .stageCount => true
  | .stage => true
  | .frameHalf => true
  | .numBranches => true
  | .frozenIdx => true
  | .infoIdx => true
  | .cmd => false
  | .status => false
  | .cause => false
  | .finfo => false
  | .ctrl => false
  | .frameSize => false
  | .frameBase => false
  | .tempBase => false
  | .maskBase => false
  | .frozenBase => false
  | .infoBase => false

/-- What the host reads while `BUSY = 1`: a free value in the six registers U13 names (log entry 9), `PV` as
the running command has it (R22), and every other register as at acceptance, since nothing can write it
(R41). -/
def readRegBusy (c : Running) (r : Reg) (s : State) : Word :=
  if unspecifiedWhileBusy r then Config.freeWord s.draws (r.offset + 5)
  else
    match r with
    | .status => Status.word { s.status with pv := c.pv s }
    | _ => readReg r s

/-- A read of a register, with the values drawn for it: nothing else changes (R39). `c` is the running
command, and matters only while `BUSY = 1`. -/
def observeReg (c : Running) (r : Reg) (s : State) : Word × State :=
  if s.status.busy then (readRegBusy c r s, { s with draws := s.draws + 1 }) else (readReg r s, s)

/-- Showing the host what a read gave (R97). -/
def State.show (line : Shown) (s : State) : State := { s with listing := line :: s.listing }

end Sys2Proof.Machine
end

