-- ==== Sys2Proof/Machine/HostPort.lean ====
section
/-! DEFINITION. What the host can do to the engine (R244): the register port with the `CMD` register
(R21, R39, R41, R200), the memory (R60, R74, R75) and the interrupt output (R220). -/

namespace Sys2Proof.Machine

/-- An accepted illegal word: `ILLEGAL_COMMAND` with `FINFO` = the word, and nothing else (R94, R204). -/
def rejectWord (w : Word) (s : State) : State := s.accept.raise .illegalCommand w.toNat

/-- A `CMD` write the engine accepts: a legal word runs its command, any other raises (R200). -/
def acceptWord (w : Word) (s : State) : Host.Outcome State Fault Refusal :=
  match decode w with
  | .ok i => exec i s
  | .error _ => .next (rejectWord w s)

/-- A host write to `CMD` (R21): ignored while `BUSY` or `ERR` is 1. -/
def submit (w : Word) (s : State) : Host.Outcome State Fault Refusal :=
  if s.ready then acceptWord w s else .next s

/-- Why a port access has no meaning: it is not one aligned 32-bit word (R39, U8; log entry 12), or it
lies outside the block of offsets 0x00 to 0xFF (R20; log entry 12). -/
def portRefusal (offset size : Nat) : Option Refusal :=
  if size ≠ 4 ∨ offset % 4 ≠ 0 then some (.portAccess offset size)
  else if 0xFF < offset then some (.outsideRegisterBlock offset)
  else none

/-- A host write to the register port: ignored while `BUSY = 1` (R41) and at a reserved offset (R39). -/
def portWrite (offset size : Nat) (w : Word) (s : State) : Host.Outcome State Fault Refusal :=
  match portRefusal offset size with
  | some why => .refused why
  | none =>
    if s.status.busy then .next s
    else
      match regAt offset with
      | none => .next s
      | some .cmd => submit w s
      | some r => .next (writeReg r w s)

/-- A host read of the register port: no side effect on the engine (R39); a reserved offset reads 0. -/
def portRead (c : Running) (offset size : Nat) (s : State) : Host.Outcome State Fault Refusal :=
  match portRefusal offset size with
  | some why => .refused why
  | none =>
    match regAt offset with
    | none => .next (s.show (.reg offset 0))
    | some r => .next ((observeReg c r s).2.show (.reg offset (observeReg c r s).1))

/-- The host writes bytes to `M` (R60, R97): a byte that does not exist faults; a window of the running
command is a race (R75; log entry 11). -/
def hostMemWrite (c : Running) (addr : Nat) (bytes : List Byte) (s : State) :
    Host.Outcome State Fault Refusal :=
  if s.memSize < addr + bytes.length then .fault (.hostOutsideMemory addr)
  else if s.status.busy && (List.range bytes.length).any (fun k => s.writeRaces c.use (addr + k)) then
    .refused (.windowRace addr)
  else .next { s with mem := Memory.writeBytes s.mem addr bytes }

/-- The host reads a byte of `M` (R60, R74): as `hostMemWrite`, for the windows R75 forbids to read. -/
def hostMemRead (addr : Nat) (s : State) : Host.Outcome State Fault Refusal :=
  if s.memSize ≤ addr then .fault (.hostOutsideMemory addr)
  else if s.status.busy && s.readRaces addr then .refused (.windowRace addr)
  else .next (s.show (.byte addr (Memory.read s.mem addr)))

/-- One access of the host. `c` is the running command; it matters only while `BUSY = 1`. -/
def hostAccess (c : Running) (a : HostAccess) (s : State) : Host.Outcome State Fault Refusal :=
  match a with
  | .write offset size w => portWrite offset size w s
  | .read offset size => portRead c offset size s
  | .memWrite addr bytes => hostMemWrite c addr bytes s
  | .memRead addr => hostMemRead addr s
  | .senseIrq => .next (s.show (.irq s.irq))

/-- Going on from an outcome, if it is a next state. -/
def andThen (o : Host.Outcome State Fault Refusal)
    (k : State → Host.Outcome State Fault Refusal) : Host.Outcome State Fault Refusal :=
  match o with
  | .next s => k s
  | .fault f => .fault f
  | .refused r => .refused r

/-- Several accesses of the host, in order. -/
def hostAccesses : Running → List HostAccess → State → Host.Outcome State Fault Refusal
  | _, [], s => .next s
  | c, a :: rest, s => andThen (hostAccess c a s) (hostAccesses c.later rest)

end Sys2Proof.Machine
end

