-- ==== Sys2Proof/Machine/HostScript.lean ====
section
/-! DEFINITION. The host script (R97, R98): one move of the host, the pseudo-instructions, and a command
during which the host acts (R244) or applies hard reset (R242). -/

namespace Sys2Proof.Machine

/-! ## A hard reset during a command (R242) -/

/-- The run of a command from its acceptance, for the bytes it stores. -/
def runOf (i : Instr) (s : State) : Run :=
  match i with
  | .lg2 => runLg2 s
  | .ilv => runIlv s
  | .bfs => runBfs s
  | .cpb => runCpb s
  | .upd => runUpd s
  | .mac aln => runMac aln s
  | .mic aln => runMic aln s
  | .xfs => runXfs s
  | .xfv aln => runXfv aln s
  | .ens => runEns s
  | .env aln => runEnv aln s

/-- The values the command's sequential execution writes to an address, latest first. -/
def valuesAt (log : List Host.Cell) (a : Nat) : List Byte :=
  (log.filter fun c => c.1 == a).map fun c => c.2

/-- What a byte holds after a hard reset during the command (R242): `none` is its value at acceptance,
`some b` one of the values written there; which, per byte, is free. -/
def tornByte (draw : Nat) (log : List Host.Cell) (a : Nat) : Option Byte :=
  let values := valuesAt log a
  (none :: values.map some).getD (Config.freeChoice draw a % (values.length + 1)) none

/-- `M` after a hard reset during a command: each byte the command would have stored to holds its value
at acceptance or a value written there; every other byte is as it was (R242). Log entry 10. -/
def tornMemory (draw : Nat) (log : List Host.Cell) (m : Memory) : Memory :=
  log.foldl
    (fun m c =>
      match tornByte draw log c.1 with
      | none => m
      | some b => Memory.write m c.1 b) m

/-- The command of a word, if it is legal. -/
def commandOf (w : Word) : Option Instr :=
  match decode w with
  | .ok i => some i
  | .error _ => none

/-- The command of a word as the host can notice it from its acceptance on; an illegal word uses no window
and leaves `PV` as it is (R65, R204). Log entry 25. -/
def runningCommand (w : Word) (s : State) : Running :=
  match commandOf w with
  | some i =>
    { use := buffersOf i s.frameLength
      pvAfter := (runOf i s).st.status.pv
      pvSetAt := Config.freePoint s.draws }
  | none =>
    { use := { mask := false, frozen := false, info := false, temp := false, frame := false }
      pvAfter := s.status.pv
      pvSetAt := Config.freePoint s.draws }

/-- Hard reset while the command of a word runs (R242). -/
def resetDuring (w : Word) (s : State) : State :=
  match commandOf w with
  | some i => { s.resetRegisters with mem := tornMemory s.draws (runOf i s).log s.mem }
  | none => s.resetRegisters

/-- A `CMD` write, the host's accesses while the command runs, and either the command's completion or
hard reset before it (R242, R244). A word the engine does not accept is ignored, and the accesses then
reach an idle engine. -/
def commandDuring (w : Word) (during : List HostAccess) (hardReset : Bool) (s : State) :
    Host.Outcome State Fault Refusal :=
  if s.ready then
    andThen (hostAccesses (runningCommand w s.accept) during s.accept) fun s =>
      if hardReset then .next (resetDuring w s) else acceptWord w s
  else
    andThen (hostAccesses .unknown during s) fun s =>
      if hardReset then .next s.resetRegisters else .next s

/-! ## The pseudo-instructions (R98) -/

/-- `wr REG, value` (R97). -/
def wr (r : Reg) (w : Word) : HostMove := .access (.write r.offset 4 w)

/-- A command statement (R97): the command's word written to `CMD`. The wait for `BUSY = 0` that follows
is over at once, since a command is one step (R74). -/
def command (i : Instr) : HostMove := wr .cmd (encode i)

/-- The command an `encode` pseudo-instruction ends in (R98). -/
def encodeCommand : EncodeVariant → Instr
  | .s => .ens
  | .v => .env false
  | .va => .env true

/-- Putting moves before the rest of the script. -/
def State.push (moves : List HostMove) (s : State) : State := { s with script := moves ++ s.script }

/-- The host reads `STAGE` (R98 "while `rd STAGE`") and goes on by its value. Log entry 8. -/
def onStage (next : Nat → List HostMove) (s : State) : State :=
  let seen := observeReg .unknown .stage s
  (seen.2.show (.reg Reg.stage.offset seen.1)).push (next seen.1.toNat)

/-- One move of the host, its entry taken off the script. -/
def hostMove (m : HostMove) (s : State) : Host.Outcome State Fault Refusal :=
  match m with
  | .access a => hostAccess .unknown a s
  | .commandDuring w during hardReset => commandDuring w during hardReset s
  | .hardReset => .next s.resetRegisters
  | .encode variant frame temp mask frozen info n =>
    .next (s.push [wr .frameBase frame, wr .tempBase temp, wr .maskBase mask, wr .frozenBase frozen,
      wr .infoBase info, wr .frameSize n, command (encodeCommand variant)])
  | .xfsSteps => .next (s.push [command .lg2, .xfsLoop])
  | .xfsLoop =>
    .next (onStage (fun stage =>
      if stage ≠ 0 then [command .bfs, command .cpb, command .upd, .xfsLoop] else []) s)
  | .xfvSteps => .next (s.push [command .lg2, .xfvLoop])
  | .xfvLoop =>
    .next (onStage (fun stage =>
      if 4 < stage then [command (.mac false), command .cpb, command .upd, .xfvLoop]
      else [command (.mic false)]) s)

/-- One step of the machine: the host's next move; with none the engine is idle and keeps its state
(R233). -/
def nextMove (s : State) : Host.Outcome State Fault Refusal :=
  match s.script with
  | [] => .next s
  | m :: rest => hostMove m { s with script := rest }

/-- The state in which the next step is the `CMD` write of a word: that write is the host's next move,
and the engine is neither busy nor in error, so that it accepts the write (R21). Log entry 13. -/
def State.withCommand (s : State) (w : Word) : State :=
  { s with
    status := { s.status with busy := false, err := false }
    script := wr .cmd w :: s.script }

end Sys2Proof.Machine
end

