-- ==== Sys2Proof/Machine/Step.lean ====
section
/-! DEFINITION. One step of the machine, and the state whose next step runs a given command. -/

namespace Sys2Proof.Machine

/-- One step: the host's next move (R40: "the host chooses the next command"; R233). -/
def step (s : State) : Host.Outcome State Fault Refusal := nextMove s

/-- `s` with the `CMD` write of that word as its next move. A command is one 32-bit word (R90). Log
entry 13. -/
def State.withFetchWord (s : State) (_nbits w : Nat) : State := s.withCommand (BitVec.ofNat 32 w)

end Sys2Proof.Machine
end

