-- ==== Sys2Proof/Safety.lean ====
section
/-! DEFINITION. The terms claims are stated in: the buffers as the host sees them, the contract of a
command (R214), what a fault leaves (R223), what completion leaves unchanged, the invariant of the
machine between steps, and what the rules say a stage, a whole transform and an interleave compute. -/

namespace Sys2Proof.Machine

/-! ## The buffers of a state -/

/-- Symbol i of the working buffer, `TEMP[i]` (R15). -/
def State.temp (s : State) (i : Nat) : Byte := Memory.read s.mem (s.tempAddr i)

/-- Symbol i of the output buffer, `FRAME[i]` (R15). -/
def State.frame (s : State) (i : Nat) : Byte := Memory.read s.mem (s.frameAddr i)

/-- Frozen value i, `FROZEN[i]` (R15). -/
def State.frozen (s : State) (i : Nat) : Byte := Memory.read s.mem (s.frozenAddr i)

/-- Info value i, `INFO[i]` (R15). -/
def State.info (s : State) (i : Nat) : Byte := Memory.read s.mem (s.infoAddr i)

/-- Address a lies in the window of `n` bytes at `base` (R61). -/
def InWindow (base : Word) (n a : Nat) : Prop := base.toNat ≤ a ∧ a < base.toNat + n

/-- Two windows share no address. -/
def Apart (base₁ : Word) (n₁ : Nat) (base₂ : Word) (n₂ : Nat) : Prop :=
  base₁.toNat + n₁ ≤ base₂.toNat ∨ base₂.toNat + n₂ ≤ base₁.toNat

/-! ## The conditions the checks stand for (R205 to R210) -/

/-- A legal frame size: one of the powers of two 2^0 .. 2^31 (R26, R205). -/
def State.SizeLegal (s : State) : Prop := ∃ p, p ≤ 31 ∧ s.frameLength = 2 ^ p

/-- The window of N bytes at the base lies in `M` (R209). -/
def State.Fits (s : State) (base : Word) : Prop := base.toNat + s.frameLength ≤ s.memSize

/-- `TEMP` and `FRAME` share no address (R63, R210). -/
def State.TempFrameApart (s : State) : Prop :=
  Apart s.tempBase s.frameLength s.frameBase s.frameLength

/-- With `ALN` set both bases are multiples of 16 (R208). -/
def State.AlignedIf (s : State) (aln : Bool) : Prop :=
  aln = true → s.tempBase.toNat % 16 = 0 ∧ s.frameBase.toNat % 16 = 0

/-- What `BFS`, `CPB` and `XFS` need of the operands: a legal size, both windows in `M`, disjoint. -/
def State.ScalarContract (s : State) : Prop :=
  s.SizeLegal ∧ s.Fits s.tempBase ∧ s.Fits s.frameBase ∧ s.TempFrameApart

/-! ## The checks a command applies, in the words of R205 to R210 and the rows of R212 -/

/-- The commands that use the `TEMP` window: all but `LG2` and `UPD` (R212). -/
def usesTemp : Instr → Bool
  | .lg2 => false
  | .ilv => true
  | .bfs => true
  | .cpb => true
  | .upd => false
  | .mac _ => true
  | .mic _ => true
  | .xfs => true
  | .xfv _ => true
  | .ens => true
  | .env _ => true

/-- The commands that use the `FRAME` window (R212). -/
def usesFrame : Instr → Bool
  | .lg2 => false
  | .ilv => false
  | .bfs => true
  | .cpb => true
  | .upd => false
  | .mac _ => true
  | .mic _ => true
  | .xfs => true
  | .xfv _ => true
  | .ens => true
  | .env _ => true

/-- The commands that use the `MASK` window: those that interleave (R212). -/
def usesMask : Instr → Bool
  | .lg2 => false
  | .ilv => true
  | .bfs => false
  | .cpb => false
  | .upd => false
  | .mac _ => false
  | .mic _ => false
  | .xfs => false
  | .xfv _ => false
  | .ens => true
  | .env _ => true

/-- The commands that write the `TEMP` window (R65, the column `TEMP`). -/
def writesTemp : Instr → Bool
  | .lg2 => false
  | .ilv => true
  | .bfs => false
  | .cpb => true
  | .upd => false
  | .mac _ => false
  | .mic _ => false
  | .xfs => true
  | .xfv _ => true
  | .ens => true
  | .env _ => true

/-- The commands that write the `FRAME` window (R65, the column `FRAME`). -/
def writesFrame : Instr → Bool
  | .lg2 => false
  | .ilv => false
  | .bfs => true
  | .cpb => false
  | .upd => false
  | .mac _ => true
  | .mic _ => true
  | .xfs => true
  | .xfv _ => true
  | .ens => true
  | .env _ => true

/-- The commands that set `PV`: `LG2`, and those with an internal `LG2` (R22). -/
def setsPv : Instr → Bool
  | .lg2 => true
  | .ilv => false
  | .bfs => false
  | .cpb => false
  | .upd => false
  | .mac _ => false
  | .mic _ => false
  | .xfs => true
  | .xfv _ => true
  | .ens => true
  | .env _ => true

/-- `FRAME_SIZE` holds 0 or a value that is not a power of two, as R205 tests it. -/
def State.SizeBad (s : State) : Prop := s.frameSize = 0 ∨ s.frameSize &&& (s.frameSize - 1) ≠ 0

/-- The size check passes: every command but `UPD` applies it (R205). -/
def SizePasses (i : Instr) (s : State) : Prop := i ≠ .upd → ¬ s.SizeBad

/-- The minimum-size check passes: the format V commands apply it (R206). -/
def MinimumPasses (i : Instr) (s : State) : Prop := opTakesFlag i.op = true → 16 ≤ s.frameLength

/-- The stage check passes: the condition of each step command on `PV` and `STAGE` (R207). -/
def StagePasses (i : Instr) (s : State) : Prop :=
  match i with
  | .lg2 => True
  | .ilv => True
  | .bfs => s.status.pv = true ∧ 1 ≤ s.stage.toNat
  | .cpb => True
  | .upd => s.status.pv = true ∧ 1 ≤ s.stage.toNat
  | .mac _ => s.status.pv = true ∧ 5 ≤ s.stage.toNat
  | .mic _ => s.status.pv = true ∧ s.stage.toNat = 4
  | .xfs => True
  | .xfv _ => True
  | .ens => True
  | .env _ => True

/-- The range check passes for the windows the command uses (R209). -/
def RangePasses (i : Instr) (s : State) : Prop :=
  (usesTemp i = true → s.Fits s.tempBase) ∧ (usesFrame i = true → s.Fits s.frameBase)
    ∧ (usesMask i = true → s.Fits s.maskBase)

/-- The overlap check passes: the commands that use both `TEMP` and `FRAME` apply it (R63, R210). -/
def OverlapPasses (i : Instr) (s : State) : Prop :=
  usesTemp i = true → usesFrame i = true → s.TempFrameApart

/-- No check of the command fails (R203, R212). -/
def PassesChecks (i : Instr) (s : State) : Prop :=
  SizePasses i s ∧ MinimumPasses i s ∧ StagePasses i s ∧ s.AlignedIf i.flag ∧ RangePasses i s
    ∧ OverlapPasses i s

/-! ## What the interleaver reads -/

/-- Where position k's value is read when `M` holds m and f frozen values are consumed (R121). -/
def State.sourceAddr (s : State) (m : Nat → Byte) (f k : Nat) : Nat :=
  if m (s.maskAddr k) ≠ 0 then s.frozenAddr f else s.infoAddr (k - f)

/-- The walk of R121 over the first positions, whatever overlaps what: the contents of `M` and the
number of frozen values consumed, or none if a value's address is outside `M`. -/
def State.walk (s : State) : Nat → Option ((Nat → Byte) × Nat)
  | 0 => some (Memory.read s.mem, 0)
  | k + 1 =>
    match s.walk k with
    | none => none
    | some (m, f) =>
      if s.sourceAddr m f k < s.memSize then
        some (fun a => if a = s.tempAddr k then m (s.sourceAddr m f k) else m a,
          if m (s.maskAddr k) ≠ 0 then f + 1 else f)
      else none

/-- Where position i's value is read (R121, R126): the next `FROZEN` byte where the mask byte is
non-zero, the next `INFO` byte elsewhere. -/
def State.valueAddr (s : State) (i : Nat) : Nat :=
  if s.mask i ≠ 0 then s.frozenAddr (s.frozenBefore i) else s.infoAddr (i - s.frozenBefore i)

/-- The value of position i: `FROZEN[c1(i)]` where the mask byte is non-zero, `INFO[c0(i)]` elsewhere
(R126). -/
def State.interleaved (s : State) (i : Nat) : Byte :=
  if s.mask i ≠ 0 then s.frozen (s.frozenBefore i) else s.info (i - s.frozenBefore i)

/-- Every read of `FROZEN` and `INFO` at the positions below k is in `M` (R123, R211). -/
def State.ValuesInside (s : State) (k : Nat) : Prop := ∀ i, i < k → s.valueAddr i < s.memSize

/-- `TEMP` overlaps neither `MASK` nor the bytes of `FROZEN` and `INFO` read at the positions below k
(R126, R213). -/
def State.InputsApart (s : State) (k : Nat) : Prop :=
  Apart s.tempBase s.frameLength s.maskBase s.frameLength
    ∧ ∀ i, i < k → ¬ InWindow s.tempBase s.frameLength (s.valueAddr i)

/-! ## What a command leaves -/

/-- The state after a fault that is precise: `STATUS`, `CAUSE` and `FINFO` say it, and everything else is
the state at acceptance (R201, R223). -/
def State.faulted (c : Cause) (info : Word) (s : State) : State :=
  { s with
    status := { busy := false, done := false, err := true, pv := s.status.pv }
    cause := c
    finfo := info }

/-- The flags and fault registers of a command that ended well: `BUSY` 0, `DONE` 1, `ERR` 0 (R200). -/
def EndedWell (s t : State) : Prop :=
  t.status.busy = false ∧ t.status.done = true ∧ t.status.err = false
    ∧ t.cause = s.cause ∧ t.finfo = s.finfo

/-- The registers no command writes: the operand registers, `CTRL` (R26 to R31); and what is no register
of the engine, the size of `M`, the host's script and listing. -/
def SameOperands (s t : State) : Prop :=
  t.frameSize = s.frameSize ∧ t.frameBase = s.frameBase ∧ t.tempBase = s.tempBase
    ∧ t.maskBase = s.maskBase ∧ t.frozenBase = s.frozenBase ∧ t.infoBase = s.infoBase
    ∧ t.ctrl = s.ctrl ∧ t.memTop = s.memTop ∧ t.script = s.script ∧ t.listing = s.listing

/-- The stage-parameter registers and `PV`. -/
def SameStages (s t : State) : Prop :=
  t.stageCount = s.stageCount ∧ t.stage = s.stage ∧ t.frameHalf = s.frameHalf
    ∧ t.numBranches = s.numBranches ∧ t.status.pv = s.status.pv

/-- The interleaver's index registers. -/
def SameIndices (s t : State) : Prop := t.frozenIdx = s.frozenIdx ∧ t.infoIdx = s.infoIdx

/-- Every byte of `M` reads as before. -/
def SameMemory (s t : State) : Prop := ∀ a, Memory.read t.mem a = Memory.read s.mem a

/-- Every byte of `M` outside the window of N bytes at the base reads as before. -/
def SameMemoryOutside (s t : State) (base : Word) : Prop :=
  ∀ a, ¬ InWindow base s.frameLength a → Memory.read t.mem a = Memory.read s.mem a

/-- Every byte of `M` outside the `TEMP` and `FRAME` windows reads as before. -/
def SameMemoryOutsideBoth (s t : State) : Prop :=
  ∀ a, ¬ InWindow s.tempBase s.frameLength a → ¬ InWindow s.frameBase s.frameLength a →
    Memory.read t.mem a = Memory.read s.mem a

/-- Equal in everything the host can see but `TEMP`: all registers and every byte of `M` outside the
`TEMP` window (R185). -/
def EqualButTemp (s t : State) : Prop :=
  t.status = s.status ∧ t.cause = s.cause ∧ t.finfo = s.finfo
    ∧ t.stageCount = s.stageCount ∧ t.stage = s.stage ∧ t.frameHalf = s.frameHalf
    ∧ t.numBranches = s.numBranches ∧ SameOperands s t ∧ SameIndices s t
    ∧ SameMemoryOutside s t s.tempBase

/-- Equal in everything the host can see: all registers and every byte of `M`. -/
def HostEqual (s t : State) : Prop :=
  t.status = s.status ∧ t.cause = s.cause ∧ t.finfo = s.finfo
    ∧ t.stageCount = s.stageCount ∧ t.stage = s.stage ∧ t.frameHalf = s.frameHalf
    ∧ t.numBranches = s.numBranches ∧ SameOperands s t ∧ SameIndices s t ∧ SameMemory s t

/-- The stage parameters at the end of a transform: `STAGE_COUNT = n`, `STAGE = 0`, `FRAME_HALF = 0`,
`NUM_BRANCHES = N`, `PV = 1` (R133, R180). -/
def StagesFinished (n : Nat) (t : State) : Prop :=
  t.stageCount.toNat = n ∧ t.stage = 0 ∧ t.frameHalf = 0 ∧ t.numBranches = t.frameSize
    ∧ t.status.pv = true

/-! ## The invariant -/

/-- While `PV = 1` the stage parameters are those of the present `FRAME_SIZE`: `FRAME_SIZE =
2^STAGE_COUNT`, `NUM_BRANCHES = 2^(STAGE_COUNT - STAGE)`, `FRAME_HALF = 2^(STAGE-1)`, or 0 at
`STAGE = 0` (R34, R35, R38). -/
def State.StageParams (s : State) : Prop :=
  s.status.pv = true →
    s.stageCount.toNat ≤ 31
      ∧ s.frameLength = 2 ^ s.stageCount.toNat
      ∧ s.stage.toNat ≤ s.stageCount.toNat
      ∧ s.numBranches.toNat = 2 ^ (s.stageCount.toNat - s.stage.toNat)
      ∧ s.frameHalf.toNat = (if s.stage.toNat = 0 then 0 else 2 ^ (s.stage.toNat - 1))

/-- What holds of the machine between steps. -/
structure State.Inv (s : State) : Prop where
  /-- A command is one step, so none is running (R74, R200). -/
  notBusy : s.status.busy = false
  /-- `ERR` and `CAUSE` tell the same story (R23, R201). -/
  errHasCause : s.status.err = true ↔ s.cause ≠ .none
  /-- "A faulted engine is never done" (R201). -/
  errNotDone : s.status.err = true → s.status.done = false
  /-- `FINFO` is written only by a fault and by reset (R24). -/
  infoNeedsCause : s.cause = .none → s.finfo = 0
  /-- The stage parameters (R38). -/
  stageParams : s.StageParams
  /-- The ranges of R32 and R33. -/
  stageRange : s.stageCount.toNat ≤ 31 ∧ s.stage.toNat ≤ 31
  /-- The two indices together count at most one frame (R36, R37, R118). -/
  indexRange : s.frozenIdx.toNat + s.infoIdx.toNat ≤ 2 ^ 31
  /-- `M` keeps its canonical form. -/
  memForm : Memory.wf s.mem = true
  /-- Only bytes that exist have been written (R60). -/
  memInside : ∀ c ∈ s.mem, c.1 < s.memSize

/-! ## What the rules say is computed -/

/-- One scalar stage with half span `fh`, output position j from the inputs u (R130, R131): in the first
half of its branch the XOR of a pair, in the second half the pair's odd symbol. -/
def stageOutput (fh : Nat) (u : Nat → Byte) (j : Nat) : Byte :=
  let base := j / (2 * fh) * (2 * fh)
  let i := j % (2 * fh)
  if i < fh then u (base + 2 * i) ^^^ u (base + 2 * i + 1)
  else u (base + 2 * (i - fh) + 1)

/-- S_k(u), the output of the first k scalar stages of a frame of 2^n symbols (R186); stage number k
(from 0) has `FRAME_HALF = 2^(n-1-k)` (R114). -/
def afterStages (n : Nat) (u : Nat → Byte) : Nat → Nat → Byte
  | 0 => u
  | k + 1 => stageOutput (2 ^ (n - 1 - k)) (afterStages n u k)

/-- rev_n(i): i with its n-bit binary representation reversed (R136). -/
def reverseBits : Nat → Nat → Nat
  | 0, _ => 0
  | n + 1, i => i % 2 * 2 ^ n + reverseBits n (i / 2)

/-- XOR of several bytes. -/
def xorAll (bytes : List Byte) : Byte := bytes.foldr (fun a b => a ^^^ b) 0

/-- The closed form of the transform (R136): x[j] is the XOR of u[i] over all i in 0 .. N-1 with
`(rev_n(i) & j) = j`. -/
def transformed (n : Nat) (u : Nat → Byte) (j : Nat) : Byte :=
  xorAll (((List.range (2 ^ n)).filter fun i => reverseBits n i &&& j == j).map u)

/-! ## The host while a command runs -/

/-- A window the command uses holds the address (R61, R65): `FRAME` not at all where `XFS` or `ENS` runs on
one symbol; `FROZEN` and `INFO` as long as `frozenWindow` and `infoWindow` say. -/
def Used (i : Instr) (s : State) (a : Nat) : Prop :=
  (usesTemp i = true ∧ InWindow s.tempBase s.frameLength a)
    ∨ (usesFrame i = true ∧ ¬ (s.frameLength = 1 ∧ (i = .xfs ∨ i = .ens))
        ∧ InWindow s.frameBase s.frameLength a)
    ∨ (usesMask i = true ∧ (InWindow s.maskBase s.frameLength a
        ∨ InWindow s.frozenBase s.frozenWindow a ∨ InWindow s.infoBase s.infoWindow a))

/-- The host may make the access while the command runs: an aligned 32-bit access of the register block
(R39); a write to bytes of `M` in no window the command uses; a read of a byte of `M` in neither `TEMP` nor
`FRAME` (R75); a look at `irq`. -/
def Permitted (i : Instr) (s : State) : HostAccess → Prop
  | .write offset size _ => offset % 4 = 0 ∧ offset ≤ 0xFF ∧ size = 4
  | .read offset size => offset % 4 = 0 ∧ offset ≤ 0xFF ∧ size = 4
  | .memWrite addr bytes =>
    addr + bytes.length ≤ s.memSize ∧ ∀ k, k < bytes.length → ¬ Used i s (addr + k)
  | .memRead addr =>
    addr < s.memSize ∧ ¬ InWindow s.tempBase s.frameLength addr
      ∧ ¬ InWindow s.frameBase s.frameLength addr
  | .senseIrq => True

/-- `M` after the host's own writes. -/
def hostWrites : List HostAccess → Memory → Memory
  | [], m => m
  | .memWrite addr bytes :: rest, m => hostWrites rest (Memory.writeBytes m addr bytes)
  | .write _ _ _ :: rest, m => hostWrites rest m
  | .read _ _ :: rest, m => hostWrites rest m
  | .memRead _ :: rest, m => hostWrites rest m
  | .senseIrq :: rest, m => hostWrites rest m

/-- The host writes a byte at the address. -/
def HostWrote (l : List HostAccess) (a : Nat) : Prop :=
  ∃ addr bytes, HostAccess.memWrite addr bytes ∈ l ∧ addr ≤ a ∧ a < addr + bytes.length

/-- Every host-visible register reads the same. -/
def SameRegisters (s t : State) : Prop := ∀ r, readReg r t = readReg r s

/-! ## Sequences of commands, and resets -/

/-- An access that resets: a `CTRL` write with `SRST` set (R241). -/
def HostAccess.resets : HostAccess → Bool
  | .write offset _ w => offset == 0x10 && w.getLsbD 31
  | .read _ _ => false
  | .memWrite _ _ => false
  | .memRead _ => false
  | .senseIrq => false

/-- A move of the host that contains a reset, soft (R241) or hard (R240, R242). -/
def HostMove.resets : HostMove → Bool
  | .access a => a.resets
  | .commandDuring _ during reset => reset || during.any HostAccess.resets
  | .hardReset => true
  | .encode _ _ _ _ _ _ _ => false
  | .xfsSteps => false
  | .xfsLoop => false
  | .xfvSteps => false
  | .xfvLoop => false

/-- Every host-visible register at its reset value 0 (R50). -/
def State.RegistersReset (s : State) : Prop := ∀ r, readReg r s = 0

/-- The host writes the words of several commands to `CMD`, one after the other (R97). -/
def submitAll : List Instr → State → Host.Outcome State Fault Refusal
  | [], s => .next s
  | i :: rest, s => andThen (submit (encode i) s) (submitAll rest)

/-- One round of the scalar path: `bfs`, `cpb`, `upd` (R98). -/
def scalarRoundCommands : List Instr := [.bfs, .cpb, .upd]

/-- A list repeated. -/
def repeated (k : Nat) (l : List Instr) : List Instr := (List.replicate k l).flatten

end Sys2Proof.Machine
end

