-- ==== Sys2Proof/Certificates/Slice0/Obligations.lean ====
section
/-! DEFINITION. The statements for the provers. Conventions: `s.ready = true` says that the engine
accepts a command (R21); a completion statement has the form "there is a t with `exec i s = .next t`" and
says what t holds; nothing is claimed of the internal registers (R45, R46) and of `draws`, which no host
access can see. The frame of a command is said by `SameOperands` (operand registers, `CTRL`, the size of
`M`, the host's script and listing), `SameStages`, `SameIndices` and the memory clause. -/

open Sys2Proof Sys2Proof.Machine

/-! ## Encoding -/

/-- R91: the exact words of the commands decode to them, and every reserved `OP` is refused. -/
def Obligations.ExactCommandWords : Prop :=
  (decode 0x00000001 = .ok .lg2 ∧ decode 0x00000002 = .ok .ilv ∧ decode 0x00000003 = .ok .bfs
    ∧ decode 0x00000004 = .ok .cpb ∧ decode 0x00000005 = .ok .upd
    ∧ decode 0x00000006 = .ok (.mac false) ∧ decode 0x00000016 = .ok (.mac true)
    ∧ decode 0x00000007 = .ok (.mic false) ∧ decode 0x00000017 = .ok (.mic true)
    ∧ decode 0x00000008 = .ok .xfs
    ∧ decode 0x00000009 = .ok (.xfv false) ∧ decode 0x00000019 = .ok (.xfv true)
    ∧ decode 0x0000000A = .ok .ens
    ∧ decode 0x0000000B = .ok (.env false) ∧ decode 0x0000001B = .ok (.env true))
  ∧ ∀ w i, (w.toNat % 16 = 0 ∨ 0xC ≤ w.toNat % 16) → decode w ≠ .ok i

/-- R90, R91, R95: decoding and encoding agree in both directions, for every instruction and every
32-bit word. -/
def Obligations.DecodeEncodeAgree : Prop :=
  (∀ i : Instr, i.WellFormed = true → decode (encode i) = .ok i)
  ∧ ∀ (w : Word) (i : Instr), decode w = .ok i → encode i = w ∧ i.WellFormed = true

/-- R95: what `decode` answers on any word, by its fields: a command exactly when bits 31:5 are 0, `OP` is
that command's number and bit 4 is its flag (which is 0 for format S). -/
def Obligations.DecodeReadsFields : Prop :=
  ∀ (w : Word) (i : Instr),
    decode w = .ok i ↔
      w.extractLsb' 5 27 = 0 ∧ (w.extractLsb' 0 4).toNat = i.op ∧ w.getLsbD 4 = i.flag

/-- R94: a word is legal exactly when (a) `OP` is 0x1 .. 0xB, (b) bits 31:5 are 0 and (c) bit 4 is 0 if the
command is of format S; an accepted word that is not legal raises `ILLEGAL_COMMAND` with `FINFO` = the word
and has no other effect. -/
def Obligations.LegalWordsExactly : Prop :=
  ∀ w : Word,
    let legal : Prop :=
      (1 ≤ (w.extractLsb' 0 4).toNat ∧ (w.extractLsb' 0 4).toNat ≤ 0xB) ∧ w.extractLsb' 5 27 = 0
        ∧ ((w.extractLsb' 0 4).toNat ∈ [0x1, 0x2, 0x3, 0x4, 0x5, 0x8, 0xA] → w.getLsbD 4 = false)
    ((∃ i, decode w = .ok i) ↔ legal)
      ∧ ∀ s : State, s.ready = true → ¬ legal →
          submit w s = .next (s.faulted .illegalCommand w)

/-- The step runs the decoded command: when the host's next move is the `CMD` write of a word that
decodes to i and the engine is ready, the step is `exec i` with that move taken off the script. The script is
the model's own (log entry 7, DESIGN CHOICE), and so is the second clause: `withFetchWord` makes any word that
next move and clears `BUSY` and `ERR` (log entry 13, DESIGN CHOICE). -/
def Obligations.StepRunsDecodedCommand : Prop :=
  (∀ (s : State) (w : Word) (i : Instr) (rest : List HostMove),
    s.script = wr .cmd w :: rest → s.ready = true → decode w = .ok i →
      step s = exec i { s with script := rest })
  ∧ ∀ (s : State) (nbits w : Nat) (i : Instr),
      decode (BitVec.ofNat 32 w) = .ok i →
        step (s.withFetchWord nbits w)
          = exec i { s with status := { s.status with busy := false, err := false } }

/-! ## The register block -/

/-- R21: a `CMD` write is accepted when neither `BUSY` nor `ERR` is 1 and starts the command of the word;
otherwise nothing changes; `CMD` reads 0. -/
def Obligations.CommandRegister : Prop :=
  ∀ (s : State) (w : Word),
    ((s.status.busy = true ∨ s.status.err = true) → portWrite 0x00 4 w s = .next s)
    ∧ (s.status.busy = false → s.status.err = false →
        (∀ i, decode w = .ok i → portWrite 0x00 4 w s = exec i s)
        ∧ ((∀ i, decode w ≠ .ok i) →
            portWrite 0x00 4 w s = .next (s.faulted .illegalCommand w)))
    ∧ readReg .cmd s = 0

/-- R39: a read changes nothing but what the host has been shown (and, while busy, the model's counter of
free values); `CMD`, a reserved offset and the reserved bits of `STATUS`, `CAUSE` and `CTRL` read 0; a write
to a read-only register, a reserved offset or reserved bits is ignored; any access that is not one aligned
32-bit word is refused. -/
def Obligations.RegisterAccessRules : Prop :=
  ∀ (s : State) (c : Running),
    (∀ offset, offset % 4 = 0 → offset ≤ 0xFF →
      ∃ (v : Word) (d : Nat),
        portRead c offset 4 s = .next { s with listing := .reg offset v :: s.listing, draws := d }
          ∧ (s.status.busy = false → d = s.draws)
          ∧ ((offset = 0x00 ∨ 0x44 ≤ offset) → v = 0)
          ∧ ((offset = 0x04 ∨ offset = 0x08) → v.extractLsb' 4 28 = 0)
          ∧ (offset = 0x10 → v.extractLsb' 2 30 = 0))
    ∧ (∀ offset w, offset % 4 = 0 → offset ≤ 0xFF →
        (offset = 0x08 ∨ offset = 0x0C ∨ 0x2C ≤ offset) → portWrite offset 4 w s = .next s)
    ∧ (∀ w : Word, portWrite 0x04 4 w s = portWrite 0x04 4 (w &&& 0x2) s)
    ∧ (∀ w : Word, portWrite 0x10 4 w s = portWrite 0x10 4 (w &&& 0x80000003) s)
    ∧ ∀ offset size w, (size ≠ 4 ∨ offset % 4 ≠ 0) →
        portWrite offset size w s = .refused (.portAccess offset size)
          ∧ portRead c offset size s = .refused (.portAccess offset size)

/-- What a port read shows (R20 to R37, R202). While not busy: the register of R20 at its offset. While busy:
`STATUS` with `BUSY` = 1, `DONE` = 0, `ERR` = 0 and, whatever the point `k` at which the command writes it, a `PV`
that is 1 if it was 1 at acceptance and stays 0 in a command that does not set it (R22, R244; log entry 25,
DEDUCED); `CAUSE`, `FINFO`, `CTRL` and the operand registers as they stand (R41). Nothing else changes but the
listing and the model's counter of draws. -/
def Obligations.RegisterReads : Prop :=
  (∀ (s : State) (c : Running), s.status.busy = false →
    let shows (offset : Nat) (v : Word) : Prop :=
      portRead c offset 4 s = .next { s with listing := .reg offset v :: s.listing }
    shows 0x00 0
    ∧ (∃ v, shows 0x04 v ∧ v.getLsbD 0 = false ∧ v.getLsbD 1 = s.status.done
        ∧ v.getLsbD 2 = s.status.err ∧ v.getLsbD 3 = s.status.pv ∧ v.extractLsb' 4 28 = 0)
    ∧ shows 0x08 (match s.cause with
        | .none => 0 | .illegalCommand => 1 | .badFrameSize => 2 | .frameTooSmall => 3 | .badStage => 4
        | .misaligned => 5 | .outOfRange => 6 | .overlap => 7 | .busError => 8)
    ∧ shows 0x0C s.finfo
    ∧ (∃ v, shows 0x10 v ∧ v.getLsbD 0 = s.ctrl.ieDone ∧ v.getLsbD 1 = s.ctrl.ieErr
        ∧ v.extractLsb' 2 30 = 0)
    ∧ shows 0x14 s.frameSize ∧ shows 0x18 s.frameBase ∧ shows 0x1C s.tempBase
    ∧ shows 0x20 s.maskBase ∧ shows 0x24 s.frozenBase ∧ shows 0x28 s.infoBase
    ∧ shows 0x2C s.stageCount ∧ shows 0x30 s.stage ∧ shows 0x34 s.frameHalf
    ∧ shows 0x38 s.numBranches ∧ shows 0x3C s.frozenIdx ∧ shows 0x40 s.infoIdx)
  ∧ ∀ (s t : State) (w : Word) (i : Instr) (k : Nat),
      s.ready = true → decode w = .ok i → t.status = s.accept.status →
      let shows (offset : Nat) (v : Word) : Prop :=
        portRead { runningCommand w s.accept with pvSetAt := k } offset 4 t
          = .next { t with listing := .reg offset v :: t.listing, draws := t.draws + 1 }
      (∃ v, shows 0x04 v ∧ v.getLsbD 0 = true ∧ v.getLsbD 1 = false ∧ v.getLsbD 2 = false
          ∧ (s.status.pv = true → v.getLsbD 3 = true)
          ∧ (s.status.pv = false → setsPv i = false → v.getLsbD 3 = false)
          ∧ v.extractLsb' 4 28 = 0)
      ∧ shows 0x00 0 ∧ shows 0x08 (readReg .cause t) ∧ shows 0x0C t.finfo
      ∧ shows 0x10 (readReg .ctrl t)
      ∧ shows 0x14 t.frameSize ∧ shows 0x18 t.frameBase ∧ shows 0x1C t.tempBase
      ∧ shows 0x20 t.maskBase ∧ shows 0x24 t.frozenBase ∧ shows 0x28 t.infoBase

/-- R41: while `BUSY` = 1 a write to any register of the block changes nothing. -/
def Obligations.BusyWritesIgnored : Prop :=
  ∀ (s : State) (offset : Nat) (w : Word),
    s.status.busy = true → offset % 4 = 0 → offset ≤ 0xFF → portWrite offset 4 w s = .next s

/-- The six operand registers store all 32 bits as written, and a write to `FRAME_SIZE` clears `PV`, even
if the value is the same (R26 to R31, R22). -/
def Obligations.OperandRegisterWrites : Prop :=
  ∀ (s : State) (w : Word), s.status.busy = false →
    portWrite 0x14 4 w s
        = .next { s with frameSize := w, status := { s.status with pv := false } }
      ∧ portWrite 0x18 4 w s = .next { s with frameBase := w }
      ∧ portWrite 0x1C 4 w s = .next { s with tempBase := w }
      ∧ portWrite 0x20 4 w s = .next { s with maskBase := w }
      ∧ portWrite 0x24 4 w s = .next { s with frozenBase := w }
      ∧ portWrite 0x28 4 w s = .next { s with infoBase := w }

/-- The effect of a host write to `STATUS`: bit 1 written as 1 while not busy clears `DONE`; every other
written bit is ignored (R22); and what `STATUS` reads as. -/
def Obligations.StatusRegister : Prop :=
  ∀ (s : State) (w : Word),
    (s.status.busy = false →
      portWrite 0x04 4 w s
        = .next (if w.getLsbD 1 then { s with status := { s.status with done := false } } else s))
    ∧ (s.status.busy = true → portWrite 0x04 4 w s = .next s)
    ∧ (readReg .status s).getLsbD 0 = s.status.busy
    ∧ (readReg .status s).getLsbD 1 = s.status.done
    ∧ (readReg .status s).getLsbD 2 = s.status.err
    ∧ (readReg .status s).getLsbD 3 = s.status.pv
    ∧ (readReg .status s).extractLsb' 4 28 = 0

/-- R25: `CTRL` stores the two enables, reads its other bits as 0, and ignores every write while busy,
`SRST` included. -/
def Obligations.ControlRegister : Prop :=
  ∀ (s : State) (w : Word),
    (s.status.busy = false → w.getLsbD 31 = false →
      portWrite 0x10 4 w s
        = .next { s with ctrl := { ieDone := w.getLsbD 0, ieErr := w.getLsbD 1 } })
    ∧ (s.status.busy = false → w.getLsbD 31 = true →
        ∃ t, portWrite 0x10 4 w s = .next t ∧ t.RegistersReset)
    ∧ (s.status.busy = true → portWrite 0x10 4 w s = .next s)
    ∧ (readReg .ctrl s).getLsbD 0 = s.ctrl.ieDone
    ∧ (readReg .ctrl s).getLsbD 1 = s.ctrl.ieErr
    ∧ (readReg .ctrl s).extractLsb' 2 30 = 0

/-! ## Reset -/

/-- R50: after a hard reset and after a soft reset every host-visible register holds 0, as it does in
`State.reset`; so every command that uses `FRAME_SIZE` faults with `BAD_FRAME_SIZE`. -/
def Obligations.ResetRegistersReadZero : Prop :=
  State.reset.RegistersReset
  ∧ (∀ (s : State) (rest : List HostMove), s.script = .hardReset :: rest →
      ∃ t, step s = .next t ∧ t.RegistersReset)
  ∧ (∀ (s : State) (w : Word), s.status.busy = false → w.getLsbD 31 = true →
      ∃ t, portWrite 0x10 4 w s = .next t ∧ t.RegistersReset)
  ∧ ∀ (s : State) (i : Instr), s.RegistersReset → i ≠ .upd →
      exec i s = .next (s.faulted .badFrameSize 0)

/-- After hard reset every register holds its reset value, `irq` is deasserted, the engine is idle and ready
to accept a command, and `M` is not touched (R240). The model's own, log entry 23 (DESIGN CHOICE): that a step
with an empty script changes nothing, and that the hard reset of a state with `BUSY` = 1, which no run
reaches between steps, leaves `M` too, where R242 would leave bytes open. -/
def Obligations.HardReset : Prop :=
  (∀ (s : State) (rest : List HostMove), s.script = .hardReset :: rest →
    ∃ t, step s = .next t ∧ t.RegistersReset ∧ t.irq = false ∧ t.ready = true ∧ t.mem = s.mem
      ∧ t.memTop = s.memTop ∧ t.script = rest ∧ t.listing = s.listing)
  ∧ ∀ s : State, s.script = [] → step s = .next s

/-- R241: a `CTRL` write with bit 31 set, while not busy, has exactly the effect of hard reset on the
registers whatever its other bits; while busy it is ignored; and no other move of the host but a hard reset
clears `ERR`. -/
def Obligations.SoftReset : Prop :=
  (∀ (s : State) (w : Word) (rest : List HostMove), s.script = wr .ctrl w :: rest →
    w.getLsbD 31 = true →
      (s.status.busy = false →
        step s = step { s with script := .hardReset :: rest }
          ∧ ∃ t, step s = .next t ∧ t.RegistersReset ∧ t.mem = s.mem)
      ∧ (s.status.busy = true → step s = .next { s with script := rest }))
  ∧ ∀ (s t : State) (m : HostMove) (rest : List HostMove), s.script = m :: rest → m.resets = false →
      s.status.err = true → step s = .next t →
        t.status.err = true ∧ t.cause = s.cause ∧ t.finfo = s.finfo

/-- A hard reset during a command (R242), after accesses the host may make while it runs: the registers hold
their reset values; every byte outside the windows the command may write is as the host's own writes left
it; and every byte inside holds that value or one that the command's sequential execution wrote there (`runOf`
logs them). Rests on log entries 10 and 24. -/
def Obligations.HardResetDuringCommand : Prop :=
  ∀ (s : State) (w : Word) (i : Instr) (during : List HostAccess),
    s.ready = true → s.StageParams → decode w = .ok i → (∀ x ∈ during, Permitted i s x) →
      ∃ s' t, hostAccesses (runningCommand w s.accept) during s.accept = .next s'
        ∧ SameOperands { s.accept with listing := s'.listing } s' ∧ SameStages s s'
        ∧ commandDuring w during true s = .next t ∧ t.RegistersReset
        ∧ (∀ a, Memory.read t.mem a = Memory.read (hostWrites during s.mem) a
            ∨ (a, Memory.read t.mem a) ∈ (runOf i s').log)
        ∧ ∀ a, (writesTemp i = true → ¬ InWindow s.tempBase s.frameLength a) →
            (writesFrame i = true → ¬ InWindow s.frameBase s.frameLength a) →
              Memory.read t.mem a = Memory.read (hostWrites during s.mem) a

/-- A command during which the host makes accesses it may make (register reads, register writes, reads and
writes of `M` that R75 allows, looks at `irq`) completes with every register as the command alone leaves it and
with `M` as the command alone leaves it, but for the bytes the host itself wrote (R41, R74, R244). The form of
the move is log entry 24 (DESIGN CHOICE); the windows R75 speaks of are those of log entry 11. -/
def Obligations.CommandUnderHostAccesses : Prop :=
  ∀ (s : State) (w : Word) (i : Instr) (during : List HostAccess),
    s.ready = true → s.StageParams → decode w = .ok i → (∀ x ∈ during, Permitted i s x) →
      ∃ t u, commandDuring w during false s = .next t ∧ exec i s = .next u
        ∧ SameRegisters u t ∧ t.memTop = u.memTop ∧ t.script = u.script
        ∧ ∀ a, (HostWrote during a →
              Memory.read t.mem a = Memory.read (hostWrites during s.mem) a)
            ∧ (¬ HostWrote during a → Memory.read t.mem a = Memory.read u.mem a)

/-- R220: `irq` is a pure function of `STATUS` and `CTRL`; writing 1 to `STATUS` bit 1 or the acceptance of
the next command removes the `DONE` part; clearing `IE_ERR` removes the `ERR` part; a reset removes both. -/
def Obligations.InterruptOutput : Prop :=
  ∀ s : State,
    (s.irq = true ↔
      (s.status.done = true ∧ s.ctrl.ieDone = true) ∨ (s.status.err = true ∧ s.ctrl.ieErr = true))
    ∧ (s.status.busy = false → ∃ t, portWrite 0x04 4 0x2 s = .next t
        ∧ (t.irq = true ↔ s.status.err = true ∧ s.ctrl.ieErr = true))
    ∧ (s.accept.irq = true ↔ s.status.err = true ∧ s.ctrl.ieErr = true)
    ∧ (s.status.busy = false → ∃ t, portWrite 0x10 4 0x1 s = .next t
        ∧ (t.irq = true ↔ s.status.done = true))
    ∧ s.resetRegisters.irq = false

/-! ## The life of a command, and its faults -/

/-- Every command, in every state in which it is accepted, ends with `BUSY` cleared and exactly one of `DONE`
and `ERR` set, and never writes an operand register, `CTRL` or the size of `M` (R200, R187, R62). -/
def Obligations.CommandEndsDoneOrErr : Prop :=
  ∀ (i : Instr) (s : State), s.ready = true →
    ∃ t, exec i s = .next t ∧ t.status.busy = false ∧ (t.status.done = true ↔ t.status.err = false)
      ∧ (t.status.err = false → t.cause = s.cause ∧ t.finfo = s.finfo)
      ∧ (t.status.err = true → t.cause ≠ .none)
      ∧ SameOperands s t

/-- R205: `BAD_FRAME_SIZE`, applied by every command except `UPD`, when `FRAME_SIZE = 0` or `FRAME_SIZE &
(FRAME_SIZE - 1) != 0`; `FINFO` = `FRAME_SIZE`. -/
def Obligations.BadFrameSizeFault : Prop :=
  ∀ (i : Instr) (s : State), s.ready = true → i ≠ .upd →
    (s.frameSize = 0 ∨ s.frameSize &&& (s.frameSize - 1) ≠ 0) →
      exec i s = .next (s.faulted .badFrameSize s.frameSize)

/-- R206: `FRAME_TOO_SMALL`, raised by a format V command when `FRAME_SIZE < 16`; `FINFO` = `FRAME_SIZE`. -/
def Obligations.FrameTooSmallFault : Prop :=
  ∀ (i : Instr) (s : State), s.ready = true → opTakesFlag i.op = true → s.SizeLegal →
    s.frameLength < 16 → exec i s = .next (s.faulted .frameTooSmall s.frameSize)

/-- R207: `BAD_STAGE`, when `PV = 0` or `STAGE` does not meet the command's condition: `BFS` and `UPD` need
`STAGE >= 1`, `MAC` needs `STAGE >= 5`, `MIC` needs `STAGE = 4`; `FINFO` = `STAGE`. -/
def Obligations.BadStageFault : Prop :=
  ∀ (s : State) (aln : Bool), s.ready = true →
    ((s.status.pv = false ∨ s.stage.toNat < 1) →
      exec .upd s = .next (s.faulted .badStage s.stage)
        ∧ (s.SizeLegal → exec .bfs s = .next (s.faulted .badStage s.stage)))
    ∧ (s.SizeLegal → 16 ≤ s.frameLength →
        ((s.status.pv = false ∨ s.stage.toNat < 5) →
          exec (.mac aln) s = .next (s.faulted .badStage s.stage))
        ∧ ((s.status.pv = false ∨ s.stage.toNat ≠ 4) →
          exec (.mic aln) s = .next (s.faulted .badStage s.stage)))

/-- R208: `MISALIGNED`, raised by a format V command with `ALN` = 1 when `TEMP_BASE mod 16 != 0` (`FINFO` =
`TEMP_BASE`), else when `FRAME_BASE mod 16 != 0` (`FINFO` = `FRAME_BASE`), the earlier checks having
passed; with `ALN` = 0 nothing is checked. -/
def Obligations.MisalignedFault : Prop :=
  (∀ (i : Instr) (s : State), s.ready = true → i.flag = true →
    SizePasses i s → MinimumPasses i s → StagePasses i s →
      (s.tempBase.toNat % 16 ≠ 0 → exec i s = .next (s.faulted .misaligned s.tempBase))
      ∧ (s.tempBase.toNat % 16 = 0 → s.frameBase.toNat % 16 ≠ 0 →
          exec i s = .next (s.faulted .misaligned s.frameBase)))
  ∧ ∀ (i : Instr) (s t : State), s.ready = true → i.flag = false → s.cause ≠ .misaligned →
      exec i s = .next t → t.cause ≠ .misaligned

/-- R209: `OUT_OF_RANGE`, for the first of the windows `TEMP`, `FRAME`, `MASK` that the command uses and that
does not lie in `M`; `FINFO` = its base; the earlier checks having passed. -/
def Obligations.OutOfRangeFault : Prop :=
  ∀ (i : Instr) (s : State), s.ready = true →
    SizePasses i s → MinimumPasses i s → StagePasses i s → s.AlignedIf i.flag →
      (usesTemp i = true → s.memSize < s.tempBase.toNat + s.frameLength →
        exec i s = .next (s.faulted .outOfRange s.tempBase))
      ∧ (usesFrame i = true → s.Fits s.tempBase → s.memSize < s.frameBase.toNat + s.frameLength →
          exec i s = .next (s.faulted .outOfRange s.frameBase))
      ∧ (usesMask i = true → s.Fits s.tempBase → (usesFrame i = true → s.Fits s.frameBase) →
          s.memSize < s.maskBase.toNat + s.frameLength →
            exec i s = .next (s.faulted .outOfRange s.maskBase))

/-- R210: `OVERLAP`, raised when the `TEMP` and `FRAME` windows share an address; `FINFO` = `TEMP_BASE`; the
earlier checks having passed. -/
def Obligations.OverlapFault : Prop :=
  ∀ (i : Instr) (s : State), s.ready = true → usesTemp i = true → usesFrame i = true →
    SizePasses i s → MinimumPasses i s → StagePasses i s → s.AlignedIf i.flag → RangePasses i s →
      ¬ (s.tempBase.toNat + s.frameLength ≤ s.frameBase.toNat
          ∨ s.frameBase.toNat + s.frameLength ≤ s.tempBase.toNat) →
        exec i s = .next (s.faulted .overlap s.tempBase)

/-- A command whose checks all pass raises none of the faults 1 to 7: it ends well, or by `BUS_ERROR`
(R203, R212). -/
def Obligations.PassedChecksRaiseNothing : Prop :=
  ∀ (i : Instr) (s : State), s.ready = true → PassesChecks i s →
    ∃ t, exec i s = .next t ∧ (EndedWell s t ∨ (t.status.err = true ∧ t.cause = .busError))

/-- R223: faults 1 to 7 are precise: apart from `STATUS`, `CAUSE`, `FINFO` the state is exactly the state at
acceptance; entry sets `ERR` and clears `BUSY`; and no fault modifies an operand register. -/
def Obligations.FaultsArePrecise : Prop :=
  ∀ (w : Word) (s t : State), s.ready = true → submit w s = .next t → t.status.err = true →
    (t.cause ≠ .busError → t = s.faulted t.cause t.finfo)
    ∧ t.status.busy = false ∧ t.status.done = false
    ∧ t.frameSize = s.frameSize ∧ t.frameBase = s.frameBase ∧ t.tempBase = s.tempBase
    ∧ t.maskBase = s.maskBase ∧ t.frozenBase = s.frozenBase ∧ t.infoBase = s.infoBase

/-- R211: a value whose address lies outside `M` raises `BUS_ERROR` with that address mod 2^32 in `FINFO`, at
the first such position k of the walk; the `TEMP` bytes of earlier positions have been written, the two
indices count the values consumed, and in `ENS` and `ENV` the command ends before the transform starts, so
that `FRAME` and the stage parameters are untouched. No other command raises it (`StageParams` being part of the
invariant), and these three raise it only at such a position: their checks have passed and the walk stops there,
so no other access of theirs raises it. -/
def Obligations.InterleaverBusError : Prop :=
  (∀ (i : Instr) (s : State) (k f : Nat) (m : Nat → Byte), s.ready = true → usesMask i = true →
    PassesChecks i s → k < s.frameLength → s.walk k = some (m, f) →
    s.memSize ≤ s.sourceAddr m f k →
      ∃ t, exec i s = .next t
        ∧ t.status = { busy := false, done := false, err := true, pv := s.status.pv }
        ∧ t.cause = .busError ∧ t.finfo = BitVec.ofNat 32 (s.sourceAddr m f k)
        ∧ t.frozenIdx.toNat = f ∧ t.infoIdx.toNat = k - f
        ∧ SameOperands s t ∧ SameStages s t
        ∧ (∀ a, Memory.read t.mem a = m a)
        ∧ ∀ a, ¬ InWindow s.tempBase k a → Memory.read t.mem a = Memory.read s.mem a)
  ∧ (∀ (i : Instr) (s t : State), s.ready = true → s.StageParams → s.cause ≠ .busError →
      exec i s = .next t → t.cause = .busError → i = .ilv ∨ i = .ens ∨ ∃ aln, i = .env aln)
  ∧ ∀ (i : Instr) (s t : State), s.ready = true → usesMask i = true → s.cause ≠ .busError →
      exec i s = .next t → t.cause = .busError →
        PassesChecks i s ∧ ∃ k f m, k < s.frameLength ∧ s.walk k = some (m, f)
          ∧ s.memSize ≤ s.sourceAddr m f k

/-! ## Stage parameters: `LG2` and `UPD` -/

/-- R112: for `FRAME_SIZE = 2^p`, 0 <= p <= 31, `LG2` completes and gives `STAGE_COUNT = p`; with it the other
register values of R111 and the frame. -/
def Obligations.StageCountIsLog2 : Prop :=
  ∀ (s : State) (p : Nat), s.ready = true → p ≤ 31 → s.frameLength = 2 ^ p →
    ∃ t, exec .lg2 s = .next t ∧ EndedWell s t
      ∧ t.stageCount.toNat = p ∧ t.stage.toNat = p ∧ t.frameHalf.toNat = 2 ^ p / 2
      ∧ t.numBranches = 1 ∧ t.status.pv = true
      ∧ SameOperands s t ∧ SameIndices s t ∧ SameMemory s t

/-- The effect of `UPD` (R113) with its frame. -/
def Obligations.UpdateStageParameters : Prop :=
  ∀ s : State, s.ready = true → s.status.pv = true → 1 ≤ s.stage.toNat →
    ∃ t, exec .upd s = .next t ∧ EndedWell s t
      ∧ t.numBranches = s.numBranches <<< 1 ∧ t.frameHalf = s.frameHalf >>> 1
      ∧ t.stage.toNat + 1 = s.stage.toNat
      ∧ t.stageCount = s.stageCount ∧ t.status.pv = true
      ∧ SameOperands s t ∧ SameIndices s t ∧ SameMemory s t

/-- R114: after `LG2` with `FRAME_SIZE = 2^p` and then j `UPD`s, `STAGE = p - j`, `NUM_BRANCHES = 2^j`,
`FRAME_HALF = 2^(p-1-j)` for j < p and 0 for j = p; hence `NUM_BRANCHES * FRAME_HALF * 2 = FRAME_SIZE` for
every j < p. -/
def Obligations.StageTrajectory : Prop :=
  ∀ (s : State) (p j : Nat), s.ready = true → p ≤ 31 → s.frameLength = 2 ^ p → j ≤ p →
    ∃ t, submitAll (.lg2 :: List.replicate j .upd) s = .next t ∧ EndedWell s t
      ∧ t.stageCount.toNat = p ∧ t.stage.toNat = p - j ∧ t.numBranches.toNat = 2 ^ j
      ∧ (j < p → t.frameHalf.toNat = 2 ^ (p - 1 - j)
          ∧ t.numBranches.toNat * t.frameHalf.toNat * 2 = t.frameLength)
      ∧ (j = p → t.frameHalf = 0)
      ∧ t.status.pv = true ∧ SameOperands s t ∧ SameIndices s t ∧ SameMemory s t

/-! ## The interleaver -/

/-- `ILV` on any operands whose checks pass, whatever overlaps what: if no value's address leaves `M`, it
completes with `M` and the indices as the walk of R121 leaves them. -/
def Obligations.InterleaveWalk : Prop :=
  ∀ (s : State) (m : Nat → Byte) (f : Nat), s.ready = true → PassesChecks .ilv s →
    s.walk s.frameLength = some (m, f) →
      ∃ t, exec .ilv s = .next t ∧ EndedWell s t
        ∧ (∀ a, Memory.read t.mem a = m a)
        ∧ t.frozenIdx.toNat = f ∧ t.infoIdx.toNat = s.frameLength - f
        ∧ SameOperands s t ∧ SameStages s t ∧ SameMemoryOutside s t s.tempBase

/-- R126: after a completed `ILV` whose `TEMP` overlaps none of the three inputs, `TEMP[i] = FROZEN[c1(i)]` if
`MASK[i] != 0`, else `INFO[c0(i)]`, all values as they were before; `FROZEN_IDX` is the number of non-zero mask
bytes and `INFO_IDX` the rest. -/
def Obligations.InterleaveProperty : Prop :=
  ∀ s : State, s.ready = true → PassesChecks .ilv s → s.ValuesInside s.frameLength →
    s.InputsApart s.frameLength →
      ∃ t, exec .ilv s = .next t ∧ EndedWell s t
        ∧ (∀ i, i < s.frameLength →
            t.temp i = if s.mask i ≠ 0 then s.frozen (s.frozenBefore i)
              else s.info (i - s.frozenBefore i))
        ∧ t.frozenIdx.toNat = s.frozenCount ∧ t.infoIdx.toNat = s.infoCount
        ∧ SameOperands s t ∧ SameStages s t ∧ SameMemoryOutside s t s.tempBase

/-- R125: in every case `FROZEN_IDX + INFO_IDX = N` at completion; with all mask bytes non-zero `TEMP` is a copy
of `FROZEN`, with all mask bytes zero a copy of `INFO`. -/
def Obligations.ExtremeMasks : Prop :=
  ∀ s t : State, s.ready = true → exec .ilv s = .next t → t.status.err = false →
    t.frozenIdx.toNat + t.infoIdx.toNat = s.frameLength
    ∧ (Apart s.tempBase s.frameLength s.maskBase s.frameLength →
        ((∀ i, i < s.frameLength → s.mask i ≠ 0) →
          t.frozenIdx.toNat = s.frameLength ∧ t.infoIdx = 0
            ∧ (Apart s.tempBase s.frameLength s.frozenBase s.frameLength →
                ∀ i, i < s.frameLength → t.temp i = s.frozen i))
        ∧ ((∀ i, i < s.frameLength → s.mask i = 0) →
          t.frozenIdx = 0 ∧ t.infoIdx.toNat = s.frameLength
            ∧ (Apart s.tempBase s.frameLength s.infoBase s.frameLength →
                ∀ i, i < s.frameLength → t.temp i = s.info i)))

/-! ## The scalar stage and the copy back -/

/-- `BFS` (R131): for every branch g and every i below `FRAME_HALF`, with base = g * 2 * fh, `FRAME[base + i] =
TEMP[base + 2i] ^ TEMP[base + 2i + 1]` and `FRAME[base + fh + i] = TEMP[base + 2i + 1]`; the branches fill the
frame; no register is written. -/
def Obligations.ScalarStage : Prop :=
  ∀ s : State, s.ready = true → PassesChecks .bfs s → s.StageParams →
    s.numBranches.toNat * s.frameHalf.toNat * 2 = s.frameLength
    ∧ ∃ t, exec .bfs s = .next t ∧ EndedWell s t
      ∧ (∀ g i, g < s.numBranches.toNat → i < s.frameHalf.toNat →
          t.frame (g * 2 * s.frameHalf.toNat + i)
              = s.temp (g * 2 * s.frameHalf.toNat + 2 * i)
                ^^^ s.temp (g * 2 * s.frameHalf.toNat + 2 * i + 1)
            ∧ t.frame (g * 2 * s.frameHalf.toNat + s.frameHalf.toNat + i)
              = s.temp (g * 2 * s.frameHalf.toNat + 2 * i + 1))
      ∧ SameOperands s t ∧ SameStages s t ∧ SameIndices s t ∧ SameMemoryOutside s t s.frameBase

/-- `CPB` (R132): `TEMP[i] <- FRAME[i]` for i = 0 .. N-1; no register is written. -/
def Obligations.CopyBack : Prop :=
  ∀ s : State, s.ready = true → PassesChecks .cpb s →
    ∃ t, exec .cpb s = .next t ∧ EndedWell s t
      ∧ (∀ i, i < s.frameLength → t.temp i = s.frame i)
      ∧ SameOperands s t ∧ SameStages s t ∧ SameIndices s t ∧ SameMemoryOutside s t s.tempBase

/-! ## The vector datapath -/

/-- The lane primitives and constants (R143 to R150): shift, AND, XOR, gather, half concatenation, the lane
masks, and the two permutations, `REV` being its own inverse. -/
def Obligations.LanePrimitives : Prop :=
  ∀ (a b : Vec) (i : Nat), i < 16 →
    (∀ d, d ∈ [1, 2, 4, 8] →
      lane (vshr a d) i = (if i + d ≤ 15 then lane a (i + d) else 0)
        ∧ lane (laneMask d) i = (if i &&& d = 0 then 0xFF else 0x00))
    ∧ lane (vand a b) i = lane a i &&& lane b i
    ∧ lane (vxor a b) i = lane a i ^^^ lane b i
    ∧ (∀ P : List Nat, lane (vperm a P) i = lane a (P.getD i 0))
    ∧ (i < 8 → lane (vcatlo a b) i = lane a i ∧ lane (vcatlo a b) (8 + i) = lane b i
        ∧ lane (vcathi a b) i = lane a (8 + i) ∧ lane (vcathi a b) (8 + i) = lane b (8 + i))
    ∧ (i < 8 → lane (vperm a sepTable) i = lane a (2 * i)
        ∧ lane (vperm a sepTable) (8 + i) = lane a (2 * i + 1))
    ∧ lane (vperm a revTable) i = lane a (reverseBits 4 i)
    ∧ vperm (vperm a revTable) revTable = a

/-- R151 and R152: `XSTEP(v, d)` for d in 1, 2, 4, 8, lane by lane; and the butterfly of one register, the XOR
results in the low half and the kept symbols in the high half, in pair order. -/
def Obligations.LaneButterfly : Prop :=
  ∀ v : Vec,
    (∀ d i, d ∈ [1, 2, 4, 8] → i < 16 →
      xstep v d = vxor (vand (vshr v d) (laneMask d)) v
        ∧ lane (xstep v d) i = if i &&& d = 0 then lane v i ^^^ lane v (i + d) else lane v i)
    ∧ ∀ k, k < 8 →
        lane (vperm (xstep v 1) sepTable) k = lane v (2 * k) ^^^ lane v (2 * k + 1)
          ∧ lane (vperm (xstep v 1) sepTable) (8 + k) = lane v (2 * k + 1)

/-- A command with `ALN` = 1 and with `ALN` = 0 on the same state whose bases are multiples of 16: the outcomes
are equal (R68, R92). -/
def Obligations.AlignedEqualsUnaligned : Prop :=
  ∀ s : State, s.tempBase.toNat % 16 = 0 → s.frameBase.toNat % 16 = 0 →
    exec (.mac true) s = exec (.mac false) s ∧ exec (.mic true) s = exec (.mic false) s
      ∧ exec (.xfv true) s = exec (.xfv false) s ∧ exec (.env true) s = exec (.env false) s

/-- `MAC` (R161): what one data-parallel macro-stage pass leaves in `FRAME`, by branch and position, with
either value of `ALN`; no host-visible register is written. -/
def Obligations.MacroStage : Prop :=
  ∀ (s : State) (aln : Bool), s.ready = true → PassesChecks (.mac aln) s → s.StageParams →
    (16 ≤ s.frameHalf.toNat ∧ s.frameHalf.toNat % 16 = 0 ∧ 32 ≤ s.frameLength
      ∧ s.numBranches.toNat * s.frameHalf.toNat * 2 = s.frameLength)
    ∧ ∃ t, exec (.mac aln) s = .next t ∧ EndedWell s t
      ∧ (∀ g i, g < s.numBranches.toNat → i < s.frameHalf.toNat →
          t.frame (g * 2 * s.frameHalf.toNat + i)
              = s.temp (g * 2 * s.frameHalf.toNat + 2 * i)
                ^^^ s.temp (g * 2 * s.frameHalf.toNat + 2 * i + 1)
            ∧ t.frame (g * 2 * s.frameHalf.toNat + s.frameHalf.toNat + i)
              = s.temp (g * 2 * s.frameHalf.toNat + 2 * i + 1))
      ∧ SameOperands s t ∧ SameStages s t ∧ SameIndices s t ∧ SameMemoryOutside s t s.frameBase

/-- R162: on any state on which the checks of `MAC` pass, `MAC` (either `ALN`) and `BFS` leave identical
`FRAME[0..N-1]`, and neither changes anything else that is host-visible. -/
def Obligations.MacEqualsBfs : Prop :=
  ∀ (s : State) (aln : Bool), s.ready = true → PassesChecks (.mac aln) s → s.StageParams →
    ∃ t u, exec (.mac aln) s = .next t ∧ exec .bfs s = .next u ∧ EndedWell s t
      ∧ (∀ i, i < s.frameLength → t.frame i = u.frame i)
      ∧ HostEqual t u
      ∧ SameOperands s t ∧ SameStages s t ∧ SameIndices s t ∧ SameMemoryOutside s t s.frameBase
      ∧ SameOperands s u ∧ SameStages s u ∧ SameIndices s u ∧ SameMemoryOutside s u s.frameBase

/-- `MIC` (R171) by its closed form (R172): lane j of each 16-symbol chunk is the XOR of the chunk's input
lanes i with `(rev_4(i) & j) = j`; `STAGE = 0`, `FRAME_HALF = 0`, `NUM_BRANCHES = FRAME_SIZE`; `TEMP` keeps the
chunk inputs (R173). -/
def Obligations.MicroStage : Prop :=
  ∀ (s : State) (aln : Bool), s.ready = true → PassesChecks (.mic aln) s → s.StageParams →
    (s.frameHalf.toNat = 8 ∧ s.numBranches.toNat * 16 = s.frameLength)
    ∧ ∃ t, exec (.mic aln) s = .next t ∧ EndedWell s t
      ∧ (∀ g j, g < s.numBranches.toNat → j < 16 →
          t.frame (16 * g + j) = transformed 4 (fun i => s.temp (16 * g + i)) j)
      ∧ t.stage = 0 ∧ t.frameHalf = 0 ∧ t.numBranches = s.frameSize
      ∧ t.stageCount = s.stageCount ∧ t.status.pv = true
      ∧ SameOperands s t ∧ SameIndices s t ∧ SameMemoryOutside s t s.frameBase

/-- R172: on any state on which the checks of `MIC` pass, `MIC` (either `ALN`) leaves the same `FRAME[0..N-1]`
and the same stage parameters as `BFS`, `CPB`, `UPD` repeated four times; only `TEMP` differs: `MIC` leaves it as
it was, the scalar rounds leave it equal to `FRAME`. -/
def Obligations.MicEqualsFourScalarRounds : Prop :=
  ∀ (s : State) (aln : Bool), s.ready = true → PassesChecks (.mic aln) s → s.StageParams →
    ∃ t u, exec (.mic aln) s = .next t ∧ submitAll (repeated 4 scalarRoundCommands) s = .next u
      ∧ (∀ i, i < s.frameLength → t.frame i = u.frame i)
      ∧ EqualButTemp t u
      ∧ ∀ i, i < s.frameLength → t.temp i = s.temp i ∧ u.temp i = u.frame i

/-! ## The whole transforms -/

/-- The end state of `XFS` (R133, R186): with n = log2(N) and u the symbols in `TEMP` before, `FRAME` and `TEMP`
hold S_n(u) when N >= 2. -/
def Obligations.ScalarTransform : Prop :=
  ∀ (s : State) (n : Nat), s.ready = true → PassesChecks .xfs s → 1 ≤ n → n ≤ 31 →
    s.frameLength = 2 ^ n →
      ∃ t, exec .xfs s = .next t ∧ EndedWell s t
        ∧ (∀ j, j < s.frameLength → t.frame j = afterStages n s.temp n j ∧ t.temp j = t.frame j)
        ∧ StagesFinished n t ∧ SameOperands s t ∧ SameIndices s t ∧ SameMemoryOutsideBoth s t

/-- R134: with N = 1 the loop runs zero times: `XFS` changes no byte of `M`; `ENS` puts the one selected value
in `TEMP[0]` and `FRAME[0]` keeps what it held. -/
def Obligations.OneSymbolFrame : Prop :=
  ∀ s : State, s.ready = true → s.frameSize = 1 →
    (PassesChecks .xfs s →
      ∃ t, exec .xfs s = .next t ∧ EndedWell s t ∧ t.stageCount = 0 ∧ StagesFinished 0 t
        ∧ SameOperands s t ∧ SameIndices s t ∧ SameMemory s t)
    ∧ (PassesChecks .ens s → s.ValuesInside 1 →
      ∃ t, exec .ens s = .next t ∧ EndedWell s t ∧ t.stageCount = 0 ∧ StagesFinished 0 t
        ∧ t.temp 0 = (if s.mask 0 ≠ 0 then s.frozen 0 else s.info 0) ∧ t.frame 0 = s.frame 0
        ∧ t.frozenIdx.toNat + t.infoIdx.toNat = 1
        ∧ SameOperands s t ∧ SameMemoryOutside s t s.tempBase)

/-- R136: after `XFS` with n = log2(N) >= 1, `FRAME[j]` is the XOR of u[i] over all i in 0 .. N-1 with `(rev_n(i)
& j) = j`, u being `TEMP` before; and that transform is linear over XOR. -/
def Obligations.TransformClosedForm : Prop :=
  (∀ (s : State) (n : Nat), s.ready = true → PassesChecks .xfs s → 1 ≤ n → n ≤ 31 →
    s.frameLength = 2 ^ n →
      ∃ t, exec .xfs s = .next t ∧ EndedWell s t
        ∧ ∀ j, j < s.frameLength → t.frame j = transformed n s.temp j)
  ∧ (∀ (n j : Nat) (u v : Nat → Byte),
      transformed n (fun i => u i ^^^ v i) j = transformed n u j ^^^ transformed n v j)
  ∧ ∀ n j : Nat, transformed n (fun _ => 0) j = 0

/-- R135: on a state that passes the checks of `XFS`, the sequence `lg2`, then while `STAGE != 0` `bfs`, `cpb`,
`upd` leaves `M` and the stage parameters exactly as `xfs` does; the loop's test holds before each of its n
rounds and fails after them. -/
def Obligations.StepEquivalence : Prop :=
  ∀ (s : State) (n : Nat), s.ready = true → PassesChecks .xfs s → n ≤ 31 → s.frameLength = 2 ^ n →
    (∃ t u, exec .xfs s = .next t
      ∧ submitAll (.lg2 :: repeated n scalarRoundCommands) s = .next u ∧ HostEqual t u)
    ∧ ∀ j, j ≤ n → ∃ u, submitAll (.lg2 :: repeated j scalarRoundCommands) s = .next u
        ∧ (u.stage ≠ 0 ↔ j < n)

/-- The end state of `XFV` (R180, R186): `FRAME` holds S_n(u), `TEMP` holds S_(n-4)(u), which is u itself when
N = 16. -/
def Obligations.VectorTransform : Prop :=
  ∀ (s : State) (aln : Bool) (n : Nat), s.ready = true → PassesChecks (.xfv aln) s → n ≤ 31 →
    s.frameLength = 2 ^ n →
      4 ≤ n ∧ ∃ t, exec (.xfv aln) s = .next t ∧ EndedWell s t
        ∧ (∀ j, j < s.frameLength →
            t.frame j = afterStages n s.temp n j ∧ t.temp j = afterStages n s.temp (n - 4) j)
        ∧ StagesFinished n t ∧ SameOperands s t ∧ SameIndices s t ∧ SameMemoryOutsideBoth s t

/-- The end state of `ENS` (R182, R186), N >= 2, whatever overlaps the inputs: the walk of the interleaver,
then the scalar transform of what it left in `TEMP`. -/
def Obligations.EncodeScalar : Prop :=
  ∀ (s : State) (n f : Nat) (m : Nat → Byte), s.ready = true → PassesChecks .ens s → 1 ≤ n → n ≤ 31 →
    s.frameLength = 2 ^ n → s.walk s.frameLength = some (m, f) →
      ∃ t, exec .ens s = .next t ∧ EndedWell s t
        ∧ (∀ j, j < s.frameLength →
            t.frame j = afterStages n (fun i => m (s.tempAddr i)) n j ∧ t.temp j = t.frame j)
        ∧ t.frozenIdx.toNat = f ∧ t.infoIdx.toNat = s.frameLength - f
        ∧ StagesFinished n t ∧ SameOperands s t ∧ SameMemoryOutsideBoth s t

/-- The end state of `ENV` (R183, R186): the walk of the interleaver, then the data-parallel transform. -/
def Obligations.EncodeVector : Prop :=
  ∀ (s : State) (aln : Bool) (n f : Nat) (m : Nat → Byte), s.ready = true →
    PassesChecks (.env aln) s → n ≤ 31 → s.frameLength = 2 ^ n →
    s.walk s.frameLength = some (m, f) →
      4 ≤ n ∧ ∃ t, exec (.env aln) s = .next t ∧ EndedWell s t
        ∧ (∀ j, j < s.frameLength →
            t.frame j = afterStages n (fun i => m (s.tempAddr i)) n j
              ∧ t.temp j = afterStages n (fun i => m (s.tempAddr i)) (n - 4) j)
        ∧ t.frozenIdx.toNat = f ∧ t.infoIdx.toNat = s.frameLength - f
        ∧ StagesFinished n t ∧ SameOperands s t ∧ SameMemoryOutsideBoth s t

/-- R185: from the same state on which no check fails, `ENS` and `ENV` (either `ALN`), and likewise `XFS` and
`XFV`, end with identical `FRAME[0..N-1]`, indices, stage parameters and `STATUS`; only `TEMP` differs. -/
def Obligations.VariantsAgree : Prop :=
  ∀ (s : State) (aln : Bool), s.ready = true →
    (PassesChecks (.env aln) s →
      ∃ t u, exec .ens s = .next t ∧ exec (.env aln) s = .next u ∧ EqualButTemp t u
        ∧ ∀ i, i < s.frameLength → t.frame i = u.frame i)
    ∧ (PassesChecks (.xfv aln) s →
      ∃ t u, exec .xfs s = .next t ∧ exec (.xfv aln) s = .next u ∧ EqualButTemp t u
        ∧ ∀ i, i < s.frameLength → t.frame i = u.frame i)

/-- No fault from correct inputs (R214): if the operands meet the contract, `XFS`, `XFV`, `ENS` and `ENV`
complete without a fault; for the encodes the contract includes that the values are inside `M` and that
`TEMP` does not overlap the mask they are counted by (R213). -/
def Obligations.NoFaultFromCorrectInputs : Prop :=
  ∀ (s : State) (aln : Bool), s.ready = true → s.ScalarContract →
    (∃ t, exec .xfs s = .next t ∧ EndedWell s t)
    ∧ (16 ≤ s.frameLength → s.AlignedIf aln → ∃ t, exec (.xfv aln) s = .next t ∧ EndedWell s t)
    ∧ (s.Fits s.maskBase → Apart s.tempBase s.frameLength s.maskBase s.frameLength →
        s.frozenBase.toNat + s.frozenCount ≤ s.memSize →
        s.infoBase.toNat + s.infoCount ≤ s.memSize →
          (∃ t, exec .ens s = .next t ∧ EndedWell s t)
          ∧ (16 ≤ s.frameLength → s.AlignedIf aln →
              ∃ t, exec (.env aln) s = .next t ∧ EndedWell s t))

/-! ## The machine as a whole -/

/-- Confinement (R65, R62): whatever a command does, it changes no byte of `M` outside the windows it is
allowed to write. -/
def Obligations.WritesStayInWindows : Prop :=
  ∀ (i : Instr) (s t : State), s.ready = true → s.StageParams → exec i s = .next t →
    ∀ a, (writesTemp i = true → ¬ InWindow s.tempBase s.frameLength a) →
      (writesFrame i = true → ¬ InWindow s.frameBase s.frameLength a) →
        Memory.read t.mem a = Memory.read s.mem a

/-- The invariant holds after reset. -/
def Obligations.ResetMeetsInvariant : Prop := State.reset.Inv

/-- Every step keeps the invariant: the stage parameters are those of the present `FRAME_SIZE` while `PV = 1`
(R34, R35, R38), `ERR` and `CAUSE` agree, a faulted engine is never done (R201), the ranges of R32, R33, R36
and R37, and the canonical form of `M`. -/
def Obligations.StepKeepsInvariant : Prop :=
  ∀ s t : State, s.Inv → step s = .next t → t.Inv

/-- The host's memory accesses while no command runs (R60, R97): bytes written at an address read back, and
every other byte is unchanged. That an access outside `M` stops in a named fault, and that such a write lands no
byte, is the model's choice (log entry 15, DESIGN CHOICE; R60 says only that the address does not exist). -/
def Obligations.HostMemoryAccess : Prop :=
  ∀ (s : State) (c : Running) (addr : Nat) (bytes : List Byte), s.status.busy = false →
    (addr + bytes.length ≤ s.memSize →
      ∃ t, hostMemWrite c addr bytes s = .next t ∧ t = { s with mem := t.mem }
        ∧ (∀ k (h : k < bytes.length), Memory.read t.mem (addr + k) = bytes[k])
        ∧ ∀ a, (a < addr ∨ addr + bytes.length ≤ a) → Memory.read t.mem a = Memory.read s.mem a)
    ∧ (s.memSize < addr + bytes.length →
        hostMemWrite c addr bytes s = .fault (.hostOutsideMemory addr))
    ∧ (addr < s.memSize →
        hostMemRead addr s
          = .next { s with listing := .byte addr (Memory.read s.mem addr) :: s.listing })
    ∧ (s.memSize ≤ addr → hostMemRead addr s = .fault (.hostOutsideMemory addr))

/-- While a command runs, a host write to a window the command uses, and a host read of `TEMP` or `FRAME`
whichever command it is, is a race the model refuses (R75); any other read is allowed, and any other write
lands. The windows are those of R61 and R65, `FRAME` not at all where `XFS` or `ENS` runs on one symbol; that
the `FROZEN` and `INFO` windows count as N bytes long where `MASK` overlaps `TEMP` is log entry 11 (DESIGN
CHOICE). -/
def Obligations.WindowRacesRefused : Prop :=
  ∀ (w : Word) (i : Instr) (s t : State) (a : Nat) (b : Byte), decode w = .ok i →
    s.status.busy = true → a < s.memSize → t.frameSize = s.frameSize →
    let c := runningCommand w t
    (InWindow s.tempBase s.frameLength a ∨ InWindow s.frameBase s.frameLength a →
      hostMemRead a s = .refused (.windowRace a))
    ∧ (Used i s a → hostMemWrite c a [b] s = .refused (.windowRace a))
    ∧ (¬ InWindow s.tempBase s.frameLength a → ¬ InWindow s.frameBase s.frameLength a →
        hostMemRead a s
          = .next { s with listing := .byte a (Memory.read s.mem a) :: s.listing })
    ∧ (¬ Used i s a → hostMemWrite c a [b] s = .next { s with mem := Memory.write s.mem a b })
    ∧ (Apart s.maskBase s.frameLength s.tempBase s.frameLength →
        s.frozenWindow = s.frozenCount ∧ s.infoWindow = s.infoCount)

/-- The pseudo-instructions `encode.s`, `encode.v`, `encode.va` (R98): eight steps of the machine are the six
register writes and the command. -/
def Obligations.EncodeScript : Prop :=
  ∀ (s : State) (variant : EncodeVariant) (frame temp mask frozen info n : Word) (rest : List HostMove),
    s.ready = true → s.script = .encode variant frame temp mask frozen info n :: rest →
      Sys2Proof.core.run 8 s
        = exec (match variant with | .s => .ens | .v => .env false | .va => .env true)
            { s with
              frameBase := frame, tempBase := temp, maskBase := mask, frozenBase := frozen,
              infoBase := info, frameSize := n, status := { s.status with pv := false },
              script := rest }

/-- The host loop `xfs.steps` (R98) ends, and has the same effect on `M` and on the stage parameters as `xfs`. -/
def Obligations.XfsStepsScript : Prop :=
  ∀ (s : State) (rest : List HostMove), s.ready = true → PassesChecks .xfs s →
    s.script = .xfsSteps :: rest →
      ∃ k t u, Sys2Proof.core.run k s = .next t ∧ exec .xfs s = .next u ∧ t.script = rest
        ∧ SameMemory u t ∧ SameStages u t ∧ t.status = u.status

/-- The host loop `xfv.steps` (R98) ends, and has the same effect on `M` and on the stage parameters as `xfv`. -/
def Obligations.XfvStepsScript : Prop :=
  ∀ (s : State) (rest : List HostMove), s.ready = true → PassesChecks (.xfv false) s →
    s.script = .xfvSteps :: rest →
      ∃ k t u, Sys2Proof.core.run k s = .next t ∧ exec (.xfv false) s = .next u ∧ t.script = rest
        ∧ SameMemory u t ∧ SameStages u t ∧ t.status = u.status
end

