-- ==== Sys2Proof/Laws/State.lean ====
section
/-! SUPPORT. For each update of the state, what every field is after it: true by unfolding once, and
tagged for simp, so that no later proof unfolds a record update. -/

namespace Sys2Proof.Machine

/-! ### State.raise -/

@[simp] theorem State.raise_status (c : Cause) (info : Nat) (s : State) : (s.raise c info).status = { s.status with err := true, busy := false } := rfl
@[simp] theorem State.raise_cause (c : Cause) (info : Nat) (s : State) : (s.raise c info).cause = c := rfl
@[simp] theorem State.raise_finfo (c : Cause) (info : Nat) (s : State) : (s.raise c info).finfo = BitVec.ofNat 32 info := rfl
@[simp] theorem State.raise_ctrl (c : Cause) (info : Nat) (s : State) : (s.raise c info).ctrl = s.ctrl := rfl
@[simp] theorem State.raise_frameSize (c : Cause) (info : Nat) (s : State) : (s.raise c info).frameSize = s.frameSize := rfl
@[simp] theorem State.raise_frameBase (c : Cause) (info : Nat) (s : State) : (s.raise c info).frameBase = s.frameBase := rfl
@[simp] theorem State.raise_tempBase (c : Cause) (info : Nat) (s : State) : (s.raise c info).tempBase = s.tempBase := rfl
@[simp] theorem State.raise_maskBase (c : Cause) (info : Nat) (s : State) : (s.raise c info).maskBase = s.maskBase := rfl
@[simp] theorem State.raise_frozenBase (c : Cause) (info : Nat) (s : State) : (s.raise c info).frozenBase = s.frozenBase := rfl
@[simp] theorem State.raise_infoBase (c : Cause) (info : Nat) (s : State) : (s.raise c info).infoBase = s.infoBase := rfl
@[simp] theorem State.raise_stageCount (c : Cause) (info : Nat) (s : State) : (s.raise c info).stageCount = s.stageCount := rfl
@[simp] theorem State.raise_stage (c : Cause) (info : Nat) (s : State) : (s.raise c info).stage = s.stage := rfl
@[simp] theorem State.raise_frameHalf (c : Cause) (info : Nat) (s : State) : (s.raise c info).frameHalf = s.frameHalf := rfl
@[simp] theorem State.raise_numBranches (c : Cause) (info : Nat) (s : State) : (s.raise c info).numBranches = s.numBranches := rfl
@[simp] theorem State.raise_frozenIdx (c : Cause) (info : Nat) (s : State) : (s.raise c info).frozenIdx = s.frozenIdx := rfl
@[simp] theorem State.raise_infoIdx (c : Cause) (info : Nat) (s : State) : (s.raise c info).infoIdx = s.infoIdx := rfl
@[simp] theorem State.raise_internal (c : Cause) (info : Nat) (s : State) : (s.raise c info).internal = s.internal := rfl
@[simp] theorem State.raise_mem (c : Cause) (info : Nat) (s : State) : (s.raise c info).mem = s.mem := rfl
@[simp] theorem State.raise_memTop (c : Cause) (info : Nat) (s : State) : (s.raise c info).memTop = s.memTop := rfl
@[simp] theorem State.raise_draws (c : Cause) (info : Nat) (s : State) : (s.raise c info).draws = s.draws := rfl
@[simp] theorem State.raise_script (c : Cause) (info : Nat) (s : State) : (s.raise c info).script = s.script := rfl
@[simp] theorem State.raise_listing (c : Cause) (info : Nat) (s : State) : (s.raise c info).listing = s.listing := rfl

/-! ### State.accept -/

@[simp] theorem State.accept_status (s : State) : (s.accept).status = { s.status with done := false, busy := true } := rfl
@[simp] theorem State.accept_cause (s : State) : (s.accept).cause = s.cause := rfl
@[simp] theorem State.accept_finfo (s : State) : (s.accept).finfo = s.finfo := rfl
@[simp] theorem State.accept_ctrl (s : State) : (s.accept).ctrl = s.ctrl := rfl
@[simp] theorem State.accept_frameSize (s : State) : (s.accept).frameSize = s.frameSize := rfl
@[simp] theorem State.accept_frameBase (s : State) : (s.accept).frameBase = s.frameBase := rfl
@[simp] theorem State.accept_tempBase (s : State) : (s.accept).tempBase = s.tempBase := rfl
@[simp] theorem State.accept_maskBase (s : State) : (s.accept).maskBase = s.maskBase := rfl
@[simp] theorem State.accept_frozenBase (s : State) : (s.accept).frozenBase = s.frozenBase := rfl
@[simp] theorem State.accept_infoBase (s : State) : (s.accept).infoBase = s.infoBase := rfl
@[simp] theorem State.accept_stageCount (s : State) : (s.accept).stageCount = s.stageCount := rfl
@[simp] theorem State.accept_stage (s : State) : (s.accept).stage = s.stage := rfl
@[simp] theorem State.accept_frameHalf (s : State) : (s.accept).frameHalf = s.frameHalf := rfl
@[simp] theorem State.accept_numBranches (s : State) : (s.accept).numBranches = s.numBranches := rfl
@[simp] theorem State.accept_frozenIdx (s : State) : (s.accept).frozenIdx = s.frozenIdx := rfl
@[simp] theorem State.accept_infoIdx (s : State) : (s.accept).infoIdx = s.infoIdx := rfl
@[simp] theorem State.accept_internal (s : State) : (s.accept).internal = s.internal := rfl
@[simp] theorem State.accept_mem (s : State) : (s.accept).mem = s.mem := rfl
@[simp] theorem State.accept_memTop (s : State) : (s.accept).memTop = s.memTop := rfl
@[simp] theorem State.accept_draws (s : State) : (s.accept).draws = s.draws := rfl
@[simp] theorem State.accept_script (s : State) : (s.accept).script = s.script := rfl
@[simp] theorem State.accept_listing (s : State) : (s.accept).listing = s.listing := rfl

/-! ### State.complete -/

@[simp] theorem State.complete_status (s : State) : (s.complete).status = { s.status with busy := false, done := true } := rfl
@[simp] theorem State.complete_cause (s : State) : (s.complete).cause = s.cause := rfl
@[simp] theorem State.complete_finfo (s : State) : (s.complete).finfo = s.finfo := rfl
@[simp] theorem State.complete_ctrl (s : State) : (s.complete).ctrl = s.ctrl := rfl
@[simp] theorem State.complete_frameSize (s : State) : (s.complete).frameSize = s.frameSize := rfl
@[simp] theorem State.complete_frameBase (s : State) : (s.complete).frameBase = s.frameBase := rfl
@[simp] theorem State.complete_tempBase (s : State) : (s.complete).tempBase = s.tempBase := rfl
@[simp] theorem State.complete_maskBase (s : State) : (s.complete).maskBase = s.maskBase := rfl
@[simp] theorem State.complete_frozenBase (s : State) : (s.complete).frozenBase = s.frozenBase := rfl
@[simp] theorem State.complete_infoBase (s : State) : (s.complete).infoBase = s.infoBase := rfl
@[simp] theorem State.complete_stageCount (s : State) : (s.complete).stageCount = s.stageCount := rfl
@[simp] theorem State.complete_stage (s : State) : (s.complete).stage = s.stage := rfl
@[simp] theorem State.complete_frameHalf (s : State) : (s.complete).frameHalf = s.frameHalf := rfl
@[simp] theorem State.complete_numBranches (s : State) : (s.complete).numBranches = s.numBranches := rfl
@[simp] theorem State.complete_frozenIdx (s : State) : (s.complete).frozenIdx = s.frozenIdx := rfl
@[simp] theorem State.complete_infoIdx (s : State) : (s.complete).infoIdx = s.infoIdx := rfl
@[simp] theorem State.complete_internal (s : State) : (s.complete).internal = s.internal := rfl
@[simp] theorem State.complete_mem (s : State) : (s.complete).mem = s.mem := rfl
@[simp] theorem State.complete_memTop (s : State) : (s.complete).memTop = s.memTop := rfl
@[simp] theorem State.complete_draws (s : State) : (s.complete).draws = s.draws := rfl
@[simp] theorem State.complete_script (s : State) : (s.complete).script = s.script := rfl
@[simp] theorem State.complete_listing (s : State) : (s.complete).listing = s.listing := rfl

/-! ### State.forgetInternal -/

@[simp] theorem State.forgetInternal_status (s : State) : (s.forgetInternal).status = s.status := rfl
@[simp] theorem State.forgetInternal_cause (s : State) : (s.forgetInternal).cause = s.cause := rfl
@[simp] theorem State.forgetInternal_finfo (s : State) : (s.forgetInternal).finfo = s.finfo := rfl
@[simp] theorem State.forgetInternal_ctrl (s : State) : (s.forgetInternal).ctrl = s.ctrl := rfl
@[simp] theorem State.forgetInternal_frameSize (s : State) : (s.forgetInternal).frameSize = s.frameSize := rfl
@[simp] theorem State.forgetInternal_frameBase (s : State) : (s.forgetInternal).frameBase = s.frameBase := rfl
@[simp] theorem State.forgetInternal_tempBase (s : State) : (s.forgetInternal).tempBase = s.tempBase := rfl
@[simp] theorem State.forgetInternal_maskBase (s : State) : (s.forgetInternal).maskBase = s.maskBase := rfl
@[simp] theorem State.forgetInternal_frozenBase (s : State) : (s.forgetInternal).frozenBase = s.frozenBase := rfl
@[simp] theorem State.forgetInternal_infoBase (s : State) : (s.forgetInternal).infoBase = s.infoBase := rfl
@[simp] theorem State.forgetInternal_stageCount (s : State) : (s.forgetInternal).stageCount = s.stageCount := rfl
@[simp] theorem State.forgetInternal_stage (s : State) : (s.forgetInternal).stage = s.stage := rfl
@[simp] theorem State.forgetInternal_frameHalf (s : State) : (s.forgetInternal).frameHalf = s.frameHalf := rfl
@[simp] theorem State.forgetInternal_numBranches (s : State) : (s.forgetInternal).numBranches = s.numBranches := rfl
@[simp] theorem State.forgetInternal_frozenIdx (s : State) : (s.forgetInternal).frozenIdx = s.frozenIdx := rfl
@[simp] theorem State.forgetInternal_infoIdx (s : State) : (s.forgetInternal).infoIdx = s.infoIdx := rfl
@[simp] theorem State.forgetInternal_internal (s : State) : (s.forgetInternal).internal = freeInternal s.draws := rfl
@[simp] theorem State.forgetInternal_mem (s : State) : (s.forgetInternal).mem = s.mem := rfl
@[simp] theorem State.forgetInternal_memTop (s : State) : (s.forgetInternal).memTop = s.memTop := rfl
@[simp] theorem State.forgetInternal_draws (s : State) : (s.forgetInternal).draws = s.draws + 1 := rfl
@[simp] theorem State.forgetInternal_script (s : State) : (s.forgetInternal).script = s.script := rfl
@[simp] theorem State.forgetInternal_listing (s : State) : (s.forgetInternal).listing = s.listing := rfl

/-! ### State.resetRegisters -/

@[simp] theorem State.resetRegisters_status (s : State) : (s.resetRegisters).status = { busy := false, done := false, err := false, pv := false } := rfl
@[simp] theorem State.resetRegisters_cause (s : State) : (s.resetRegisters).cause = .none := rfl
@[simp] theorem State.resetRegisters_finfo (s : State) : (s.resetRegisters).finfo = 0 := rfl
@[simp] theorem State.resetRegisters_ctrl (s : State) : (s.resetRegisters).ctrl = { ieDone := false, ieErr := false } := rfl
@[simp] theorem State.resetRegisters_frameSize (s : State) : (s.resetRegisters).frameSize = 0 := rfl
@[simp] theorem State.resetRegisters_frameBase (s : State) : (s.resetRegisters).frameBase = 0 := rfl
@[simp] theorem State.resetRegisters_tempBase (s : State) : (s.resetRegisters).tempBase = 0 := rfl
@[simp] theorem State.resetRegisters_maskBase (s : State) : (s.resetRegisters).maskBase = 0 := rfl
@[simp] theorem State.resetRegisters_frozenBase (s : State) : (s.resetRegisters).frozenBase = 0 := rfl
@[simp] theorem State.resetRegisters_infoBase (s : State) : (s.resetRegisters).infoBase = 0 := rfl
@[simp] theorem State.resetRegisters_stageCount (s : State) : (s.resetRegisters).stageCount = 0 := rfl
@[simp] theorem State.resetRegisters_stage (s : State) : (s.resetRegisters).stage = 0 := rfl
@[simp] theorem State.resetRegisters_frameHalf (s : State) : (s.resetRegisters).frameHalf = 0 := rfl
@[simp] theorem State.resetRegisters_numBranches (s : State) : (s.resetRegisters).numBranches = 0 := rfl
@[simp] theorem State.resetRegisters_frozenIdx (s : State) : (s.resetRegisters).frozenIdx = 0 := rfl
@[simp] theorem State.resetRegisters_infoIdx (s : State) : (s.resetRegisters).infoIdx = 0 := rfl
@[simp] theorem State.resetRegisters_internal (s : State) : (s.resetRegisters).internal = freeInternal s.draws := rfl
@[simp] theorem State.resetRegisters_mem (s : State) : (s.resetRegisters).mem = s.mem := rfl
@[simp] theorem State.resetRegisters_memTop (s : State) : (s.resetRegisters).memTop = s.memTop := rfl
@[simp] theorem State.resetRegisters_draws (s : State) : (s.resetRegisters).draws = s.draws + 1 := rfl
@[simp] theorem State.resetRegisters_script (s : State) : (s.resetRegisters).script = s.script := rfl
@[simp] theorem State.resetRegisters_listing (s : State) : (s.resetRegisters).listing = s.listing := rfl

/-! ### State.deriveStages -/

@[simp] theorem State.deriveStages_status (s : State) : (s.deriveStages).status = { s.status with pv := true } := rfl
@[simp] theorem State.deriveStages_cause (s : State) : (s.deriveStages).cause = s.cause := rfl
@[simp] theorem State.deriveStages_finfo (s : State) : (s.deriveStages).finfo = s.finfo := rfl
@[simp] theorem State.deriveStages_ctrl (s : State) : (s.deriveStages).ctrl = s.ctrl := rfl
@[simp] theorem State.deriveStages_frameSize (s : State) : (s.deriveStages).frameSize = s.frameSize := rfl
@[simp] theorem State.deriveStages_frameBase (s : State) : (s.deriveStages).frameBase = s.frameBase := rfl
@[simp] theorem State.deriveStages_tempBase (s : State) : (s.deriveStages).tempBase = s.tempBase := rfl
@[simp] theorem State.deriveStages_maskBase (s : State) : (s.deriveStages).maskBase = s.maskBase := rfl
@[simp] theorem State.deriveStages_frozenBase (s : State) : (s.deriveStages).frozenBase = s.frozenBase := rfl
@[simp] theorem State.deriveStages_infoBase (s : State) : (s.deriveStages).infoBase = s.infoBase := rfl
@[simp] theorem State.deriveStages_stageCount (s : State) : (s.deriveStages).stageCount = log2Reduction s.frameSize := rfl
@[simp] theorem State.deriveStages_stage (s : State) : (s.deriveStages).stage = log2Reduction s.frameSize := rfl
@[simp] theorem State.deriveStages_frameHalf (s : State) : (s.deriveStages).frameHalf = s.frameSize >>> 1 := rfl
@[simp] theorem State.deriveStages_numBranches (s : State) : (s.deriveStages).numBranches = 1 := rfl
@[simp] theorem State.deriveStages_frozenIdx (s : State) : (s.deriveStages).frozenIdx = s.frozenIdx := rfl
@[simp] theorem State.deriveStages_infoIdx (s : State) : (s.deriveStages).infoIdx = s.infoIdx := rfl
@[simp] theorem State.deriveStages_internal (s : State) : (s.deriveStages).internal = s.internal := rfl
@[simp] theorem State.deriveStages_mem (s : State) : (s.deriveStages).mem = s.mem := rfl
@[simp] theorem State.deriveStages_memTop (s : State) : (s.deriveStages).memTop = s.memTop := rfl
@[simp] theorem State.deriveStages_draws (s : State) : (s.deriveStages).draws = s.draws := rfl
@[simp] theorem State.deriveStages_script (s : State) : (s.deriveStages).script = s.script := rfl
@[simp] theorem State.deriveStages_listing (s : State) : (s.deriveStages).listing = s.listing := rfl

/-! ### State.updateStages -/

@[simp] theorem State.updateStages_status (s : State) : (s.updateStages).status = s.status := rfl
@[simp] theorem State.updateStages_cause (s : State) : (s.updateStages).cause = s.cause := rfl
@[simp] theorem State.updateStages_finfo (s : State) : (s.updateStages).finfo = s.finfo := rfl
@[simp] theorem State.updateStages_ctrl (s : State) : (s.updateStages).ctrl = s.ctrl := rfl
@[simp] theorem State.updateStages_frameSize (s : State) : (s.updateStages).frameSize = s.frameSize := rfl
@[simp] theorem State.updateStages_frameBase (s : State) : (s.updateStages).frameBase = s.frameBase := rfl
@[simp] theorem State.updateStages_tempBase (s : State) : (s.updateStages).tempBase = s.tempBase := rfl
@[simp] theorem State.updateStages_maskBase (s : State) : (s.updateStages).maskBase = s.maskBase := rfl
@[simp] theorem State.updateStages_frozenBase (s : State) : (s.updateStages).frozenBase = s.frozenBase := rfl
@[simp] theorem State.updateStages_infoBase (s : State) : (s.updateStages).infoBase = s.infoBase := rfl
@[simp] theorem State.updateStages_stageCount (s : State) : (s.updateStages).stageCount = s.stageCount := rfl
@[simp] theorem State.updateStages_stage (s : State) : (s.updateStages).stage = s.stage - 1 := rfl
@[simp] theorem State.updateStages_frameHalf (s : State) : (s.updateStages).frameHalf = s.frameHalf >>> 1 := rfl
@[simp] theorem State.updateStages_numBranches (s : State) : (s.updateStages).numBranches = s.numBranches <<< 1 := rfl
@[simp] theorem State.updateStages_frozenIdx (s : State) : (s.updateStages).frozenIdx = s.frozenIdx := rfl
@[simp] theorem State.updateStages_infoIdx (s : State) : (s.updateStages).infoIdx = s.infoIdx := rfl
@[simp] theorem State.updateStages_internal (s : State) : (s.updateStages).internal = s.internal := rfl
@[simp] theorem State.updateStages_mem (s : State) : (s.updateStages).mem = s.mem := rfl
@[simp] theorem State.updateStages_memTop (s : State) : (s.updateStages).memTop = s.memTop := rfl
@[simp] theorem State.updateStages_draws (s : State) : (s.updateStages).draws = s.draws := rfl
@[simp] theorem State.updateStages_script (s : State) : (s.updateStages).script = s.script := rfl
@[simp] theorem State.updateStages_listing (s : State) : (s.updateStages).listing = s.listing := rfl

/-! ### State.finishStages -/

@[simp] theorem State.finishStages_status (s : State) : (s.finishStages).status = s.status := rfl
@[simp] theorem State.finishStages_cause (s : State) : (s.finishStages).cause = s.cause := rfl
@[simp] theorem State.finishStages_finfo (s : State) : (s.finishStages).finfo = s.finfo := rfl
@[simp] theorem State.finishStages_ctrl (s : State) : (s.finishStages).ctrl = s.ctrl := rfl
@[simp] theorem State.finishStages_frameSize (s : State) : (s.finishStages).frameSize = s.frameSize := rfl
@[simp] theorem State.finishStages_frameBase (s : State) : (s.finishStages).frameBase = s.frameBase := rfl
@[simp] theorem State.finishStages_tempBase (s : State) : (s.finishStages).tempBase = s.tempBase := rfl
@[simp] theorem State.finishStages_maskBase (s : State) : (s.finishStages).maskBase = s.maskBase := rfl
@[simp] theorem State.finishStages_frozenBase (s : State) : (s.finishStages).frozenBase = s.frozenBase := rfl
@[simp] theorem State.finishStages_infoBase (s : State) : (s.finishStages).infoBase = s.infoBase := rfl
@[simp] theorem State.finishStages_stageCount (s : State) : (s.finishStages).stageCount = s.stageCount := rfl
@[simp] theorem State.finishStages_stage (s : State) : (s.finishStages).stage = 0 := rfl
@[simp] theorem State.finishStages_frameHalf (s : State) : (s.finishStages).frameHalf = 0 := rfl
@[simp] theorem State.finishStages_numBranches (s : State) : (s.finishStages).numBranches = s.frameSize := rfl
@[simp] theorem State.finishStages_frozenIdx (s : State) : (s.finishStages).frozenIdx = s.frozenIdx := rfl
@[simp] theorem State.finishStages_infoIdx (s : State) : (s.finishStages).infoIdx = s.infoIdx := rfl
@[simp] theorem State.finishStages_internal (s : State) : (s.finishStages).internal = s.internal := rfl
@[simp] theorem State.finishStages_mem (s : State) : (s.finishStages).mem = s.mem := rfl
@[simp] theorem State.finishStages_memTop (s : State) : (s.finishStages).memTop = s.memTop := rfl
@[simp] theorem State.finishStages_draws (s : State) : (s.finishStages).draws = s.draws := rfl
@[simp] theorem State.finishStages_script (s : State) : (s.finishStages).script = s.script := rfl
@[simp] theorem State.finishStages_listing (s : State) : (s.finishStages).listing = s.listing := rfl

/-! ### State.writeFrameSize -/

@[simp] theorem State.writeFrameSize_status (w : Word) (s : State) : (s.writeFrameSize w).status = { s.status with pv := false } := rfl
@[simp] theorem State.writeFrameSize_cause (w : Word) (s : State) : (s.writeFrameSize w).cause = s.cause := rfl
@[simp] theorem State.writeFrameSize_finfo (w : Word) (s : State) : (s.writeFrameSize w).finfo = s.finfo := rfl
@[simp] theorem State.writeFrameSize_ctrl (w : Word) (s : State) : (s.writeFrameSize w).ctrl = s.ctrl := rfl
@[simp] theorem State.writeFrameSize_frameSize (w : Word) (s : State) : (s.writeFrameSize w).frameSize = w := rfl
@[simp] theorem State.writeFrameSize_frameBase (w : Word) (s : State) : (s.writeFrameSize w).frameBase = s.frameBase := rfl
@[simp] theorem State.writeFrameSize_tempBase (w : Word) (s : State) : (s.writeFrameSize w).tempBase = s.tempBase := rfl
@[simp] theorem State.writeFrameSize_maskBase (w : Word) (s : State) : (s.writeFrameSize w).maskBase = s.maskBase := rfl
@[simp] theorem State.writeFrameSize_frozenBase (w : Word) (s : State) : (s.writeFrameSize w).frozenBase = s.frozenBase := rfl
@[simp] theorem State.writeFrameSize_infoBase (w : Word) (s : State) : (s.writeFrameSize w).infoBase = s.infoBase := rfl
@[simp] theorem State.writeFrameSize_stageCount (w : Word) (s : State) : (s.writeFrameSize w).stageCount = s.stageCount := rfl
@[simp] theorem State.writeFrameSize_stage (w : Word) (s : State) : (s.writeFrameSize w).stage = s.stage := rfl
@[simp] theorem State.writeFrameSize_frameHalf (w : Word) (s : State) : (s.writeFrameSize w).frameHalf = s.frameHalf := rfl
@[simp] theorem State.writeFrameSize_numBranches (w : Word) (s : State) : (s.writeFrameSize w).numBranches = s.numBranches := rfl
@[simp] theorem State.writeFrameSize_frozenIdx (w : Word) (s : State) : (s.writeFrameSize w).frozenIdx = s.frozenIdx := rfl
@[simp] theorem State.writeFrameSize_infoIdx (w : Word) (s : State) : (s.writeFrameSize w).infoIdx = s.infoIdx := rfl
@[simp] theorem State.writeFrameSize_internal (w : Word) (s : State) : (s.writeFrameSize w).internal = s.internal := rfl
@[simp] theorem State.writeFrameSize_mem (w : Word) (s : State) : (s.writeFrameSize w).mem = s.mem := rfl
@[simp] theorem State.writeFrameSize_memTop (w : Word) (s : State) : (s.writeFrameSize w).memTop = s.memTop := rfl
@[simp] theorem State.writeFrameSize_draws (w : Word) (s : State) : (s.writeFrameSize w).draws = s.draws := rfl
@[simp] theorem State.writeFrameSize_script (w : Word) (s : State) : (s.writeFrameSize w).script = s.script := rfl
@[simp] theorem State.writeFrameSize_listing (w : Word) (s : State) : (s.writeFrameSize w).listing = s.listing := rfl

/-! ### State.show -/

@[simp] theorem State.show_status (l : Shown) (s : State) : (s.show l).status = s.status := rfl
@[simp] theorem State.show_cause (l : Shown) (s : State) : (s.show l).cause = s.cause := rfl
@[simp] theorem State.show_finfo (l : Shown) (s : State) : (s.show l).finfo = s.finfo := rfl
@[simp] theorem State.show_ctrl (l : Shown) (s : State) : (s.show l).ctrl = s.ctrl := rfl
@[simp] theorem State.show_frameSize (l : Shown) (s : State) : (s.show l).frameSize = s.frameSize := rfl
@[simp] theorem State.show_frameBase (l : Shown) (s : State) : (s.show l).frameBase = s.frameBase := rfl
@[simp] theorem State.show_tempBase (l : Shown) (s : State) : (s.show l).tempBase = s.tempBase := rfl
@[simp] theorem State.show_maskBase (l : Shown) (s : State) : (s.show l).maskBase = s.maskBase := rfl
@[simp] theorem State.show_frozenBase (l : Shown) (s : State) : (s.show l).frozenBase = s.frozenBase := rfl
@[simp] theorem State.show_infoBase (l : Shown) (s : State) : (s.show l).infoBase = s.infoBase := rfl
@[simp] theorem State.show_stageCount (l : Shown) (s : State) : (s.show l).stageCount = s.stageCount := rfl
@[simp] theorem State.show_stage (l : Shown) (s : State) : (s.show l).stage = s.stage := rfl
@[simp] theorem State.show_frameHalf (l : Shown) (s : State) : (s.show l).frameHalf = s.frameHalf := rfl
@[simp] theorem State.show_numBranches (l : Shown) (s : State) : (s.show l).numBranches = s.numBranches := rfl
@[simp] theorem State.show_frozenIdx (l : Shown) (s : State) : (s.show l).frozenIdx = s.frozenIdx := rfl
@[simp] theorem State.show_infoIdx (l : Shown) (s : State) : (s.show l).infoIdx = s.infoIdx := rfl
@[simp] theorem State.show_internal (l : Shown) (s : State) : (s.show l).internal = s.internal := rfl
@[simp] theorem State.show_mem (l : Shown) (s : State) : (s.show l).mem = s.mem := rfl
@[simp] theorem State.show_memTop (l : Shown) (s : State) : (s.show l).memTop = s.memTop := rfl
@[simp] theorem State.show_draws (l : Shown) (s : State) : (s.show l).draws = s.draws := rfl
@[simp] theorem State.show_script (l : Shown) (s : State) : (s.show l).script = s.script := rfl
@[simp] theorem State.show_listing (l : Shown) (s : State) : (s.show l).listing = l :: s.listing := rfl

/-! ### State.push -/

@[simp] theorem State.push_status (ms : List HostMove) (s : State) : (s.push ms).status = s.status := rfl
@[simp] theorem State.push_cause (ms : List HostMove) (s : State) : (s.push ms).cause = s.cause := rfl
@[simp] theorem State.push_finfo (ms : List HostMove) (s : State) : (s.push ms).finfo = s.finfo := rfl
@[simp] theorem State.push_ctrl (ms : List HostMove) (s : State) : (s.push ms).ctrl = s.ctrl := rfl
@[simp] theorem State.push_frameSize (ms : List HostMove) (s : State) : (s.push ms).frameSize = s.frameSize := rfl
@[simp] theorem State.push_frameBase (ms : List HostMove) (s : State) : (s.push ms).frameBase = s.frameBase := rfl
@[simp] theorem State.push_tempBase (ms : List HostMove) (s : State) : (s.push ms).tempBase = s.tempBase := rfl
@[simp] theorem State.push_maskBase (ms : List HostMove) (s : State) : (s.push ms).maskBase = s.maskBase := rfl
@[simp] theorem State.push_frozenBase (ms : List HostMove) (s : State) : (s.push ms).frozenBase = s.frozenBase := rfl
@[simp] theorem State.push_infoBase (ms : List HostMove) (s : State) : (s.push ms).infoBase = s.infoBase := rfl
@[simp] theorem State.push_stageCount (ms : List HostMove) (s : State) : (s.push ms).stageCount = s.stageCount := rfl
@[simp] theorem State.push_stage (ms : List HostMove) (s : State) : (s.push ms).stage = s.stage := rfl
@[simp] theorem State.push_frameHalf (ms : List HostMove) (s : State) : (s.push ms).frameHalf = s.frameHalf := rfl
@[simp] theorem State.push_numBranches (ms : List HostMove) (s : State) : (s.push ms).numBranches = s.numBranches := rfl
@[simp] theorem State.push_frozenIdx (ms : List HostMove) (s : State) : (s.push ms).frozenIdx = s.frozenIdx := rfl
@[simp] theorem State.push_infoIdx (ms : List HostMove) (s : State) : (s.push ms).infoIdx = s.infoIdx := rfl
@[simp] theorem State.push_internal (ms : List HostMove) (s : State) : (s.push ms).internal = s.internal := rfl
@[simp] theorem State.push_mem (ms : List HostMove) (s : State) : (s.push ms).mem = s.mem := rfl
@[simp] theorem State.push_memTop (ms : List HostMove) (s : State) : (s.push ms).memTop = s.memTop := rfl
@[simp] theorem State.push_draws (ms : List HostMove) (s : State) : (s.push ms).draws = s.draws := rfl
@[simp] theorem State.push_script (ms : List HostMove) (s : State) : (s.push ms).script = ms ++ s.script := rfl
@[simp] theorem State.push_listing (ms : List HostMove) (s : State) : (s.push ms).listing = s.listing := rfl

/-! ### The run of a command -/

@[simp] theorem Run.clearIndices_status (r : Run) : r.clearIndices.st.status = r.st.status := rfl
@[simp] theorem Run.clearIndices_cause (r : Run) : r.clearIndices.st.cause = r.st.cause := rfl
@[simp] theorem Run.clearIndices_finfo (r : Run) : r.clearIndices.st.finfo = r.st.finfo := rfl
@[simp] theorem Run.clearIndices_ctrl (r : Run) : r.clearIndices.st.ctrl = r.st.ctrl := rfl
@[simp] theorem Run.clearIndices_frameSize (r : Run) : r.clearIndices.st.frameSize = r.st.frameSize := rfl
@[simp] theorem Run.clearIndices_frameBase (r : Run) : r.clearIndices.st.frameBase = r.st.frameBase := rfl
@[simp] theorem Run.clearIndices_tempBase (r : Run) : r.clearIndices.st.tempBase = r.st.tempBase := rfl
@[simp] theorem Run.clearIndices_maskBase (r : Run) : r.clearIndices.st.maskBase = r.st.maskBase := rfl
@[simp] theorem Run.clearIndices_frozenBase (r : Run) : r.clearIndices.st.frozenBase = r.st.frozenBase := rfl
@[simp] theorem Run.clearIndices_infoBase (r : Run) : r.clearIndices.st.infoBase = r.st.infoBase := rfl
@[simp] theorem Run.clearIndices_stageCount (r : Run) : r.clearIndices.st.stageCount = r.st.stageCount := rfl
@[simp] theorem Run.clearIndices_stage (r : Run) : r.clearIndices.st.stage = r.st.stage := rfl
@[simp] theorem Run.clearIndices_frameHalf (r : Run) : r.clearIndices.st.frameHalf = r.st.frameHalf := rfl
@[simp] theorem Run.clearIndices_numBranches (r : Run) : r.clearIndices.st.numBranches = r.st.numBranches := rfl
@[simp] theorem Run.clearIndices_frozenIdx (r : Run) : r.clearIndices.st.frozenIdx = 0 := rfl
@[simp] theorem Run.clearIndices_infoIdx (r : Run) : r.clearIndices.st.infoIdx = 0 := rfl
@[simp] theorem Run.clearIndices_internal (r : Run) : r.clearIndices.st.internal = r.st.internal := rfl
@[simp] theorem Run.clearIndices_mem (r : Run) : r.clearIndices.st.mem = r.st.mem := rfl
@[simp] theorem Run.clearIndices_memTop (r : Run) : r.clearIndices.st.memTop = r.st.memTop := rfl
@[simp] theorem Run.clearIndices_draws (r : Run) : r.clearIndices.st.draws = r.st.draws := rfl
@[simp] theorem Run.clearIndices_script (r : Run) : r.clearIndices.st.script = r.st.script := rfl
@[simp] theorem Run.clearIndices_listing (r : Run) : r.clearIndices.st.listing = r.st.listing := rfl
@[simp] theorem Run.clearIndices_log (r : Run) : r.clearIndices.log = r.log := rfl

@[simp] theorem Run.countFrozen_status (r : Run) : r.countFrozen.st.status = r.st.status := rfl
@[simp] theorem Run.countFrozen_cause (r : Run) : r.countFrozen.st.cause = r.st.cause := rfl
@[simp] theorem Run.countFrozen_finfo (r : Run) : r.countFrozen.st.finfo = r.st.finfo := rfl
@[simp] theorem Run.countFrozen_ctrl (r : Run) : r.countFrozen.st.ctrl = r.st.ctrl := rfl
@[simp] theorem Run.countFrozen_frameSize (r : Run) : r.countFrozen.st.frameSize = r.st.frameSize := rfl
@[simp] theorem Run.countFrozen_frameBase (r : Run) : r.countFrozen.st.frameBase = r.st.frameBase := rfl
@[simp] theorem Run.countFrozen_tempBase (r : Run) : r.countFrozen.st.tempBase = r.st.tempBase := rfl
@[simp] theorem Run.countFrozen_maskBase (r : Run) : r.countFrozen.st.maskBase = r.st.maskBase := rfl
@[simp] theorem Run.countFrozen_frozenBase (r : Run) : r.countFrozen.st.frozenBase = r.st.frozenBase := rfl
@[simp] theorem Run.countFrozen_infoBase (r : Run) : r.countFrozen.st.infoBase = r.st.infoBase := rfl
@[simp] theorem Run.countFrozen_stageCount (r : Run) : r.countFrozen.st.stageCount = r.st.stageCount := rfl
@[simp] theorem Run.countFrozen_stage (r : Run) : r.countFrozen.st.stage = r.st.stage := rfl
@[simp] theorem Run.countFrozen_frameHalf (r : Run) : r.countFrozen.st.frameHalf = r.st.frameHalf := rfl
@[simp] theorem Run.countFrozen_numBranches (r : Run) : r.countFrozen.st.numBranches = r.st.numBranches := rfl
@[simp] theorem Run.countFrozen_frozenIdx (r : Run) : r.countFrozen.st.frozenIdx = r.st.frozenIdx + 1 := rfl
@[simp] theorem Run.countFrozen_infoIdx (r : Run) : r.countFrozen.st.infoIdx = r.st.infoIdx := rfl
@[simp] theorem Run.countFrozen_internal (r : Run) : r.countFrozen.st.internal = r.st.internal := rfl
@[simp] theorem Run.countFrozen_mem (r : Run) : r.countFrozen.st.mem = r.st.mem := rfl
@[simp] theorem Run.countFrozen_memTop (r : Run) : r.countFrozen.st.memTop = r.st.memTop := rfl
@[simp] theorem Run.countFrozen_draws (r : Run) : r.countFrozen.st.draws = r.st.draws := rfl
@[simp] theorem Run.countFrozen_script (r : Run) : r.countFrozen.st.script = r.st.script := rfl
@[simp] theorem Run.countFrozen_listing (r : Run) : r.countFrozen.st.listing = r.st.listing := rfl
@[simp] theorem Run.countFrozen_log (r : Run) : r.countFrozen.log = r.log := rfl

@[simp] theorem Run.countInfo_status (r : Run) : r.countInfo.st.status = r.st.status := rfl
@[simp] theorem Run.countInfo_cause (r : Run) : r.countInfo.st.cause = r.st.cause := rfl
@[simp] theorem Run.countInfo_finfo (r : Run) : r.countInfo.st.finfo = r.st.finfo := rfl
@[simp] theorem Run.countInfo_ctrl (r : Run) : r.countInfo.st.ctrl = r.st.ctrl := rfl
@[simp] theorem Run.countInfo_frameSize (r : Run) : r.countInfo.st.frameSize = r.st.frameSize := rfl
@[simp] theorem Run.countInfo_frameBase (r : Run) : r.countInfo.st.frameBase = r.st.frameBase := rfl
@[simp] theorem Run.countInfo_tempBase (r : Run) : r.countInfo.st.tempBase = r.st.tempBase := rfl
@[simp] theorem Run.countInfo_maskBase (r : Run) : r.countInfo.st.maskBase = r.st.maskBase := rfl
@[simp] theorem Run.countInfo_frozenBase (r : Run) : r.countInfo.st.frozenBase = r.st.frozenBase := rfl
@[simp] theorem Run.countInfo_infoBase (r : Run) : r.countInfo.st.infoBase = r.st.infoBase := rfl
@[simp] theorem Run.countInfo_stageCount (r : Run) : r.countInfo.st.stageCount = r.st.stageCount := rfl
@[simp] theorem Run.countInfo_stage (r : Run) : r.countInfo.st.stage = r.st.stage := rfl
@[simp] theorem Run.countInfo_frameHalf (r : Run) : r.countInfo.st.frameHalf = r.st.frameHalf := rfl
@[simp] theorem Run.countInfo_numBranches (r : Run) : r.countInfo.st.numBranches = r.st.numBranches := rfl
@[simp] theorem Run.countInfo_frozenIdx (r : Run) : r.countInfo.st.frozenIdx = r.st.frozenIdx := rfl
@[simp] theorem Run.countInfo_infoIdx (r : Run) : r.countInfo.st.infoIdx = r.st.infoIdx + 1 := rfl
@[simp] theorem Run.countInfo_internal (r : Run) : r.countInfo.st.internal = r.st.internal := rfl
@[simp] theorem Run.countInfo_mem (r : Run) : r.countInfo.st.mem = r.st.mem := rfl
@[simp] theorem Run.countInfo_memTop (r : Run) : r.countInfo.st.memTop = r.st.memTop := rfl
@[simp] theorem Run.countInfo_draws (r : Run) : r.countInfo.st.draws = r.st.draws := rfl
@[simp] theorem Run.countInfo_script (r : Run) : r.countInfo.st.script = r.st.script := rfl
@[simp] theorem Run.countInfo_listing (r : Run) : r.countInfo.st.listing = r.st.listing := rfl
@[simp] theorem Run.countInfo_log (r : Run) : r.countInfo.log = r.log := rfl

@[simp] theorem Run.store_status (a : Nat) (b : Byte) (r : Run) : (r.store a b).st.status = r.st.status := rfl
@[simp] theorem Run.store_cause (a : Nat) (b : Byte) (r : Run) : (r.store a b).st.cause = r.st.cause := rfl
@[simp] theorem Run.store_finfo (a : Nat) (b : Byte) (r : Run) : (r.store a b).st.finfo = r.st.finfo := rfl
@[simp] theorem Run.store_ctrl (a : Nat) (b : Byte) (r : Run) : (r.store a b).st.ctrl = r.st.ctrl := rfl
@[simp] theorem Run.store_frameSize (a : Nat) (b : Byte) (r : Run) : (r.store a b).st.frameSize = r.st.frameSize := rfl
@[simp] theorem Run.store_frameBase (a : Nat) (b : Byte) (r : Run) : (r.store a b).st.frameBase = r.st.frameBase := rfl
@[simp] theorem Run.store_tempBase (a : Nat) (b : Byte) (r : Run) : (r.store a b).st.tempBase = r.st.tempBase := rfl
@[simp] theorem Run.store_maskBase (a : Nat) (b : Byte) (r : Run) : (r.store a b).st.maskBase = r.st.maskBase := rfl
@[simp] theorem Run.store_frozenBase (a : Nat) (b : Byte) (r : Run) : (r.store a b).st.frozenBase = r.st.frozenBase := rfl
@[simp] theorem Run.store_infoBase (a : Nat) (b : Byte) (r : Run) : (r.store a b).st.infoBase = r.st.infoBase := rfl
@[simp] theorem Run.store_stageCount (a : Nat) (b : Byte) (r : Run) : (r.store a b).st.stageCount = r.st.stageCount := rfl
@[simp] theorem Run.store_stage (a : Nat) (b : Byte) (r : Run) : (r.store a b).st.stage = r.st.stage := rfl
@[simp] theorem Run.store_frameHalf (a : Nat) (b : Byte) (r : Run) : (r.store a b).st.frameHalf = r.st.frameHalf := rfl
@[simp] theorem Run.store_numBranches (a : Nat) (b : Byte) (r : Run) : (r.store a b).st.numBranches = r.st.numBranches := rfl
@[simp] theorem Run.store_frozenIdx (a : Nat) (b : Byte) (r : Run) : (r.store a b).st.frozenIdx = r.st.frozenIdx := rfl
@[simp] theorem Run.store_infoIdx (a : Nat) (b : Byte) (r : Run) : (r.store a b).st.infoIdx = r.st.infoIdx := rfl
@[simp] theorem Run.store_internal (a : Nat) (b : Byte) (r : Run) : (r.store a b).st.internal = r.st.internal := rfl
@[simp] theorem Run.store_mem (a : Nat) (b : Byte) (r : Run) : (r.store a b).st.mem = Memory.write r.st.mem a b := rfl
@[simp] theorem Run.store_memTop (a : Nat) (b : Byte) (r : Run) : (r.store a b).st.memTop = r.st.memTop := rfl
@[simp] theorem Run.store_draws (a : Nat) (b : Byte) (r : Run) : (r.store a b).st.draws = r.st.draws := rfl
@[simp] theorem Run.store_script (a : Nat) (b : Byte) (r : Run) : (r.store a b).st.script = r.st.script := rfl
@[simp] theorem Run.store_listing (a : Nat) (b : Byte) (r : Run) : (r.store a b).st.listing = r.st.listing := rfl
@[simp] theorem Run.store_log (a : Nat) (b : Byte) (r : Run) : (r.store a b).log = (a, b) :: r.log := rfl

@[simp] theorem Run.raise_st (c : Cause) (info : Nat) (r : Run) : (r.raise c info).st = r.st.raise c info := rfl
@[simp] theorem Run.raise_log (c : Cause) (info : Nat) (r : Run) : (r.raise c info).log = r.log := rfl

/-! ### Sizes and addresses follow their registers -/

@[simp] theorem State.raise_memSize (c : Cause) (info : Nat) (s : State) : (s.raise c info).memSize = s.memSize := rfl
@[simp] theorem State.raise_frameLength (c : Cause) (info : Nat) (s : State) : (s.raise c info).frameLength = s.frameLength := rfl
@[simp] theorem State.raise_tempAddr (c : Cause) (info : Nat) (s : State) (i : Nat) : (s.raise c info).tempAddr i = s.tempAddr i := rfl
@[simp] theorem State.raise_frameAddr (c : Cause) (info : Nat) (s : State) (i : Nat) : (s.raise c info).frameAddr i = s.frameAddr i := rfl
@[simp] theorem State.raise_maskAddr (c : Cause) (info : Nat) (s : State) (i : Nat) : (s.raise c info).maskAddr i = s.maskAddr i := rfl
@[simp] theorem State.raise_frozenAddr (c : Cause) (info : Nat) (s : State) (i : Nat) : (s.raise c info).frozenAddr i = s.frozenAddr i := rfl
@[simp] theorem State.raise_infoAddr (c : Cause) (info : Nat) (s : State) (i : Nat) : (s.raise c info).infoAddr i = s.infoAddr i := rfl
@[simp] theorem State.accept_memSize (s : State) : (s.accept).memSize = s.memSize := rfl
@[simp] theorem State.accept_frameLength (s : State) : (s.accept).frameLength = s.frameLength := rfl
@[simp] theorem State.accept_tempAddr (s : State) (i : Nat) : (s.accept).tempAddr i = s.tempAddr i := rfl
@[simp] theorem State.accept_frameAddr (s : State) (i : Nat) : (s.accept).frameAddr i = s.frameAddr i := rfl
@[simp] theorem State.accept_maskAddr (s : State) (i : Nat) : (s.accept).maskAddr i = s.maskAddr i := rfl
@[simp] theorem State.accept_frozenAddr (s : State) (i : Nat) : (s.accept).frozenAddr i = s.frozenAddr i := rfl
@[simp] theorem State.accept_infoAddr (s : State) (i : Nat) : (s.accept).infoAddr i = s.infoAddr i := rfl
@[simp] theorem State.complete_memSize (s : State) : (s.complete).memSize = s.memSize := rfl
@[simp] theorem State.complete_frameLength (s : State) : (s.complete).frameLength = s.frameLength := rfl
@[simp] theorem State.complete_tempAddr (s : State) (i : Nat) : (s.complete).tempAddr i = s.tempAddr i := rfl
@[simp] theorem State.complete_frameAddr (s : State) (i : Nat) : (s.complete).frameAddr i = s.frameAddr i := rfl
@[simp] theorem State.complete_maskAddr (s : State) (i : Nat) : (s.complete).maskAddr i = s.maskAddr i := rfl
@[simp] theorem State.complete_frozenAddr (s : State) (i : Nat) : (s.complete).frozenAddr i = s.frozenAddr i := rfl
@[simp] theorem State.complete_infoAddr (s : State) (i : Nat) : (s.complete).infoAddr i = s.infoAddr i := rfl
@[simp] theorem State.forgetInternal_memSize (s : State) : (s.forgetInternal).memSize = s.memSize := rfl
@[simp] theorem State.forgetInternal_frameLength (s : State) : (s.forgetInternal).frameLength = s.frameLength := rfl
@[simp] theorem State.forgetInternal_tempAddr (s : State) (i : Nat) : (s.forgetInternal).tempAddr i = s.tempAddr i := rfl
@[simp] theorem State.forgetInternal_frameAddr (s : State) (i : Nat) : (s.forgetInternal).frameAddr i = s.frameAddr i := rfl
@[simp] theorem State.forgetInternal_maskAddr (s : State) (i : Nat) : (s.forgetInternal).maskAddr i = s.maskAddr i := rfl
@[simp] theorem State.forgetInternal_frozenAddr (s : State) (i : Nat) : (s.forgetInternal).frozenAddr i = s.frozenAddr i := rfl
@[simp] theorem State.forgetInternal_infoAddr (s : State) (i : Nat) : (s.forgetInternal).infoAddr i = s.infoAddr i := rfl
@[simp] theorem State.deriveStages_memSize (s : State) : (s.deriveStages).memSize = s.memSize := rfl
@[simp] theorem State.deriveStages_frameLength (s : State) : (s.deriveStages).frameLength = s.frameLength := rfl
@[simp] theorem State.deriveStages_tempAddr (s : State) (i : Nat) : (s.deriveStages).tempAddr i = s.tempAddr i := rfl
@[simp] theorem State.deriveStages_frameAddr (s : State) (i : Nat) : (s.deriveStages).frameAddr i = s.frameAddr i := rfl
@[simp] theorem State.deriveStages_maskAddr (s : State) (i : Nat) : (s.deriveStages).maskAddr i = s.maskAddr i := rfl
@[simp] theorem State.deriveStages_frozenAddr (s : State) (i : Nat) : (s.deriveStages).frozenAddr i = s.frozenAddr i := rfl
@[simp] theorem State.deriveStages_infoAddr (s : State) (i : Nat) : (s.deriveStages).infoAddr i = s.infoAddr i := rfl
@[simp] theorem State.updateStages_memSize (s : State) : (s.updateStages).memSize = s.memSize := rfl
@[simp] theorem State.updateStages_frameLength (s : State) : (s.updateStages).frameLength = s.frameLength := rfl
@[simp] theorem State.updateStages_tempAddr (s : State) (i : Nat) : (s.updateStages).tempAddr i = s.tempAddr i := rfl
@[simp] theorem State.updateStages_frameAddr (s : State) (i : Nat) : (s.updateStages).frameAddr i = s.frameAddr i := rfl
@[simp] theorem State.updateStages_maskAddr (s : State) (i : Nat) : (s.updateStages).maskAddr i = s.maskAddr i := rfl
@[simp] theorem State.updateStages_frozenAddr (s : State) (i : Nat) : (s.updateStages).frozenAddr i = s.frozenAddr i := rfl
@[simp] theorem State.updateStages_infoAddr (s : State) (i : Nat) : (s.updateStages).infoAddr i = s.infoAddr i := rfl
@[simp] theorem State.finishStages_memSize (s : State) : (s.finishStages).memSize = s.memSize := rfl
@[simp] theorem State.finishStages_frameLength (s : State) : (s.finishStages).frameLength = s.frameLength := rfl
@[simp] theorem State.finishStages_tempAddr (s : State) (i : Nat) : (s.finishStages).tempAddr i = s.tempAddr i := rfl
@[simp] theorem State.finishStages_frameAddr (s : State) (i : Nat) : (s.finishStages).frameAddr i = s.frameAddr i := rfl
@[simp] theorem State.finishStages_maskAddr (s : State) (i : Nat) : (s.finishStages).maskAddr i = s.maskAddr i := rfl
@[simp] theorem State.finishStages_frozenAddr (s : State) (i : Nat) : (s.finishStages).frozenAddr i = s.frozenAddr i := rfl
@[simp] theorem State.finishStages_infoAddr (s : State) (i : Nat) : (s.finishStages).infoAddr i = s.infoAddr i := rfl
@[simp] theorem Run.store_memSize (a : Nat) (b : Byte) (r : Run) : ((r.store a b).st).memSize = r.st.memSize := rfl
@[simp] theorem Run.store_frameLength (a : Nat) (b : Byte) (r : Run) : ((r.store a b).st).frameLength = r.st.frameLength := rfl
@[simp] theorem Run.store_tempAddr (a : Nat) (b : Byte) (r : Run) (i : Nat) : ((r.store a b).st).tempAddr i = r.st.tempAddr i := rfl
@[simp] theorem Run.store_frameAddr (a : Nat) (b : Byte) (r : Run) (i : Nat) : ((r.store a b).st).frameAddr i = r.st.frameAddr i := rfl
@[simp] theorem Run.store_maskAddr (a : Nat) (b : Byte) (r : Run) (i : Nat) : ((r.store a b).st).maskAddr i = r.st.maskAddr i := rfl
@[simp] theorem Run.store_frozenAddr (a : Nat) (b : Byte) (r : Run) (i : Nat) : ((r.store a b).st).frozenAddr i = r.st.frozenAddr i := rfl
@[simp] theorem Run.store_infoAddr (a : Nat) (b : Byte) (r : Run) (i : Nat) : ((r.store a b).st).infoAddr i = r.st.infoAddr i := rfl
@[simp] theorem Run.clearIndices_memSize (r : Run) : (r.clearIndices.st).memSize = r.st.memSize := rfl
@[simp] theorem Run.clearIndices_frameLength (r : Run) : (r.clearIndices.st).frameLength = r.st.frameLength := rfl
@[simp] theorem Run.clearIndices_tempAddr (r : Run) (i : Nat) : (r.clearIndices.st).tempAddr i = r.st.tempAddr i := rfl
@[simp] theorem Run.clearIndices_frameAddr (r : Run) (i : Nat) : (r.clearIndices.st).frameAddr i = r.st.frameAddr i := rfl
@[simp] theorem Run.clearIndices_maskAddr (r : Run) (i : Nat) : (r.clearIndices.st).maskAddr i = r.st.maskAddr i := rfl
@[simp] theorem Run.clearIndices_frozenAddr (r : Run) (i : Nat) : (r.clearIndices.st).frozenAddr i = r.st.frozenAddr i := rfl
@[simp] theorem Run.clearIndices_infoAddr (r : Run) (i : Nat) : (r.clearIndices.st).infoAddr i = r.st.infoAddr i := rfl
@[simp] theorem Run.countFrozen_memSize (r : Run) : (r.countFrozen.st).memSize = r.st.memSize := rfl
@[simp] theorem Run.countFrozen_frameLength (r : Run) : (r.countFrozen.st).frameLength = r.st.frameLength := rfl
@[simp] theorem Run.countFrozen_tempAddr (r : Run) (i : Nat) : (r.countFrozen.st).tempAddr i = r.st.tempAddr i := rfl
@[simp] theorem Run.countFrozen_frameAddr (r : Run) (i : Nat) : (r.countFrozen.st).frameAddr i = r.st.frameAddr i := rfl
@[simp] theorem Run.countFrozen_maskAddr (r : Run) (i : Nat) : (r.countFrozen.st).maskAddr i = r.st.maskAddr i := rfl
@[simp] theorem Run.countFrozen_frozenAddr (r : Run) (i : Nat) : (r.countFrozen.st).frozenAddr i = r.st.frozenAddr i := rfl
@[simp] theorem Run.countFrozen_infoAddr (r : Run) (i : Nat) : (r.countFrozen.st).infoAddr i = r.st.infoAddr i := rfl
@[simp] theorem Run.countInfo_memSize (r : Run) : (r.countInfo.st).memSize = r.st.memSize := rfl
@[simp] theorem Run.countInfo_frameLength (r : Run) : (r.countInfo.st).frameLength = r.st.frameLength := rfl
@[simp] theorem Run.countInfo_tempAddr (r : Run) (i : Nat) : (r.countInfo.st).tempAddr i = r.st.tempAddr i := rfl
@[simp] theorem Run.countInfo_frameAddr (r : Run) (i : Nat) : (r.countInfo.st).frameAddr i = r.st.frameAddr i := rfl
@[simp] theorem Run.countInfo_maskAddr (r : Run) (i : Nat) : (r.countInfo.st).maskAddr i = r.st.maskAddr i := rfl
@[simp] theorem Run.countInfo_frozenAddr (r : Run) (i : Nat) : (r.countInfo.st).frozenAddr i = r.st.frozenAddr i := rfl
@[simp] theorem Run.countInfo_infoAddr (r : Run) (i : Nat) : (r.countInfo.st).infoAddr i = r.st.infoAddr i := rfl

end Sys2Proof.Machine
end

