-- ==== Sys2Proof/Laws/Ops.lean ====
section
/-! SUPPORT. What each shared operation of a command in progress can do: the memory accesses, the loops
and the two ways a body ends, stated once. -/

namespace Sys2Proof.Machine

/-! ### How a body ends -/

/-- A body ends well in a run that meets `P`, or by a fault in a run that meets `E`. -/
def Ends (x : Except Run Run) (P E : Run → Prop) : Prop :=
  match x with
  | .ok r => P r
  | .error r => E r

@[simp] theorem ends_ok (r : Run) (P E : Run → Prop) : Ends (.ok r) P E ↔ P r := Iff.rfl

@[simp] theorem ends_error (r : Run) (P E : Run → Prop) : Ends (.error r) P E ↔ E r := Iff.rfl

theorem Ends.mono {x : Except Run Run} {P Q E F : Run → Prop} (h : Ends x P E)
    (hp : ∀ r, P r → Q r) (he : ∀ r, E r → F r) : Ends x Q F := by
  cases x with
  | ok r => exact hp r h
  | error r => exact he r h

/-- One body after another. -/
theorem Ends.bind {x : Except Run Run} {f : Run → Except Run Run} {P Q E : Run → Prop}
    (h : Ends x P E) (hf : ∀ r, P r → Ends (f r) Q E) : Ends (x.bind f) Q E := by
  cases x with
  | ok r => exact hf r h
  | error r => exact h

/-- A body that cannot raise ends well. -/
theorem Ends.exists_ok {x : Except Run Run} {P : Run → Prop} (h : Ends x P fun _ => False) :
    ∃ r, x = .ok r ∧ P r := by
  cases x with
  | ok r => exact ⟨r, rfl, h⟩
  | error r => exact h.elim

/-! ### Byte accesses (R64) -/

theorem Run.memRead_inside {r : Run} {a : Nat} (h : a < r.st.memSize) :
    r.memRead a = .ok (Memory.read r.st.mem a) := if_pos h

theorem Run.memRead_outside {r : Run} {a : Nat} (h : r.st.memSize ≤ a) :
    r.memRead a = .error (r.raise .busError a) := if_neg (by omega)

theorem Run.memWrite_inside {r : Run} {a : Nat} (b : Byte) (h : a < r.st.memSize) :
    r.memWrite a b = .ok (r.store a b) := if_pos h

theorem Run.memWrite_outside {r : Run} {a : Nat} (b : Byte) (h : r.st.memSize ≤ a) :
    r.memWrite a b = .error (r.raise .busError a) := if_neg (by omega)

/-- A byte read followed by anything: the byte, or `BUS_ERROR` (R64). -/
theorem Run.memRead_bind_ends {r : Run} {a : Nat} {f : Byte → Except Run Run} {P E : Run → Prop}
    (hin : a < r.st.memSize → Ends (f (Memory.read r.st.mem a)) P E)
    (hout : r.st.memSize ≤ a → E (r.raise .busError a)) : Ends ((r.memRead a).bind f) P E := by
  by_cases h : a < r.st.memSize
  · rw [Run.memRead_inside h]; exact hin h
  · rw [Run.memRead_outside (by omega)]; exact hout (by omega)

/-- A byte write: the byte stored, or `BUS_ERROR` (R64). -/
theorem Run.memWrite_ends {r : Run} {a : Nat} {b : Byte} {P E : Run → Prop}
    (hin : a < r.st.memSize → P (r.store a b))
    (hout : r.st.memSize ≤ a → E (r.raise .busError a)) : Ends (r.memWrite a b) P E := by
  by_cases h : a < r.st.memSize
  · rw [Run.memWrite_inside b h]; exact hin h
  · rw [Run.memWrite_outside b (by omega)]; exact hout (by omega)

/-! ### Vector accesses (R64, R66) -/

/-- Storing several bytes changes the memory and the log only. -/
theorem Run.storeBytes_st (a : Nat) (bs : List Byte) (r : Run) :
    (Run.storeBytes a bs r).st = { r.st with mem := Memory.writeBytes r.st.mem a bs } := by
  induction bs generalizing a r with
  | nil => rfl
  | cons b bs ih => rw [Run.storeBytes, ih]; rfl

theorem Run.memRead16_inside {r : Run} {a : Nat} (h : a + 16 ≤ r.st.memSize) :
    r.memRead16 a = .ok (Vector.ofFn fun i => Memory.read r.st.mem (a + i.val)) := if_pos h

theorem Run.memRead16_outside {r : Run} {a : Nat} (h : r.st.memSize < a + 16) :
    r.memRead16 a = .error (r.raise .busError a) := if_neg (by omega)

theorem Run.memWrite16_inside {r : Run} {a : Nat} (v : Vec) (h : a + 16 ≤ r.st.memSize) :
    r.memWrite16 a v = .ok (Run.storeBytes a v.toList r) := if_pos h

theorem Run.memWrite16_outside {r : Run} {a : Nat} (v : Vec) (h : r.st.memSize < a + 16) :
    r.memWrite16 a v = .error (r.raise .busError a) := if_neg (by omega)

/-- A vector load followed by anything; both variants do the same (R141). -/
theorem Run.vload_bind_ends {aln : Bool} {r : Run} {a : Nat} {f : Vec → Except Run Run}
    {P E : Run → Prop}
    (hin : a + 16 ≤ r.st.memSize →
      Ends (f (Vector.ofFn fun i => Memory.read r.st.mem (a + i.val))) P E)
    (hout : r.st.memSize < a + 16 → E (r.raise .busError a)) :
    Ends ((r.vload aln a).bind f) P E := by
  have hv : r.vload aln a = r.memRead16 a := by
    cases aln <;> rfl
  rw [hv]
  by_cases h : a + 16 ≤ r.st.memSize
  · rw [Run.memRead16_inside h]; exact hin h
  · rw [Run.memRead16_outside (by omega)]; exact hout (by omega)

/-- A vector store; both variants do the same (R142). -/
theorem Run.vstore_ends {aln : Bool} {r : Run} {a : Nat} {v : Vec} {P E : Run → Prop}
    (hin : a + 16 ≤ r.st.memSize → P (Run.storeBytes a v.toList r))
    (hout : r.st.memSize < a + 16 → E (r.raise .busError a)) : Ends (r.vstore aln a v) P E := by
  have hv : r.vstore aln a v = r.memWrite16 a v := by
    cases aln <;> rfl
  rw [hv]
  by_cases h : a + 16 ≤ r.st.memSize
  · rw [Run.memWrite16_inside v h]; exact hin h
  · rw [Run.memWrite16_outside v (by omega)]; exact hout (by omega)

/-! ### Loops (R17) -/

theorem loopFrom_ends {body : Nat → Run → Except Run Run} {I : Nat → Run → Prop} {E : Run → Prop}
    {count start : Nat} {r : Run} (h0 : I start r)
    (hs : ∀ i r, start ≤ i → i < start + count → I i r → Ends (body i r) (I (i + 1)) E) :
    Ends (loopFrom body count start r) (I (start + count)) E := by
  induction count generalizing start r with
  | zero => exact h0
  | succ n ih =>
    refine Ends.bind (hs start r (Nat.le_refl _) (by omega) h0) fun r' h' => ?_
    have := ih h' fun i r'' h1 h2 h3 => hs i r'' (by omega) (by omega) h3
    rwa [show start + 1 + n = start + (n + 1) by omega] at this

/-- The rule for `for i = 0 .. n-1`: an invariant that every pass carries from i to i + 1. -/
theorem forEach_ends {body : Nat → Run → Except Run Run} {n : Nat} {r : Run} (I : Nat → Run → Prop)
    {E : Run → Prop} (h0 : I 0 r)
    (hs : ∀ i r, i < n → I i r → Ends (body i r) (I (i + 1)) E) :
    Ends (forEach n body r) (I n) E := by
  have := loopFrom_ends (count := n) (start := 0) (E := E) h0
    fun i r _ h2 h3 => hs i r (by omega) h3
  rwa [Nat.zero_add] at this

/-- The rule for a stage loop whose body lowers `STAGE` by one: it ends with the condition false, after
as many passes as the condition held (R187). -/
theorem whileFuel_ends {cond : Word → Bool} {body : Run → Except Run Run} {I E : Run → Prop}
    (hcond : cond 0 = false)
    (hs : ∀ r, I r → cond r.st.stage = true →
      Ends (body r) (fun r' => I r' ∧ r'.st.stage.toNat + 1 = r.st.stage.toNat) E)
    {fuel : Nat} {r : Run} (hf : r.st.stage.toNat ≤ fuel) (h0 : I r) :
    Ends (whileFuel cond body fuel r) (fun r' => I r' ∧ cond r'.st.stage = false) E := by
  induction fuel generalizing r with
  | zero =>
    have : r.st.stage = 0 := by apply BitVec.eq_of_toNat_eq; simp; omega
    exact ⟨h0, by rw [this]; exact hcond⟩
  | succ k ih =>
    simp only [whileFuel]
    split
    · rename_i hc
      exact Ends.bind (hs r h0 hc) fun r' h' => ih (by have := h'.2; omega) h'.1
    · rename_i hc
      exact ⟨h0, by simpa using hc⟩

theorem whileStage_ends {cond : Word → Bool} {body : Run → Except Run Run} {I E : Run → Prop}
    (hcond : cond 0 = false)
    (hs : ∀ r, I r → cond r.st.stage = true →
      Ends (body r) (fun r' => I r' ∧ r'.st.stage.toNat + 1 = r.st.stage.toNat) E)
    {r : Run} (h0 : I r) :
    Ends (whileStage cond body r) (fun r' => I r' ∧ cond r'.st.stage = false) E :=
  whileFuel_ends hcond hs (Nat.le_refl _) h0

/-! ### The check phase and the life cycle (R200, R203) -/

@[simp] theorem firstFailing_nil : firstFailing [] = none := rfl

@[simp] theorem firstFailing_some (f : Failure) (l : List (Option Failure)) :
    firstFailing (some f :: l) = some f := rfl

@[simp] theorem firstFailing_none (l : List (Option Failure)) :
    firstFailing (none :: l) = firstFailing l := rfl

/-- A command answers a next state, always: a faulted one or the end of its body. -/
theorem runCommand_st (c : Checks) (body : Run → Except Run Run) (s : State) :
    (∃ f, checkPhase c s.accept = some f ∧ (runCommand c body s).st = s.accept.raise f.1 f.2)
      ∨ (checkPhase c s.accept = none ∧ ∃ r, body ⟨s.accept, []⟩ = .ok r
          ∧ (runCommand c body s).st = r.st.complete.forgetInternal)
      ∨ (checkPhase c s.accept = none ∧ ∃ r, body ⟨s.accept, []⟩ = .error r
          ∧ (runCommand c body s).st = r.st.forgetInternal) := by
  unfold runCommand
  cases hc : checkPhase c s.accept with
  | some f => exact .inl ⟨f, rfl, rfl⟩
  | none =>
    cases hb : body ⟨s.accept, []⟩ with
    | ok r => exact .inr (.inl ⟨rfl, r, rfl, rfl⟩)
    | error r => exact .inr (.inr ⟨rfl, r, rfl, rfl⟩)

/-- A command whose checks pass and whose body ends well. -/
theorem runCommand_ok {c : Checks} {body : Run → Except Run Run} {s : State} {r : Run}
    (hc : checkPhase c s.accept = none) (hb : body ⟨s.accept, []⟩ = .ok r) :
    (runCommand c body s).st = r.st.complete.forgetInternal := by
  simp [runCommand, hc, hb]

/-- A command one of whose checks fails. -/
theorem runCommand_failed {c : Checks} {body : Run → Except Run Run} {s : State} {f : Failure}
    (hc : checkPhase c s.accept = some f) :
    (runCommand c body s).st = s.accept.raise f.1 f.2 := by
  simp [runCommand, hc]

end Sys2Proof.Machine
end

