-- ==== Sys2Proof/Laws/Vectors.lean ====
section
/-! SUPPORT. The lane-vector datapath lane by lane: R151, R152 and what the four fused stages give. -/

namespace Sys2Proof.Machine

theorem lane_eq (v : Vec) (i : Nat) (h : i < 16) : lane v i = v[i] := by
  unfold lane
  rw [List.getD_eq_getElem?_getD, Vector.getElem?_toList]
  simp [h]

@[simp] theorem lane_ofFn (f : Fin 16 → Byte) (i : Nat) (h : i < 16) :
    lane (Vector.ofFn f) i = f ⟨i, h⟩ := by
  rw [lane_eq _ _ h]; simp

theorem lane_above (v : Vec) {i : Nat} (h : 16 ≤ i) : lane v i = 0 := by
  unfold lane
  rw [List.getD_eq_getElem?_getD, Vector.getElem?_toList]
  simp [h]

/-- Two vectors with the same lanes are equal. -/
theorem vec_ext {v w : Vec} (h : ∀ i, i < 16 → lane v i = lane w i) : v = w := by
  apply Vector.ext
  intro i hi
  rw [← lane_eq v i hi, ← lane_eq w i hi]
  exact h i hi

/-- R151: a lane with bit d clear absorbs its partner at distance d, the others pass through. -/
theorem lane_xstep (v : Vec) {d i : Nat} (hi : i < 16) (hd : i &&& d = 0 → i + d < 16) :
    lane (xstep v d) i = if i &&& d = 0 then lane v i ^^^ lane v (i + d) else lane v i := by
  unfold xstep vxor vand vshr laneMask
  rw [lane_ofFn _ _ hi, lane_ofFn _ _ hi, lane_ofFn _ _ hi, lane_ofFn _ _ hi]
  have hff : ∀ b : Byte, b &&& 0xFF = b := by decide
  have hz : ∀ b : Byte, b &&& 0x00 = 0 := by decide
  by_cases h : i &&& d = 0
  · have hlt := hd h
    rw [if_pos (show i + d ≤ 15 by omega), if_pos h, if_pos h, hff, BitVec.xor_comm]
  · rw [if_neg h, if_neg h, hz]
    exact BitVec.zero_xor

/-- R152, low half: the XOR results, in pair order. -/
theorem lane_registerButterfly_low (v : Vec) {k : Nat} (hk : k < 8) :
    lane (registerButterfly v) k = lane v (2 * k) ^^^ lane v (2 * k + 1) := by
  unfold registerButterfly vperm
  rw [lane_ofFn _ _ (by omega)]
  have ht : sepTable.getD k 0 = 2 * k := by
    have : ∀ k : Fin 8, sepTable.getD k.val 0 = 2 * k.val := by decide
    exact this ⟨k, hk⟩
  have he : 2 * k &&& 1 = 0 := by rw [Nat.and_one_is_mod]; omega
  simp only [ht]
  rw [lane_xstep v (by omega) (by omega), if_pos he]

/-- R152, high half: the kept symbols, in pair order. -/
theorem lane_registerButterfly_high (v : Vec) {k : Nat} (hk : k < 8) :
    lane (registerButterfly v) (8 + k) = lane v (2 * k + 1) := by
  unfold registerButterfly vperm
  rw [lane_ofFn _ _ (by omega)]
  have ht : sepTable.getD (8 + k) 0 = 2 * k + 1 := by
    have : ∀ k : Fin 8, sepTable.getD (8 + k.val) 0 = 2 * k.val + 1 := by decide
    exact this ⟨k, hk⟩
  have he : ¬ (2 * k + 1 &&& 1 = 0) := by rw [Nat.and_one_is_mod]; omega
  simp only [ht]
  rw [lane_xstep v (by omega) (by omega), if_neg he]

theorem lane_vcatlo (a b : Vec) {i : Nat} (hi : i < 16) :
    lane (vcatlo a b) i = if i < 8 then lane a i else lane b (i - 8) := by
  unfold vcatlo; rw [lane_ofFn _ _ hi]

theorem lane_vcathi (a b : Vec) {i : Nat} (hi : i < 16) :
    lane (vcathi a b) i = if i < 8 then lane a (i + 8) else lane b i := by
  unfold vcathi; rw [lane_ofFn _ _ hi]

/-- The low halves of two butterflied registers hold the XOR results of sixteen consecutive pairs. -/
theorem lane_vcatlo_butterfly (a b : Vec) {i : Nat} (hi : i < 16) :
    lane (vcatlo (registerButterfly a) (registerButterfly b)) i =
      if i < 8 then lane a (2 * i) ^^^ lane a (2 * i + 1)
      else lane b (2 * (i - 8)) ^^^ lane b (2 * (i - 8) + 1) := by
  rw [lane_vcatlo _ _ hi]
  split
  · rw [lane_registerButterfly_low a (by omega)]
  · rw [lane_registerButterfly_low b (by omega)]

/-- The high halves hold the kept symbols of sixteen consecutive pairs. -/
theorem lane_vcathi_butterfly (a b : Vec) {i : Nat} (hi : i < 16) :
    lane (vcathi (registerButterfly a) (registerButterfly b)) i =
      if i < 8 then lane a (2 * i + 1) else lane b (2 * (i - 8) + 1) := by
  rw [lane_vcathi _ _ hi]
  split
  · rw [show i + 8 = 8 + i by omega, lane_registerButterfly_high a (by omega)]
  · obtain ⟨k, rfl⟩ : ∃ k, i = 8 + k := ⟨i - 8, by omega⟩
    rw [lane_registerButterfly_high b (by omega), show 8 + k - 8 = k by omega]

/-- The bytes of a vector as a store lays them out. -/
theorem vec_toList_getD (v : Vec) (i : Nat) : v.toList.getD i 0 = lane v i := rfl

@[simp] theorem vec_toList_length (v : Vec) : v.toList.length = 16 := by simp

end Sys2Proof.Machine
end

