-- ==== Sys2Proof/Laws/Frames.lean ====
section
/-! SUPPORT. What any body of a command can do, whatever the state: it writes no operand register, it
keeps the form of the memory, and the only fault it raises is `BUS_ERROR`. -/

namespace Sys2Proof.Machine

/-- What a body that goes on leaves as it was: every register but the stage parameters, `PV` and the
two indices; it keeps the canonical form of `M`, writes only bytes that exist, and never clears
`PV`. -/
structure Run.Went (r r' : Run) : Prop where
  operands : SameOperands r.st r'.st
  internal : r'.st.internal = r.st.internal
  draws : r'.st.draws = r.st.draws
  busy : r'.st.status.busy = r.st.status.busy
  done : r'.st.status.done = r.st.status.done
  err : r'.st.status.err = r.st.status.err
  cause : r'.st.cause = r.st.cause
  finfo : r'.st.finfo = r.st.finfo
  memForm : Memory.wf r.st.mem = true → Memory.wf r'.st.mem = true
  memInside : (∀ c ∈ r.st.mem, c.1 < r.st.memSize) → ∀ c ∈ r'.st.mem, c.1 < r'.st.memSize
  pvKept : r.st.status.pv = true → r'.st.status.pv = true

theorem SameOperands.refl (s : State) : SameOperands s s :=
  ⟨rfl, rfl, rfl, rfl, rfl, rfl, rfl, rfl, rfl, rfl⟩

theorem SameOperands.trans {s t u : State} (h : SameOperands s t) (k : SameOperands t u) :
    SameOperands s u := by
  obtain ⟨h1, h2, h3, h4, h5, h6, h7, h8, h9, h10⟩ := h
  obtain ⟨k1, k2, k3, k4, k5, k6, k7, k8, k9, k10⟩ := k
  exact ⟨k1.trans h1, k2.trans h2, k3.trans h3, k4.trans h4, k5.trans h5, k6.trans h6, k7.trans h7,
    k8.trans h8, k9.trans h9, k10.trans h10⟩

theorem SameOperands.memSize {s t : State} (h : SameOperands s t) : t.memSize = s.memSize := by
  obtain ⟨_, _, _, _, _, _, _, h8, _, _⟩ := h
  simp [State.memSize, h8]

theorem Run.Went.refl (r : Run) : Run.Went r r :=
  ⟨SameOperands.refl _, rfl, rfl, rfl, rfl, rfl, rfl, rfl, id, id, id⟩

theorem Run.Went.trans {r r' r'' : Run} (h : Run.Went r r') (k : Run.Went r' r'') : Run.Went r r'' :=
  ⟨h.operands.trans k.operands, k.internal.trans h.internal, k.draws.trans h.draws,
    k.busy.trans h.busy, k.done.trans h.done, k.err.trans h.err, k.cause.trans h.cause,
    k.finfo.trans h.finfo, fun w => k.memForm (h.memForm w), fun w => k.memInside (h.memInside w),
    fun w => k.pvKept (h.pvKept w)⟩

/-- A body that ends by a fault went on to some point and raised `BUS_ERROR` there (R64). -/
def Run.Broke (r r' : Run) : Prop := ∃ r₀ a, Run.Went r r₀ ∧ r' = r₀.raise .busError a

theorem Run.Broke.after {r r' r'' : Run} (h : Run.Went r r') (k : Run.Broke r' r'') :
    Run.Broke r r'' := by
  obtain ⟨r₀, a, h0, rfl⟩ := k
  exact ⟨r₀, a, h.trans h0, rfl⟩

/-- The law every body obeys: it goes on, or it raises `BUS_ERROR`. -/
def Lawful (body : Run → Except Run Run) : Prop := ∀ r, Ends (body r) (Run.Went r) (Run.Broke r)

theorem Lawful.bind {f g : Run → Except Run Run} (hf : Lawful f) (hg : Lawful g) :
    Lawful fun r => (f r).bind g := fun r =>
  Ends.bind (hf r) fun r' h' => (hg r').mono (fun _ h => h'.trans h) fun _ h => h.after h'

theorem loopFrom_lawful {body : Nat → Run → Except Run Run} (h : ∀ i, Lawful (body i))
    (count start : Nat) : Lawful (loopFrom body count start) := by
  induction count generalizing start with
  | zero => exact fun r => Run.Went.refl r
  | succ n ih => exact Lawful.bind (h start) (ih (start + 1))

theorem forEach_lawful {body : Nat → Run → Except Run Run} (h : ∀ i, Lawful (body i)) (n : Nat) :
    Lawful (forEach n body) := loopFrom_lawful h n 0

theorem whileFuel_lawful {cond : Word → Bool} {body : Run → Except Run Run} (h : Lawful body)
    (fuel : Nat) : Lawful (whileFuel cond body fuel) := by
  induction fuel with
  | zero => exact fun r => Run.Went.refl r
  | succ n ih =>
    intro r
    simp only [whileFuel]
    split
    · exact Lawful.bind h ih r
    · exact Run.Went.refl r

theorem whileStage_lawful {cond : Word → Bool} {body : Run → Except Run Run} (h : Lawful body) :
    Lawful (whileStage cond body) := fun r => whileFuel_lawful h _ r

/-- Storing a byte that exists. -/
theorem Run.went_store {r : Run} {a : Nat} (b : Byte) (h : a < r.st.memSize) :
    Run.Went r (r.store a b) :=
  ⟨SameOperands.refl _, rfl, rfl, rfl, rfl, rfl, rfl, rfl, fun w => Memory.wf_write a b w,
    fun w c hc => (Memory.mem_write hc).elim (fun e => e ▸ h) (w c), id⟩

/-- Storing bytes that exist. -/
theorem Run.went_storeBytes {r : Run} {a : Nat} (bs : List Byte)
    (h : a + bs.length ≤ r.st.memSize) : Run.Went r (Run.storeBytes a bs r) := by
  induction bs generalizing a r with
  | nil => exact Run.Went.refl r
  | cons b bs ih =>
    simp only [List.length_cons] at h
    have h1 := Run.went_store (r := r) (a := a) b (by omega)
    exact h1.trans (ih (by simp; omega))

theorem Run.broke_here (r : Run) (a : Nat) : Run.Broke r (r.raise .busError a) :=
  ⟨r, a, Run.Went.refl r, rfl⟩

theorem memWrite_lawful {r : Run} (a : Nat) (b : Byte) :
    Ends (r.memWrite a b) (Run.Went r) (Run.Broke r) :=
  Run.memWrite_ends (Run.went_store b) fun _ => r.broke_here a

theorem vstore_lawful {r : Run} (aln : Bool) (a : Nat) (v : Vec) :
    Ends (r.vstore aln a v) (Run.Went r) (Run.Broke r) :=
  Run.vstore_ends (fun h => Run.went_storeBytes _ (by rw [vec_toList_length]; exact h))
    fun _ => r.broke_here a

theorem memRead_lawful {r : Run} (a : Nat) {f : Byte → Except Run Run}
    (h : ∀ b, Ends (f b) (Run.Went r) (Run.Broke r)) :
    Ends ((r.memRead a).bind f) (Run.Went r) (Run.Broke r) :=
  Run.memRead_bind_ends (fun _ => h _) fun _ => r.broke_here a

theorem vload_lawful {r : Run} (aln : Bool) (a : Nat) {f : Vec → Except Run Run}
    (h : ∀ v, Ends (f v) (Run.Went r) (Run.Broke r)) :
    Ends ((r.vload aln a).bind f) (Run.Went r) (Run.Broke r) :=
  Run.vload_bind_ends (fun _ => h _) fun _ => r.broke_here a

/-- Going on from a run that went on. -/
theorem Ends.after {x : Except Run Run} {r r' : Run} (h : Run.Went r r')
    (k : Ends x (Run.Went r') (Run.Broke r')) : Ends x (Run.Went r) (Run.Broke r) :=
  k.mono (fun _ h2 => h.trans h2) fun _ h2 => h2.after h

/-! ### The bodies -/

theorem doLg2_lawful : Lawful doLg2 := fun _ =>
  ⟨SameOperands.refl _, rfl, rfl, rfl, rfl, rfl, rfl, rfl, id, id, fun _ => rfl⟩

theorem doUpd_lawful : Lawful doUpd := fun _ =>
  ⟨SameOperands.refl _, rfl, rfl, rfl, rfl, rfl, rfl, rfl, id, id, id⟩

theorem Run.went_clearIndices (r : Run) : Run.Went r r.clearIndices :=
  ⟨SameOperands.refl _, rfl, rfl, rfl, rfl, rfl, rfl, rfl, id, id, id⟩

theorem Run.went_countFrozen (r : Run) : Run.Went r r.countFrozen :=
  ⟨SameOperands.refl _, rfl, rfl, rfl, rfl, rfl, rfl, rfl, id, id, id⟩

theorem Run.went_countInfo (r : Run) : Run.Went r r.countInfo :=
  ⟨SameOperands.refl _, rfl, rfl, rfl, rfl, rfl, rfl, rfl, id, id, id⟩

theorem interleaveAt_lawful (i : Nat) : Lawful (interleaveAt i) := fun r =>
  memRead_lawful _ fun m => by
    split
    · exact memRead_lawful _ fun b => Ends.after r.went_countFrozen (memWrite_lawful _ b)
    · exact memRead_lawful _ fun b => Ends.after r.went_countInfo (memWrite_lawful _ b)

theorem doIlv_lawful : Lawful doIlv := fun r =>
  Ends.after r.went_clearIndices (forEach_lawful interleaveAt_lawful _ _)

theorem butterflyAt_lawful (base fh i : Nat) : Lawful (butterflyAt base fh i) := fun _ =>
  memRead_lawful _ fun _ => memRead_lawful _ fun _ =>
    Ends.bind (memWrite_lawful _ _) fun _ h => Ends.after h (memWrite_lawful _ _)

theorem doBfs_lawful : Lawful doBfs := fun r =>
  forEach_lawful (fun _ => forEach_lawful (butterflyAt_lawful _ _) _) _ r

theorem doCpb_lawful : Lawful doCpb := fun r =>
  forEach_lawful (fun _ _ => memRead_lawful _ fun _ => memWrite_lawful _ _) _ r

theorem scalarRound_lawful : Lawful scalarRound :=
  Lawful.bind (Lawful.bind doBfs_lawful doCpb_lawful) doUpd_lawful

theorem doXfs_lawful : Lawful doXfs :=
  Lawful.bind doLg2_lawful (whileStage_lawful scalarRound_lawful)

theorem macroChunk_lawful (aln : Bool) (fh tp fp : Nat) : Lawful (macroChunk aln fh tp fp) :=
  fun _ => vload_lawful aln _ fun _ => vload_lawful aln _ fun _ =>
    Ends.bind (vstore_lawful aln _ _) fun _ h => Ends.after h (vstore_lawful aln _ _)

theorem doMac_lawful (aln : Bool) : Lawful (doMac aln) := fun r =>
  forEach_lawful (fun _ => forEach_lawful (fun _ => macroChunk_lawful aln _ _ _) _) _ r

theorem doMic_lawful (aln : Bool) : Lawful (doMic aln) :=
  Lawful.bind (f := fun r => forEach r.st.numBranches.toNat (microChunk aln) r)
    (fun r => forEach_lawful (fun _ _ => vload_lawful aln _ fun _ => vstore_lawful aln _ _) _ r)
    fun _ => ⟨SameOperands.refl _, rfl, rfl, rfl, rfl, rfl, rfl, rfl, id, id, id⟩

theorem doXfv_lawful (aln : Bool) : Lawful (doXfv aln) :=
  Lawful.bind
    (Lawful.bind doLg2_lawful
      (whileStage_lawful (Lawful.bind (Lawful.bind (doMac_lawful aln) doCpb_lawful) doUpd_lawful)))
    (doMic_lawful aln)

theorem doEns_lawful : Lawful doEns := Lawful.bind doIlv_lawful doXfs_lawful

theorem doEnv_lawful (aln : Bool) : Lawful (doEnv aln) := Lawful.bind doIlv_lawful (doXfv_lawful aln)

/-! ### The bodies that leave `PV` alone -/

/-- `PV` ends as the run had it, whether the body goes on or breaks. -/
def KeepsPvFrom (r : Run) (x : Except Run Run) : Prop :=
  Ends x (fun r' => r'.st.status.pv = r.st.status.pv) fun r' => r'.st.status.pv = r.st.status.pv

/-- A body that leaves `PV` as it was. -/
def KeepsPv (body : Run → Except Run Run) : Prop := ∀ r, KeepsPvFrom r (body r)

theorem KeepsPv.bind {f g : Run → Except Run Run} (hf : KeepsPv f) (hg : KeepsPv g) :
    KeepsPv fun r => (f r).bind g := fun r =>
  Ends.bind (hf r) fun r' h' => (hg r').mono (fun _ h => h.trans h') fun _ h => h.trans h'

theorem forEach_keepsPv {body : Nat → Run → Except Run Run} (h : ∀ i, KeepsPv (body i)) (n : Nat) :
    KeepsPv (forEach n body) := by
  have key : ∀ count start, KeepsPv (loopFrom body count start) := by
    intro count
    induction count with
    | zero => exact fun start r => rfl
    | succ n ih => exact fun start => KeepsPv.bind (h start) (ih (start + 1))
  exact key n 0

theorem storeBytes_pv (a : Nat) (bs : List Byte) (r : Run) :
    (Run.storeBytes a bs r).st.status.pv = r.st.status.pv := by
  induction bs generalizing a r with
  | nil => rfl
  | cons b bs ih => exact ih (a + 1) (r.store a b)

theorem memWrite_keepsPv (a : Nat) (b : Byte) : KeepsPv (Run.memWrite a b) := fun _ =>
  Run.memWrite_ends (fun _ => rfl) fun _ => rfl

theorem vstore_keepsPv (aln : Bool) (a : Nat) (v : Vec) : KeepsPv (Run.vstore aln a v) := fun r =>
  Run.vstore_ends (fun _ => storeBytes_pv _ _ r) fun _ => rfl

theorem memRead_keepsPv {r : Run} (a : Nat) {f : Byte → Except Run Run} (h : ∀ b, KeepsPvFrom r (f b)) :
    KeepsPvFrom r ((r.memRead a).bind f) := Run.memRead_bind_ends (fun _ => h _) fun _ => rfl

theorem vload_keepsPv {r : Run} (aln : Bool) (a : Nat) {f : Vec → Except Run Run}
    (h : ∀ v, KeepsPvFrom r (f v)) : KeepsPvFrom r ((r.vload aln a).bind f) :=
  Run.vload_bind_ends (fun _ => h _) fun _ => rfl

/-- One store after another. -/
theorem KeepsPvFrom.bind {r : Run} {x : Except Run Run} {g : Run → Except Run Run}
    (hx : KeepsPvFrom r x) (hg : KeepsPv g) : KeepsPvFrom r (x.bind g) :=
  Ends.bind hx fun r' h' => (hg r').mono (fun _ h => h.trans h') fun _ h => h.trans h'

theorem interleaveAt_keepsPv (i : Nat) : KeepsPv (interleaveAt i) := fun r =>
  memRead_keepsPv _ fun m => by
    split
    · exact memRead_keepsPv _ fun b => memWrite_keepsPv _ b r.countFrozen
    · exact memRead_keepsPv _ fun b => memWrite_keepsPv _ b r.countInfo

theorem doIlv_keepsPv : KeepsPv doIlv := fun r =>
  forEach_keepsPv interleaveAt_keepsPv _ r.clearIndices

theorem butterflyAt_keepsPv (base fh i : Nat) : KeepsPv (butterflyAt base fh i) := fun r =>
  memRead_keepsPv _ fun _ => memRead_keepsPv _ fun _ =>
    KeepsPvFrom.bind (memWrite_keepsPv _ _ r) fun r' => memWrite_keepsPv _ _ r'

theorem doBfs_keepsPv : KeepsPv doBfs := fun r =>
  forEach_keepsPv (fun _ => forEach_keepsPv (butterflyAt_keepsPv _ _) _) _ r

theorem doCpb_keepsPv : KeepsPv doCpb := fun r =>
  forEach_keepsPv (fun _ r => memRead_keepsPv _ fun _ => memWrite_keepsPv _ _ r) _ r

theorem doUpd_keepsPv : KeepsPv doUpd := fun _ => rfl

theorem macroChunk_keepsPv (aln : Bool) (fh tp fp : Nat) : KeepsPv (macroChunk aln fh tp fp) := fun r =>
  vload_keepsPv aln _ fun _ => vload_keepsPv aln _ fun _ =>
    KeepsPvFrom.bind (vstore_keepsPv aln _ _ r) fun r' => vstore_keepsPv aln _ _ r'

theorem doMac_keepsPv (aln : Bool) : KeepsPv (doMac aln) := fun r =>
  forEach_keepsPv (fun _ => forEach_keepsPv (fun _ => macroChunk_keepsPv aln _ _ _) _) _ r

theorem doMic_keepsPv (aln : Bool) : KeepsPv (doMic aln) :=
  KeepsPv.bind (f := fun r => forEach r.st.numBranches.toNat (microChunk aln) r)
    (fun r => forEach_keepsPv (fun _ r => vload_keepsPv aln _ fun _ => vstore_keepsPv aln _ _ r) _ r)
    fun _ => rfl

/-- What any command does to the state, whatever it is: a precise fault of the check phase, or the end
of a body that went on, or one that broke by `BUS_ERROR`. -/
theorem runCommand_cases {c : Checks} {body : Run → Except Run Run} (h : Lawful body) (s : State) :
    (∃ f, checkPhase c s.accept = some f ∧ (runCommand c body s).st = s.accept.raise f.1 f.2)
      ∨ (∃ r, body ⟨s.accept, []⟩ = .ok r ∧ Run.Went ⟨s.accept, []⟩ r
          ∧ (runCommand c body s).st = r.st.complete.forgetInternal)
      ∨ (∃ r a, Run.Went ⟨s.accept, []⟩ r
          ∧ (runCommand c body s).st = (r.st.raise .busError a).forgetInternal) := by
  have hb := h ⟨s.accept, []⟩
  rcases runCommand_st c body s with h1 | ⟨_, r, h2, h3⟩ | ⟨_, r, h2, h3⟩
  · exact .inl h1
  · rw [h2] at hb; exact .inr (.inl ⟨r, h2, hb, h3⟩)
  · rw [h2] at hb
    obtain ⟨r₀, a, hw, rfl⟩ := hb
    exact .inr (.inr ⟨r₀, a, hw, h3⟩)

/-- The body of a command and its row of R212, so that one lemma speaks of all of `exec`. -/
def bodyOf : Instr → Run → Except Run Run
  | .lg2 => doLg2
  | .ilv => doIlv
  | .bfs => doBfs
  | .cpb => doCpb
  | .upd => doUpd
  | .mac aln => doMac aln
  | .mic aln => doMic aln
  | .xfs => doXfs
  | .xfv aln => doXfv aln
  | .ens => doEns
  | .env aln => doEnv aln

theorem bodyOf_lawful (i : Instr) : Lawful (bodyOf i) := by
  cases i with
  | lg2 => exact doLg2_lawful
  | ilv => exact doIlv_lawful
  | bfs => exact doBfs_lawful
  | cpb => exact doCpb_lawful
  | upd => exact doUpd_lawful
  | mac aln => exact doMac_lawful aln
  | mic aln => exact doMic_lawful aln
  | xfs => exact doXfs_lawful
  | xfv aln => exact doXfv_lawful aln
  | ens => exact doEns_lawful
  | env aln => exact doEnv_lawful aln

/-- Every command is one next state: the run of its body under its row of R212. -/
theorem exec_eq (i : Instr) (s : State) :
    exec i s = .next (runCommand (checksOf i) (bodyOf i) s).st := by
  cases i <;> rfl

end Sys2Proof.Machine
end

