-- ==== Sys2Proof/Laws/Checks.lean ====
section
/-! SUPPORT. The check phase in the spec's own terms: when each check fails, and when all pass. -/

namespace Sys2Proof.Machine

/-- `v & (v - 1) = 0` tells the powers of two among the numbers from 1 on. -/
theorem and_pred_eq_zero_iff (n : Nat) (h : 0 < n) : n &&& (n - 1) = 0 ↔ ∃ p, n = 2 ^ p := by
  constructor
  · intro h0
    refine ⟨n.log2, ?_⟩
    have hlo : 2 ^ n.log2 ≤ n := Nat.log2_self_le (by omega)
    by_contra hne
    have hb1 : n.testBit n.log2 = true := Nat.testBit_log2 (by omega)
    have hlt : n < 2 ^ (n.log2 + 1) := Nat.lt_log2_self
    have hb2 : (n - 1).testBit n.log2 = true := by
      rw [Nat.testBit_eq_decide_div_mod_eq]
      have : (n - 1) / 2 ^ n.log2 = 1 := by
        apply Nat.div_eq_of_lt_le <;> rw [Nat.pow_succ] at * <;> omega
      simp [this]
    have := congrArg (fun k => k.testBit n.log2) h0
    simp [Nat.testBit_and, hb1, hb2] at this
  · rintro ⟨p, rfl⟩
    rw [Nat.and_two_pow_sub_one_eq_mod, Nat.mod_self]

/-- The size check of R205 accepts exactly the powers of two 2^0 .. 2^31 (R26). -/
theorem legalFrameSize_iff (s : State) : s.legalFrameSize = true ↔ s.SizeLegal := by
  unfold State.legalFrameSize State.SizeLegal State.frameLength
  have hlt : s.frameSize.toNat < 2 ^ 32 := s.frameSize.isLt
  by_cases h : s.frameSize = 0
  · simp only [h]
    constructor
    · intro h0; simp at h0
    · rintro ⟨p, _, hp⟩
      have : 0 < 2 ^ p := Nat.two_pow_pos p
      simp at hp; omega
  · have hpos : 0 < s.frameSize.toNat := by
      rcases Nat.eq_zero_or_pos s.frameSize.toNat with h0 | h0
      · exact absurd (BitVec.eq_of_toNat_eq (by simpa using h0)) h
      · exact h0
    have hsub : (s.frameSize - 1).toNat = s.frameSize.toNat - 1 := by
      rw [BitVec.toNat_sub]; simp; omega
    have hand : (s.frameSize &&& (s.frameSize - 1) = 0)
        ↔ s.frameSize.toNat &&& (s.frameSize.toNat - 1) = 0 := by
      rw [← BitVec.toNat_inj, BitVec.toNat_and, hsub]; simp
    simp only [Bool.and_eq_true, bne_iff_ne, ne_eq, h, not_false_eq_true, true_and, beq_iff_eq]
    rw [hand, and_pred_eq_zero_iff _ hpos]
    constructor
    · rintro ⟨p, hp⟩
      refine ⟨p, ?_, hp⟩
      by_contra hgt
      have : 2 ^ 32 ≤ 2 ^ p := Nat.pow_le_pow_right (by omega) (by omega)
      omega
    · rintro ⟨p, _, hp⟩
      exact ⟨p, hp⟩

theorem checkFrameSize_none (s : State) : checkFrameSize s = none ↔ s.SizeLegal := by
  rw [← legalFrameSize_iff]; unfold checkFrameSize; split <;> simp_all

theorem checkMinSize_none (s : State) : checkMinSize s = none ↔ 16 ≤ s.frameLength := by
  unfold checkMinSize; split <;> simp <;> omega

theorem checkStage_none (need : StageNeed) (s : State) :
    checkStage need s = none ↔ s.status.pv = true ∧ stageMeets need s.stage = true := by
  unfold checkStage; split <;> simp_all

theorem checkAligned_none (base : Word) : checkAligned base = none ↔ base.toNat % 16 = 0 := by
  unfold checkAligned; split <;> simp_all

theorem checkWindow_none (base : Word) (s : State) : checkWindow base s = none ↔ s.Fits base := by
  unfold checkWindow State.Fits; split <;> simp_all

theorem disjoint_iff (s : State) : s.disjoint = true ↔ s.TempFrameApart := by
  simp [State.disjoint, State.TempFrameApart, Apart]

theorem checkOverlap_none (s : State) : checkOverlap s = none ↔ s.TempFrameApart := by
  rw [← disjoint_iff]; unfold checkOverlap; split <;> simp_all

theorem onlyIf_none (b : Bool) (o : Option Failure) :
    onlyIf b o = none ↔ (b = true → o = none) := by
  cases b <;> simp [onlyIf]

theorem firstFailing_eq_none (l : List (Option Failure)) :
    firstFailing l = none ↔ ∀ o ∈ l, o = none := by
  induction l with
  | nil => simp
  | cons o l ih => cases o <;> simp [ih]

/-- The check phase passes exactly when every condition the command's row asks for holds (R203, R212). -/
theorem checkPhase_none (c : Checks) (s : State) :
    checkPhase c s = none ↔
      (c.frameSize = true → s.SizeLegal)
        ∧ (c.minSize = true → 16 ≤ s.frameLength)
        ∧ (c.stage ≠ .notUsed → s.status.pv = true ∧ stageMeets c.stage s.stage = true)
        ∧ s.AlignedIf c.aligned
        ∧ (c.temp = true → s.Fits s.tempBase)
        ∧ (c.frame = true → s.Fits s.frameBase)
        ∧ (c.mask = true → s.Fits s.maskBase)
        ∧ (c.overlap = true → s.TempFrameApart) := by
  unfold checkPhase
  rw [firstFailing_eq_none]
  simp only [List.mem_cons, List.not_mem_nil, or_false, forall_eq_or_imp, forall_eq, onlyIf_none,
    checkFrameSize_none, checkMinSize_none, checkStage_none, checkAligned_none, checkWindow_none,
    checkOverlap_none, bne_iff_ne, State.AlignedIf]
  constructor
  · rintro ⟨h1, h2, h3, h4, h5, h6, h7, h8, h9⟩
    exact ⟨h1, h2, h3, fun h => ⟨h4 h, h5 h⟩, h6, h7, h8, h9⟩
  · rintro ⟨h1, h2, h3, h4, h6, h7, h8, h9⟩
    exact ⟨h1, h2, h3, fun h => (h4 h).1, fun h => (h4 h).2, h6, h7, h8, h9⟩

/-- The reported failure is one of the failing checks. -/
theorem firstFailing_mem {l : List (Option Failure)} {f : Failure} (h : firstFailing l = some f) :
    some f ∈ l := by
  induction l with
  | nil => cases h
  | cons o l ih =>
    cases o with
    | none => exact List.mem_cons_of_mem _ (ih h)
    | some g =>
      simp only [firstFailing_some, Option.some.injEq] at h
      simp [h]

/-- The check phase reports one of the causes 2 to 7, never `BUS_ERROR` (R203). -/
theorem checkPhase_cause {c : Checks} {s : State} {f : Failure} (h : checkPhase c s = some f) :
    f.1 ≠ .none ∧ f.1 ≠ .busError := by
  have key : ∀ o : Option Failure, o ∈
      [onlyIf c.frameSize (checkFrameSize s), onlyIf c.minSize (checkMinSize s),
        onlyIf (c.stage != .notUsed) (checkStage c.stage s), onlyIf c.aligned (checkAligned s.tempBase),
        onlyIf c.aligned (checkAligned s.frameBase), onlyIf c.temp (checkWindow s.tempBase s),
        onlyIf c.frame (checkWindow s.frameBase s), onlyIf c.mask (checkWindow s.maskBase s),
        onlyIf c.overlap (checkOverlap s)] → o = some f → f.1 ≠ .none ∧ f.1 ≠ .busError := by
    simp only [List.forall_mem_cons, List.not_mem_nil, false_implies, implies_true, and_true,
      onlyIf, checkFrameSize, checkMinSize, checkStage, checkAligned, checkWindow, checkOverlap]
    refine ⟨?_, ?_, ?_, ?_, ?_, ?_, ?_, ?_, ?_⟩ <;>
      (split <;> (try split) <;> (intro h0; cases h0 <;> exact ⟨nofun, nofun⟩))
  exact key _ (firstFailing_mem h) rfl

/-- The checks read nothing that acceptance changes. -/
@[simp] theorem checkPhase_accept (c : Checks) (s : State) :
    checkPhase c s.accept = checkPhase c s := rfl

/-- The size test of R205 accepts exactly the powers of two 2^0 .. 2^31 (R26). -/
theorem sizeBad_iff (s : State) : ¬ s.SizeBad ↔ s.SizeLegal := by
  rw [← legalFrameSize_iff]
  simp [State.SizeBad, State.legalFrameSize]

/-- The rows of R212: the check phase of a command passes exactly when its checks pass. -/
theorem checkPhase_passes (i : Instr) (s : State) :
    checkPhase (checksOf i) s = none ↔ PassesChecks i s := by
  rw [checkPhase_none]
  cases i <;>
    simp [PassesChecks, SizePasses, MinimumPasses, StagePasses, RangePasses, OverlapPasses, checksOf,
      stageMeets, Instr.flag, Instr.op, opTakesFlag, usesTemp, usesFrame, usesMask, sizeBad_iff,
      State.AlignedIf, and_assoc]

/-- A command whose checks pass and whose body ends well. -/
theorem exec_ok {i : Instr} {s : State} {r : Run} (hc : PassesChecks i s)
    (hb : bodyOf i ⟨s.accept, []⟩ = .ok r) : exec i s = .next r.st.complete.forgetInternal := by
  rw [exec_eq, runCommand_ok ((checkPhase_passes i s).2 hc) hb]

/-- A command whose checks pass and whose body ends by a fault. -/
theorem exec_broken {i : Instr} {s : State} {r : Run} (hc : PassesChecks i s)
    (hb : bodyOf i ⟨s.accept, []⟩ = .error r) : exec i s = .next r.st.forgetInternal := by
  rw [exec_eq]
  simp [runCommand, (checkPhase_passes i s).2 hc, hb]

/-- Taking a fault in the check phase (R201, R223). -/
theorem exec_failed {i : Instr} {s : State} {c : Cause} {n : Nat}
    (hc : checkPhase (checksOf i) s = some (c, n)) :
    exec i s = .next (s.faulted c (BitVec.ofNat 32 n)) := by
  rw [exec_eq, runCommand_failed (f := (c, n)) hc]
  rfl

/-- The five-step reduction gives log2 of a power of two (R112). -/
theorem log2Reduction_two_pow {v : Word} {p : Nat} (hp : p ≤ 31) (hv : v.toNat = 2 ^ p) :
    log2Reduction v = BitVec.ofNat 32 p := by
  have all : ∀ q : Fin 32, log2Reduction (BitVec.ofNat 32 (2 ^ q.val)) = BitVec.ofNat 32 q.val := by
    decide
  have hv' : v = BitVec.ofNat 32 (2 ^ p) := by
    apply BitVec.eq_of_toNat_eq
    have : 2 ^ p < 2 ^ 32 := Nat.pow_lt_pow_right (by omega) (by omega)
    rw [hv, BitVec.toNat_ofNat, Nat.mod_eq_of_lt this]
  rw [hv']
  exact all ⟨p, by omega⟩

end Sys2Proof.Machine
end

