-- ==== Sys2Proof/Laws/Stages.lean ====
section
/-! SUPPORT. What one stage command does to the memory when its windows are in `M` and disjoint: `BFS`
and `MAC` compute one scalar stage, `CPB` copies, `MIC` fuses four stages chunk by chunk. -/

namespace Sys2Proof.Machine

/-! ### Writing a set of offsets -/

/-- From r to r' nothing changed but bytes at offsets of `W` from `base`, each of which now holds `out`, and
only those were logged. -/
structure Run.Wrote (r r' : Run) (base : Nat) (W : Nat → Prop) (out : Nat → Byte) : Prop where
  onlyMem : r'.st = { r.st with mem := r'.st.mem }
  value : ∀ j, W j → Memory.read r'.st.mem (base + j) = out j
  other : ∀ a, (∀ j, W j → a ≠ base + j) → Memory.read r'.st.mem a = Memory.read r.st.mem a
  logged : ∀ c ∈ r'.log, c ∈ r.log ∨ ∃ j, W j ∧ c.1 = base + j

theorem Run.Wrote.refl (r : Run) (base : Nat) (out : Nat → Byte) :
    Run.Wrote r r base (fun _ => False) out := ⟨rfl, fun _ h => h.elim, fun _ _ => rfl, fun _ h => .inl h⟩

theorem Run.Wrote.trans {r r' r'' : Run} {base : Nat} {W V : Nat → Prop} {out : Nat → Byte}
    (h : Run.Wrote r r' base W out) (k : Run.Wrote r' r'' base V out) :
    Run.Wrote r r'' base (fun j => W j ∨ V j) out where
  onlyMem := by rw [k.onlyMem, h.onlyMem]
  value j hj := by
    by_cases hv : V j
    · exact k.value j hv
    · rw [k.other _ fun i hi he => hv (by rwa [Nat.add_left_cancel he] )]
      exact h.value j (hj.resolve_right hv)
  other a ha := by
    rw [k.other a fun j hj => ha j (.inr hj), h.other a fun j hj => ha j (.inl hj)]
  logged c hc := by
    rcases k.logged c hc with h1 | ⟨j, hj, he⟩
    · rcases h.logged c h1 with h2 | ⟨j, hj, he⟩
      · exact .inl h2
      · exact .inr ⟨j, .inl hj, he⟩
    · exact .inr ⟨j, .inr hj, he⟩

theorem Run.Wrote.congr {r r' : Run} {base : Nat} {W V : Nat → Prop} {out : Nat → Byte}
    (h : Run.Wrote r r' base W out) (hv : ∀ j, V j ↔ W j) : Run.Wrote r r' base V out :=
  ⟨h.onlyMem, fun j hj => h.value j ((hv j).1 hj), fun a ha => h.other a fun j hj => ha j ((hv j).2 hj),
    fun c hc => (h.logged c hc).imp id fun ⟨j, hj, he⟩ => ⟨j, (hv j).2 hj, he⟩⟩

theorem Run.wrote_store {r : Run} {base j : Nat} {b : Byte} {out : Nat → Byte} (h : b = out j) :
    Run.Wrote r (r.store (base + j) b) base (fun k => k = j) out where
  onlyMem := rfl
  value k hk := by subst hk; simp [h]
  other a ha := by simpa using Memory.read_write_other _ _ (ha j rfl)
  logged c hc := (List.mem_cons.1 hc).symm.imp id fun he => ⟨j, rfl, by rw [he]⟩

theorem Run.storeBytes_logged {a : Nat} {bs : List Byte} {r : Run} {c : Host.Cell}
    (h : c ∈ (Run.storeBytes a bs r).log) : c ∈ r.log ∨ (a ≤ c.1 ∧ c.1 < a + bs.length) := by
  induction bs generalizing a r with
  | nil => exact .inl h
  | cons b bs ih =>
    simp only [List.length_cons]
    rcases ih h with h1 | h1
    · rcases List.mem_cons.1 h1 with rfl | h2
      · exact .inr ⟨Nat.le_refl _, by simp⟩
      · exact .inl h2
    · exact .inr (by omega)

theorem Run.wrote_storeBytes {r : Run} {base j : Nat} {bs : List Byte} {out : Nat → Byte}
    (h : ∀ i, i < bs.length → bs.getD i 0 = out (j + i)) :
    Run.Wrote r (Run.storeBytes (base + j) bs r) base (fun k => j ≤ k ∧ k < j + bs.length) out where
  onlyMem := by rw [Run.storeBytes_st]
  value k hk := by
    rw [Run.storeBytes_st]
    show Memory.read (Memory.writeBytes r.st.mem (base + j) bs) (base + k) = out k
    rw [Memory.read_writeBytes, if_pos ⟨by omega, by omega⟩, show base + k - (base + j) = k - j by omega,
      h _ (by omega), show j + (k - j) = k by omega]
  other a ha := by
    rw [Run.storeBytes_st]
    show Memory.read (Memory.writeBytes r.st.mem (base + j) bs) a = _
    rw [Memory.read_writeBytes, if_neg]
    rintro ⟨h1, h2⟩
    exact ha (a - base) ⟨by omega, by omega⟩ (by omega)
  logged c hc := (Run.storeBytes_logged hc).imp id fun h => ⟨c.1 - base, ⟨by omega, by omega⟩, by omega⟩

/-- A loop each of whose passes writes its own offsets writes them all. -/
theorem forEach_wrote {body : Nat → Run → Except Run Run} {n : Nat} {r : Run} {base : Nat}
    {W : Nat → Nat → Prop} {out : Nat → Byte}
    (hs : ∀ i r', i < n → Run.Wrote r r' base (fun j => ∃ k, k < i ∧ W k j) out →
      ∃ r'', body i r' = .ok r'' ∧ Run.Wrote r' r'' base (W i) out) :
    ∃ r', forEach n body r = .ok r' ∧ Run.Wrote r r' base (fun j => ∃ k, k < n ∧ W k j) out := by
  apply Ends.exists_ok
  refine forEach_ends (fun i r' => Run.Wrote r r' base (fun j => ∃ k, k < i ∧ W k j) out) ?_ ?_
  · exact (Run.Wrote.refl r base out).congr fun j => by simp
  · intro i r' hi hw
    obtain ⟨r'', hb, hw'⟩ := hs i r' hi hw
    rw [hb]
    refine (hw.trans hw').congr fun j => ?_
    constructor
    · rintro ⟨k, hk, hj⟩
      rcases Nat.lt_succ_iff_lt_or_eq.1 hk with hk | rfl
      · exact .inl ⟨k, hk, hj⟩
      · exact .inr hj
    · rintro (⟨k, hk, hj⟩ | hj)
      · exact ⟨k, by omega, hj⟩
      · exact ⟨i, by omega, hj⟩

/-- What a run that wrote only elsewhere still reads. -/
theorem Run.Wrote.read_apart {r r' : Run} {base : Nat} {W : Nat → Prop} {out : Nat → Byte}
    (h : Run.Wrote r r' base W out) {L a : Nat} (hW : ∀ j, W j → j < L)
    (ha : a < base ∨ base + L ≤ a) : Memory.read r'.st.mem a = Memory.read r.st.mem a :=
  h.other a fun j hj he => by have := hW j hj; omega

/-! ### One scalar stage -/

theorem stageOutput_low {fh : Nat} {u : Nat → Byte} {g i : Nat} (h : i < fh) :
    stageOutput fh u (g * (2 * fh) + i) = u (g * (2 * fh) + 2 * i) ^^^ u (g * (2 * fh) + 2 * i + 1) := by
  have hp : 0 < 2 * fh := by omega
  have hd : (g * (2 * fh) + i) / (2 * fh) = g := by
    rw [Nat.mul_comm, Nat.mul_add_div hp, Nat.div_eq_of_lt (by omega), Nat.add_zero]
  have hm : (g * (2 * fh) + i) % (2 * fh) = i := by
    rw [Nat.mul_comm, Nat.mul_add_mod, Nat.mod_eq_of_lt (by omega)]
  simp only [stageOutput, hd, hm, if_pos h]

theorem stageOutput_high {fh : Nat} {u : Nat → Byte} {g i : Nat} (h : i < fh) :
    stageOutput fh u (g * (2 * fh) + fh + i) = u (g * (2 * fh) + 2 * i + 1) := by
  have hp : 0 < 2 * fh := by omega
  have hd : (g * (2 * fh) + fh + i) / (2 * fh) = g := by
    rw [Nat.add_assoc, Nat.mul_comm, Nat.mul_add_div hp, Nat.div_eq_of_lt (by omega), Nat.add_zero]
  have hm : (g * (2 * fh) + fh + i) % (2 * fh) = fh + i := by
    rw [Nat.add_assoc, Nat.mul_comm, Nat.mul_add_mod, Nat.mod_eq_of_lt (by omega)]
  simp only [stageOutput, hd, hm, if_neg (show ¬ fh + i < fh by omega),
    show fh + i - fh = i by omega]

/-- An offset of branch g lies in the span of the first nb branches. -/
theorem branch_le {g nb fh : Nat} (hg : g < nb) : g * (2 * fh) + 2 * fh ≤ nb * (2 * fh) := by
  calc g * (2 * fh) + 2 * fh = (g + 1) * (2 * fh) := by rw [Nat.add_mul, Nat.one_mul]
    _ ≤ nb * (2 * fh) := Nat.mul_le_mul_right _ hg

/-- The windows a stage of span L needs: both in `M`, sharing no address. -/
structure Run.StageRoom (r : Run) (L : Nat) : Prop where
  temp : r.st.tempBase.toNat + L ≤ r.st.memSize
  frame : r.st.frameBase.toNat + L ≤ r.st.memSize
  apart : Apart r.st.tempBase L r.st.frameBase L

/-- What a stage leaves: `FRAME[0..L-1]` holds the stage's output from the `TEMP` it found. -/
abbrev Run.StageDone (r r' : Run) (fh L : Nat) : Prop :=
  Run.Wrote r r' r.st.frameBase.toNat (fun j => j < L) (stageOutput fh r.st.temp)

theorem Run.Wrote.temp_eq {r r' : Run} {W : Nat → Prop} {out : Nat → Byte} {L i : Nat}
    (h : Run.Wrote r r' r.st.frameBase.toNat W out) (room : r.StageRoom L)
    (hW : ∀ j, W j → j < L) (hi : i < L) :
    Memory.read r'.st.mem (r.st.tempBase.toNat + i) = r.st.temp i := by
  refine h.read_apart hW ?_
  rcases room.apart with h1 | h1 <;> omega

theorem butterflyAt_ok {r r' : Run} {W : Nat → Prop} {fh nb g i : Nat}
    (room : r.StageRoom (nb * (2 * fh))) (hg : g < nb) (hi : i < fh)
    (h : Run.Wrote r r' r.st.frameBase.toNat W (stageOutput fh r.st.temp))
    (hW : ∀ j, W j → j < nb * (2 * fh)) :
    ∃ r'', butterflyAt (g * (2 * fh)) fh i r' = .ok r'' ∧
      Run.Wrote r' r'' r.st.frameBase.toNat
        (fun j => j = g * (2 * fh) + i ∨ j = g * (2 * fh) + fh + i) (stageOutput fh r.st.temp) := by
  have hb := branch_le (fh := fh) hg
  have hT := room.temp
  have hF := room.frame
  have hbase : r'.st.tempBase = r.st.tempBase ∧ r'.st.frameBase = r.st.frameBase
      ∧ r'.st.memSize = r.st.memSize := by rw [h.onlyMem]; exact ⟨rfl, rfl, rfl⟩
  obtain ⟨e1, e2, e3⟩ := hbase
  have t0 := h.temp_eq (i := g * (2 * fh) + 2 * i) room hW (by omega)
  have t1 := h.temp_eq (i := g * (2 * fh) + 2 * i + 1) room hW (by omega)
  unfold butterflyAt Run.readTemp State.tempAddr
  rw [Run.memRead_inside (by rw [e1, e3]; omega)]
  simp only [Except.bind]
  rw [Run.memRead_inside (by rw [e1, e3]; omega)]
  simp only [e1, t0, t1]
  unfold Run.writeFrame State.frameAddr
  rw [Run.memWrite_inside _ (by rw [e2, e3]; omega)]
  simp only [Run.store_frameBase, e2]
  rw [Run.memWrite_inside _ (by simp [e3]; omega)]
  exact ⟨_, rfl, (Run.wrote_store (stageOutput_low hi).symm).trans
    (Run.wrote_store (stageOutput_high hi).symm)⟩

/-- One scalar stage (R131): every offset of the span gets the stage's output, nothing else changes. -/
theorem doBfs_ok {r : Run} {nb fh : Nat} (hnb : r.st.numBranches.toNat = nb)
    (hfh : r.st.frameHalf.toNat = fh) (room : r.StageRoom (nb * (2 * fh))) :
    ∃ r', doBfs r = .ok r' ∧ r.StageDone r' fh (nb * (2 * fh)) := by
  have key := forEach_wrote (n := nb) (r := r) (base := r.st.frameBase.toNat)
    (body := butterflyBranch fh)
    (W := fun g j => g * (2 * fh) ≤ j ∧ j < g * (2 * fh) + 2 * fh)
    (out := stageOutput fh r.st.temp) ?_
  · obtain ⟨r', h1, h2⟩ := key
    refine ⟨r', by rw [doBfs, hnb, hfh, h1], h2.congr fun j => ⟨fun hj => ?_, ?_⟩⟩
    · have hp : 0 < 2 * fh := by
        rcases Nat.eq_zero_or_pos (2 * fh) with h0 | h0
        · rw [h0] at hj; omega
        · exact h0
      have h3 := Nat.div_add_mod j (2 * fh)
      have h4 := Nat.mod_lt j hp
      rw [Nat.mul_comm] at h3
      exact ⟨j / (2 * fh), (Nat.div_lt_iff_lt_mul hp).2 hj, by omega, by omega⟩
    · rintro ⟨g, hg, _, h5⟩
      have := branch_le (fh := fh) hg
      omega
  · intro g r' hg hw
    have hW : ∀ j, (∃ k, k < g ∧ k * (2 * fh) ≤ j ∧ j < k * (2 * fh) + 2 * fh) → j < nb * (2 * fh) := by
      rintro j ⟨k, hk, _, h5⟩
      have := branch_le (fh := fh) (show k < nb by omega)
      omega
    have inner := forEach_wrote (n := fh) (r := r') (base := r.st.frameBase.toNat)
      (body := butterflyAt (g * (2 * fh)) fh)
      (W := fun i j => j = g * (2 * fh) + i ∨ j = g * (2 * fh) + fh + i)
      (out := stageOutput fh r.st.temp) ?_
    · obtain ⟨r'', h1, h2⟩ := inner
      refine ⟨r'', h1, h2.congr fun j => ⟨fun hj => ?_, ?_⟩⟩
      · by_cases hlow : j < g * (2 * fh) + fh
        · exact ⟨j - g * (2 * fh), by omega, .inl (by omega)⟩
        · exact ⟨j - (g * (2 * fh) + fh), by omega, .inr (by omega)⟩
      · rintro ⟨i, hi, h | h⟩ <;> omega
    · intro i r'' hi hw'
      refine butterflyAt_ok room hg hi (hw.trans hw') ?_
      rintro j (hj | ⟨k, hk, hj | hj⟩)
      · exact hW j hj
      · have := branch_le (fh := fh) hg; omega
      · have := branch_le (fh := fh) hg; omega

/-- The copy back (R132). -/
theorem doCpb_ok {r : Run} (room : r.StageRoom r.st.frameLength) :
    ∃ r', doCpb r = .ok r' ∧
      Run.Wrote r r' r.st.tempBase.toNat (fun j => j < r.st.frameLength) r.st.frame := by
  have hT := room.temp
  have hF := room.frame
  have key := forEach_wrote (n := r.st.frameLength) (r := r) (base := r.st.tempBase.toNat)
    (body := copyBackAt) (W := fun i j => j = i) (out := r.st.frame) ?_
  · obtain ⟨r', h1, h2⟩ := key
    exact ⟨r', h1, h2.congr fun j => by simp⟩
  · intro i r' hi hw
    have hbase : r'.st.tempBase = r.st.tempBase ∧ r'.st.frameBase = r.st.frameBase
        ∧ r'.st.memSize = r.st.memSize := by rw [hw.onlyMem]; exact ⟨rfl, rfl, rfl⟩
    obtain ⟨e1, e2, e3⟩ := hbase
    have hrd : Memory.read r'.st.mem (r.st.frameBase.toNat + i) = r.st.frame i := by
      refine hw.read_apart (L := r.st.frameLength) ?_ ?_
      · rintro j ⟨k, hk, rfl⟩; omega
      · rcases room.apart with h1 | h1 <;> omega
    unfold copyBackAt Run.readFrame State.frameAddr
    rw [Run.memRead_inside (by rw [e2, e3]; omega)]
    simp only [Except.bind, e2, hrd]
    unfold Run.writeTemp State.tempAddr
    rw [e1, Run.memWrite_inside _ (by rw [e3]; omega)]
    exact ⟨_, rfl, Run.wrote_store rfl⟩

/-! ### Vector stages -/

theorem vload_ok {r : Run} {aln : Bool} {a : Nat} (h : a + 16 ≤ r.st.memSize) :
    r.vload aln a = .ok (Vector.ofFn fun i => Memory.read r.st.mem (a + i.val)) := by
  cases aln <;> exact Run.memRead16_inside h

theorem vstore_ok {r : Run} {aln : Bool} {a : Nat} (v : Vec) (h : a + 16 ≤ r.st.memSize) :
    r.vstore aln a v = .ok (Run.storeBytes a v.toList r) := by
  cases aln <;> exact Run.memWrite16_inside v h

/-- The offsets of one chunk of `MAC`: sixteen of each half of its branch. -/
abbrev chunkOffsets (fh fp j : Nat) : Prop :=
  (fp ≤ j ∧ j < fp + 16) ∨ (fp + fh ≤ j ∧ j < fp + fh + 16)

theorem macroChunk_ok {r r' : Run} {W : Nat → Prop} {aln : Bool} {fh nb g c : Nat}
    (room : r.StageRoom (nb * (2 * fh))) (hg : g < nb) (hc : 16 * c + 16 ≤ fh)
    (h : Run.Wrote r r' r.st.frameBase.toNat W (stageOutput fh r.st.temp))
    (hW : ∀ j, W j → j < nb * (2 * fh)) :
    ∃ r'', macroChunk aln fh (g * (2 * fh) + 32 * c) (g * (2 * fh) + 16 * c) r' = .ok r'' ∧
      Run.Wrote r' r'' r.st.frameBase.toNat (chunkOffsets fh (g * (2 * fh) + 16 * c))
        (stageOutput fh r.st.temp) := by
  have hb := branch_le (fh := fh) hg
  have hT := room.temp
  have hF := room.frame
  have hbase : r'.st.tempBase = r.st.tempBase ∧ r'.st.frameBase = r.st.frameBase
      ∧ r'.st.memSize = r.st.memSize := by rw [h.onlyMem]; exact ⟨rfl, rfl, rfl⟩
  obtain ⟨e1, e2, e3⟩ := hbase
  have tr : ∀ i, i < nb * (2 * fh) →
      Memory.read r'.st.mem (r.st.tempBase.toNat + i) = r.st.temp i :=
    fun i hi => h.temp_eq room hW hi
  have ln : ∀ tp k, k < 16 → tp + 16 ≤ nb * (2 * fh) →
      lane (Vector.ofFn fun i : Fin 16 => Memory.read r'.st.mem (r.st.tempBase.toNat + tp + i.val)) k
        = r.st.temp (tp + k) := by
    intro tp k hk htp
    rw [lane_ofFn _ _ hk, Nat.add_assoc]
    exact tr _ (by omega)
  unfold macroChunk State.tempAddr State.frameAddr
  rw [vload_ok (by rw [e1, e3]; omega)]
  simp only [Except.bind]
  rw [vload_ok (by rw [e1, e3]; omega)]
  simp only [e1, e2]
  rw [vstore_ok _ (by rw [e3]; omega)]
  simp only
  have hms : ∀ a bs, (Run.storeBytes a bs r').st.memSize = r'.st.memSize := fun a bs => by
    rw [Run.storeBytes_st]; rfl
  have hfb : ∀ a bs, (Run.storeBytes a bs r').st.frameBase = r'.st.frameBase := fun a bs => by
    rw [Run.storeBytes_st]
  rw [hfb, e2, vstore_ok _ (by rw [hms, e3]; omega)]
  refine ⟨_, rfl, ?_⟩
  refine ((Run.wrote_storeBytes (r := r') ?_).trans (Run.wrote_storeBytes ?_)).congr ?_
  · intro i hi
    rw [vec_toList_length] at hi
    rw [vec_toList_getD, lane_vcatlo_butterfly _ _ hi,
      show g * (2 * fh) + 16 * c + i = g * (2 * fh) + (16 * c + i) by omega,
      stageOutput_low (by omega)]
    split
    · rw [ln _ _ (by omega) (by omega), ln _ _ (by omega) (by omega)]
      congr 2 <;> omega
    · rw [ln _ _ (by omega) (by omega), ln _ _ (by omega) (by omega)]
      congr 2 <;> omega
  · intro i hi
    rw [vec_toList_length] at hi
    rw [vec_toList_getD, lane_vcathi_butterfly _ _ hi,
      show g * (2 * fh) + 16 * c + fh + i = g * (2 * fh) + fh + (16 * c + i) by omega,
      stageOutput_high (by omega)]
    split
    · rw [ln _ _ (by omega) (by omega)]
      congr 1; omega
    · rw [ln _ _ (by omega) (by omega)]
      congr 1; omega
  · intro j
    simp only [vec_toList_length, chunkOffsets]

/-- One macro stage computes what one scalar stage does (R161, R162). -/
theorem doMac_ok {r : Run} {aln : Bool} {nb q : Nat} (hnb : r.st.numBranches.toNat = nb)
    (hfh : r.st.frameHalf.toNat = 16 * q) (room : r.StageRoom (nb * (2 * (16 * q)))) :
    ∃ r', doMac aln r = .ok r' ∧ r.StageDone r' (16 * q) (nb * (2 * (16 * q))) := by
  have hq : chunksPerBranch (16 * q) = q := by unfold chunksPerBranch; omega
  have key := forEach_wrote (n := nb) (r := r) (base := r.st.frameBase.toNat)
    (body := macroBranch aln (16 * q))
    (W := fun g j => g * (2 * (16 * q)) ≤ j ∧ j < g * (2 * (16 * q)) + 2 * (16 * q))
    (out := stageOutput (16 * q) r.st.temp) ?_
  · obtain ⟨r', h1, h2⟩ := key
    refine ⟨r', by rw [doMac, hnb, hfh, h1], h2.congr fun j => ⟨fun hj => ?_, ?_⟩⟩
    · have hp : 0 < 2 * (16 * q) := by
        rcases Nat.eq_zero_or_pos (2 * (16 * q)) with h0 | h0
        · rw [h0] at hj; omega
        · exact h0
      have h3 := Nat.div_add_mod j (2 * (16 * q))
      have h4 := Nat.mod_lt j hp
      rw [Nat.mul_comm] at h3
      exact ⟨j / (2 * (16 * q)), (Nat.div_lt_iff_lt_mul hp).2 hj, by omega, by omega⟩
    · rintro ⟨g, hg, _, h5⟩
      have := branch_le (fh := 16 * q) hg
      omega
  · intro g r' hg hw
    have hW : ∀ j, (∃ k, k < g ∧ k * (2 * (16 * q)) ≤ j ∧ j < k * (2 * (16 * q)) + 2 * (16 * q)) →
        j < nb * (2 * (16 * q)) := by
      rintro j ⟨k, hk, _, h5⟩
      have := branch_le (fh := 16 * q) (show k < nb by omega)
      omega
    have hb := branch_le (fh := 16 * q) hg
    have inner := forEach_wrote (n := q) (r := r') (base := r.st.frameBase.toNat)
      (body := fun c => macroChunk aln (16 * q) (g * (32 * chunksPerBranch (16 * q)) + 32 * c)
        (g * (16 * chunksPerBranch (16 * q) + 16 * q) + 16 * c))
      (W := fun c j => chunkOffsets (16 * q) (g * (2 * (16 * q)) + 16 * c) j)
      (out := stageOutput (16 * q) r.st.temp) ?_
    · obtain ⟨r'', h1, h2⟩ := inner
      refine ⟨r'', by rw [macroBranch, hq] at *; exact h1, h2.congr fun j => ⟨fun hj => ?_, ?_⟩⟩
      · by_cases hlow : j < g * (2 * (16 * q)) + 16 * q
        · exact ⟨(j - g * (2 * (16 * q))) / 16, by omega, .inl ⟨by omega, by omega⟩⟩
        · exact ⟨(j - (g * (2 * (16 * q)) + 16 * q)) / 16, by omega, .inr ⟨by omega, by omega⟩⟩
      · rintro ⟨c, hc, h | h⟩ <;> omega
    · intro c r'' hc hw'
      rw [hq, show g * (32 * q) = g * (2 * (16 * q)) by congr 1; omega,
        show g * (16 * q + 16 * q) = g * (2 * (16 * q)) by congr 1; omega]
      refine macroChunk_ok room hg (by omega) (hw.trans hw') ?_
      rintro j (hj | ⟨k, hk, hj⟩)
      · exact hW j hj
      · rcases hj with hj | hj <;> omega

/-- What the fused micro stage computes at an offset: its chunk's four fused stages (R171). -/
def microOutput (u : Nat → Byte) (j : Nat) : Byte :=
  lane (fusedStages (Vector.ofFn fun i => u (16 * (j / 16) + i.val))) (j % 16)

/-- One fused micro stage (R171): every chunk gets its four fused stages; then the register writes. -/
theorem doMic_ok {r : Run} {aln : Bool} {nb : Nat} (hnb : r.st.numBranches.toNat = nb)
    (room : r.StageRoom (16 * nb)) :
    ∃ r', doMic aln r = .ok { r' with st := r'.st.finishStages } ∧
      Run.Wrote r r' r.st.frameBase.toNat (fun j => j < 16 * nb) (microOutput r.st.temp) := by
  have hT := room.temp
  have hF := room.frame
  have key := forEach_wrote (n := nb) (r := r) (base := r.st.frameBase.toNat)
    (body := microChunk aln) (W := fun g j => 16 * g ≤ j ∧ j < 16 * g + 16)
    (out := microOutput r.st.temp) ?_
  · obtain ⟨r', h1, h2⟩ := key
    refine ⟨r', by rw [doMic, hnb, h1]; rfl, h2.congr fun j => ⟨fun hj => ?_, ?_⟩⟩
    · exact ⟨j / 16, by omega, by omega, by omega⟩
    · rintro ⟨g, hg, _, h5⟩; omega
  · intro g r' hg hw
    have hbase : r'.st.tempBase = r.st.tempBase ∧ r'.st.frameBase = r.st.frameBase
        ∧ r'.st.memSize = r.st.memSize := by rw [hw.onlyMem]; exact ⟨rfl, rfl, rfl⟩
    obtain ⟨e1, e2, e3⟩ := hbase
    have hW : ∀ j, (∃ k, k < g ∧ 16 * k ≤ j ∧ j < 16 * k + 16) → j < 16 * nb := by
      rintro j ⟨k, hk, _, h5⟩; omega
    unfold microChunk State.tempAddr State.frameAddr
    rw [vload_ok (by rw [e1, e3]; omega)]
    simp only [Except.bind, e1, e2]
    rw [vstore_ok _ (by rw [e3]; omega)]
    refine ⟨_, rfl, (Run.wrote_storeBytes ?_).congr fun j => by simp⟩
    intro i hi
    rw [vec_toList_length] at hi
    rw [vec_toList_getD, microOutput, show (16 * g + i) / 16 = g by omega,
      show (16 * g + i) % 16 = i by omega]
    congr 3
    funext k
    rw [Nat.add_assoc]
    exact hw.temp_eq room hW (by omega)

end Sys2Proof.Machine
end

