-- ==== Sys2Proof/Laws/Transforms.lean ====
section
/-! SUPPORT. The interleaver: `do_ILV()` is the walk of R121 whatever overlaps what, and the walk's closed
form when `TEMP` overlaps none of the inputs (R126). -/

namespace Sys2Proof.Machine

/-! ### Small facts about the stage function -/

/-- A stage reads only offsets of its span. -/
theorem stageOutput_congr {fh nb j : Nat} {u v : Nat → Byte}
    (h : ∀ i, i < nb * (2 * fh) → u i = v i) (hj : j < nb * (2 * fh)) :
    stageOutput fh u j = stageOutput fh v j := by
  have hp : 0 < 2 * fh := by
    rcases Nat.eq_zero_or_pos (2 * fh) with h0 | h0
    · rw [h0] at hj; omega
    · exact h0
  have h3 := Nat.div_add_mod j (2 * fh)
  have h4 := Nat.mod_lt j hp
  rw [Nat.mul_comm] at h3
  have h5 := branch_le (fh := fh) ((Nat.div_lt_iff_lt_mul hp).2 hj)
  simp only [stageOutput]
  split
  · rw [h _ (by omega), h _ (by omega)]
  · rw [h _ (by omega)]

/-- A stage whose branches lie inside the chunks of size L works chunk by chunk. -/
theorem stageOutput_chunk {fh q L : Nat} (hq : q * (2 * fh) = L) (v : Nat → Byte) (g i : Nat) :
    stageOutput fh v (L * g + i) = stageOutput fh (fun k => v (L * g + k)) i := by
  rcases Nat.eq_zero_or_pos (2 * fh) with h0 | hp
  · subst hq
    have h1 : fh = 0 := by omega
    subst h1
    simp [stageOutput]
  · have hL : L * g = (g * q) * (2 * fh) := by rw [Nat.mul_assoc, hq, Nat.mul_comm]
    have hd : (L * g + i) / (2 * fh) * (2 * fh) = L * g + i / (2 * fh) * (2 * fh) := by
      rw [hL, Nat.add_comm, Nat.add_mul_div_right _ _ hp, Nat.add_mul, Nat.add_comm]
    have hm : (L * g + i) % (2 * fh) = i % (2 * fh) := by
      rw [hL, Nat.add_comm, Nat.add_mul_mod_self_right]
    simp only [stageOutput, hd, hm, Nat.add_assoc]

theorem word_ofNat_succ (k : Nat) : (BitVec.ofNat 32 k + 1 : Word) = BitVec.ofNat 32 (k + 1) := by
  apply BitVec.eq_of_toNat_eq
  simp [BitVec.toNat_add]

/-! ### The walk -/

/-- One position of the walk. -/
theorem walk_succ {s : State} {k f : Nat} {m : Nat → Byte} (h : s.walk k = some (m, f)) :
    s.walk (k + 1) =
      if s.sourceAddr m f k < s.memSize then
        some (fun a => if a = s.tempAddr k then m (s.sourceAddr m f k) else m a,
          if m (s.maskAddr k) ≠ 0 then f + 1 else f)
      else none := by
  simp only [State.walk, h]

/-- A walk that reached k reached every earlier position. -/
theorem walk_earlier {s : State} {k : Nat} {x : (Nat → Byte) × Nat} (h : s.walk k = some x) {j : Nat}
    (hj : j ≤ k) : ∃ y, s.walk j = some y := by
  induction k generalizing x with
  | zero => exact ⟨x, by rw [show j = 0 by omega]; exact h⟩
  | succ k ih =>
    rcases Nat.lt_or_ge j (k + 1) with h1 | h1
    · cases h2 : s.walk k with
      | none => simp [State.walk, h2] at h
      | some y => exact ih h2 (by omega)
    · exact ⟨x, by rw [show j = k + 1 by omega]; exact h⟩

/-- What the walk may consume and write. -/
theorem walk_bounds {s : State} {k f : Nat} {m : Nat → Byte} (h : s.walk k = some (m, f)) :
    f ≤ k ∧ ∀ a, ¬ InWindow s.tempBase k a → m a = Memory.read s.mem a := by
  induction k generalizing m f with
  | zero =>
    simp only [State.walk, Option.some.injEq, Prod.mk.injEq] at h
    obtain ⟨rfl, rfl⟩ := h
    exact ⟨Nat.le_refl _, fun _ _ => rfl⟩
  | succ k ih =>
    cases h2 : s.walk k with
    | none => simp [State.walk, h2] at h
    | some y =>
      obtain ⟨m', f'⟩ := y
      rw [walk_succ h2] at h
      split at h
      · simp only [Option.some.injEq, Prod.mk.injEq] at h
        obtain ⟨rfl, rfl⟩ := h
        obtain ⟨h3, h4⟩ := ih h2
        refine ⟨by split <;> omega, fun a ha => ?_⟩
        have : a ≠ s.tempAddr k := by
          rintro rfl; exact ha ⟨by simp [State.tempAddr], by simp [State.tempAddr]⟩
        simp only [if_neg this]
        exact h4 a fun hw => ha ⟨hw.1, by have := hw.2; omega⟩
      · cases h

/-- The first position at which the walk stops. -/
theorem walk_stops {s : State} {n : Nat} (h : s.walk n = none) :
    ∃ k m f, k < n ∧ s.walk k = some (m, f) ∧ s.memSize ≤ s.sourceAddr m f k := by
  induction n with
  | zero => cases h
  | succ n ih =>
    cases h2 : s.walk n with
    | none =>
      obtain ⟨k, m, f, h3, h4⟩ := ih h2
      exact ⟨k, m, f, by omega, h4⟩
    | some y =>
      obtain ⟨m, f⟩ := y
      rw [walk_succ h2] at h
      split at h
      · cases h
      · rename_i h3
        exact ⟨n, m, f, by omega, h2, by omega⟩

/-! ### `do_ILV()` is the walk -/

/-- The run after k positions of `do_ILV()` from the state s, when `M` holds m and f frozen values are
consumed. -/
structure Run.Walked (s : State) (k f : Nat) (m : Nat → Byte) (r : Run) : Prop where
  regs : r.st = { s with
    mem := r.st.mem
    frozenIdx := BitVec.ofNat 32 f
    infoIdx := BitVec.ofNat 32 (k - f) }
  mem : ∀ a, Memory.read r.st.mem a = m a
  logged : ∀ c ∈ r.log, InWindow s.tempBase k c.1

/-- One position of `do_ILV()`. -/
theorem interleaveAt_walk {s : State} {k f : Nat} {m : Nat → Byte} {r : Run}
    (h : Run.Walked s k f m r) (hf : f ≤ k) (hk : k < s.frameLength) (hT : s.Fits s.tempBase)
    (hM : s.Fits s.maskBase) :
    if s.sourceAddr m f k < s.memSize then
      ∃ r', interleaveAt k r = .ok r' ∧
        Run.Walked s (k + 1) (if m (s.maskAddr k) ≠ 0 then f + 1 else f)
          (fun a => if a = s.tempAddr k then m (s.sourceAddr m f k) else m a) r'
    else interleaveAt k r = .error (r.raise .busError (s.sourceAddr m f k)) := by
  unfold State.Fits at hT hM
  have hlt : s.frameLength < 2 ^ 32 := s.frameSize.isLt
  have e1 : r.st.maskBase = s.maskBase := by rw [h.regs]
  have e2 : r.st.memSize = s.memSize := by rw [h.regs]; rfl
  have e3 : r.st.frozenIdx.toNat = f := by
    rw [h.regs]; simp only [BitVec.toNat_ofNat]; exact Nat.mod_eq_of_lt (by omega)
  have e4 : r.st.infoIdx.toNat = k - f := by
    rw [h.regs]; simp only [BitVec.toNat_ofNat]; exact Nat.mod_eq_of_lt (by omega)
  have e5 : r.st.frozenBase = s.frozenBase := by rw [h.regs]
  have e6 : r.st.infoBase = s.infoBase := by rw [h.regs]
  have e7 : r.st.tempBase = s.tempBase := by rw [h.regs]
  have stored : ∀ (r' : Run) (g : Nat) (b : Byte),
      r'.st = { s with
        mem := r'.st.mem
        frozenIdx := BitVec.ofNat 32 g
        infoIdx := BitVec.ofNat 32 (k + 1 - g) } →
      r'.st.mem = r.st.mem → r'.log = r.log →
      Run.Walked s (k + 1) g (fun a => if a = s.tempAddr k then b else m a)
        (r'.store (s.tempAddr k) b) := by
    intro r' g b hr hmem hlog
    refine ⟨?_, fun a => ?_, fun c hc => ?_⟩
    · have hst : (r'.store (s.tempAddr k) b).st =
          { r'.st with mem := Memory.write r'.st.mem (s.tempAddr k) b } := rfl
      rw [hst, hr]
    · rw [Run.store_mem, Memory.read_write, hmem, h.mem]
    · rcases List.mem_cons.1 hc with rfl | hc
      · exact ⟨by simp [State.tempAddr], by simp [State.tempAddr]⟩
      · rw [hlog] at hc
        exact ⟨(h.logged c hc).1, by have := (h.logged c hc).2; omega⟩
  unfold interleaveAt Run.readMask State.maskAddr
  rw [e1, Run.memRead_inside (by rw [e2]; omega), h.mem]
  simp only [Except.bind]
  unfold State.sourceAddr State.maskAddr
  by_cases hz : m (s.maskBase.toNat + k) ≠ 0
  · simp only [if_pos hz]
    unfold State.frozenAddr
    rw [e3, e5]
    split
    · rename_i hin
      rw [Run.memRead_inside (by rw [e2]; exact hin), h.mem]
      simp only
      unfold Run.writeTemp
      simp only [Run.countFrozen_tempAddr]
      unfold State.tempAddr
      rw [e7, Run.memWrite_inside _ (by simp only [Run.countFrozen_memSize, e2]; omega)]
      refine ⟨_, rfl, stored r.countFrozen (f + 1) _ ?_ rfl rfl⟩
      show { r.st with frozenIdx := r.st.frozenIdx + 1 } = _
      rw [h.regs]
      rw [word_ofNat_succ, show k + 1 - (f + 1) = k - f by omega]
      rfl
    · rename_i hout
      rw [Run.memRead_outside (by rw [e2]; omega)]
  · simp only [if_neg hz]
    unfold State.infoAddr
    rw [e4, e6]
    split
    · rename_i hin
      rw [Run.memRead_inside (by rw [e2]; exact hin), h.mem]
      simp only
      unfold Run.writeTemp
      simp only [Run.countInfo_tempAddr]
      unfold State.tempAddr
      rw [e7, Run.memWrite_inside _ (by simp only [Run.countInfo_memSize, e2]; omega)]
      refine ⟨_, rfl, stored r.countInfo f _ ?_ rfl rfl⟩
      show { r.st with infoIdx := r.st.infoIdx + 1 } = _
      rw [h.regs]
      rw [word_ofNat_succ, show k - f + 1 = k + 1 - f by omega]
      rfl
    · rename_i hout
      rw [Run.memRead_outside (by rw [e2]; omega)]

/-- The first k positions of `do_ILV()`, when the walk gets there. -/
theorem interleave_prefix {r : Run} {k f : Nat} {m : Nat → Byte} (hl : r.log = [])
    (hk : k ≤ r.st.frameLength)
    (hT : r.st.Fits r.st.tempBase) (hM : r.st.Fits r.st.maskBase)
    (hw : r.st.walk k = some (m, f)) :
    ∃ r', forEach k interleaveAt r.clearIndices = .ok r' ∧ Run.Walked r.st k f m r' := by
  have key : ∃ r', forEach k interleaveAt r.clearIndices = .ok r' ∧
      ∃ m f, r.st.walk k = some (m, f) ∧ Run.Walked r.st k f m r' := by
    apply Ends.exists_ok
    refine forEach_ends (fun i r' => ∃ m f, r.st.walk i = some (m, f) ∧ Run.Walked r.st i f m r')
      ⟨_, _, rfl, rfl, fun _ => rfl, fun c hc => absurd (hl ▸ hc) (List.not_mem_nil)⟩ ?_
    rintro i r' hi ⟨m', f', h1, h2⟩
    obtain ⟨y, hy⟩ := walk_earlier hw (show i + 1 ≤ k by omega)
    have h3 := walk_succ h1
    have h4 := interleaveAt_walk h2 (walk_bounds h1).1 (by omega) hT hM
    by_cases hin : r.st.sourceAddr m' f' i < r.st.memSize
    · rw [if_pos hin] at h3 h4
      obtain ⟨r'', h5, h6⟩ := h4
      rw [h5]
      exact ⟨_, _, h3, h6⟩
    · rw [if_neg hin, hy] at h3; cases h3
  obtain ⟨r', h1, m', f', h2, h3⟩ := key
  rw [hw] at h2
  simp only [Option.some.injEq, Prod.mk.injEq] at h2
  obtain ⟨rfl, rfl⟩ := h2
  exact ⟨r', h1, h3⟩

/-- `do_ILV()` when no value's address leaves `M` (R121). -/
theorem doIlv_ok {r : Run} {f : Nat} {m : Nat → Byte} (hl : r.log = []) (hT : r.st.Fits r.st.tempBase)
    (hM : r.st.Fits r.st.maskBase) (hw : r.st.walk r.st.frameLength = some (m, f)) :
    ∃ r', doIlv r = .ok r' ∧ Run.Walked r.st r.st.frameLength f m r' :=
  interleave_prefix hl (Nat.le_refl _) hT hM hw

theorem loopFrom_add (body : Nat → Run → Except Run Run) (a b start : Nat) (r : Run) :
    loopFrom body (a + b) start r =
      (loopFrom body a start r).bind (loopFrom body b (start + a)) := by
  induction a generalizing start r with
  | zero => simp [loopFrom, Except.bind]
  | succ n ih =>
    rw [show n + 1 + b = n + b + 1 by omega]
    simp only [loopFrom]
    cases h : body start r with
    | error e => rfl
    | ok r' =>
      simp only [Except.bind]
      rw [ih, show start + 1 + n = start + (n + 1) by omega]
      rfl

/-- `do_ILV()` stopped at position k, the first whose value is outside `M` (R123, R211). -/
theorem doIlv_broken {r : Run} {k f : Nat} {m : Nat → Byte} (hl : r.log = []) (hk : k < r.st.frameLength)
    (hT : r.st.Fits r.st.tempBase) (hM : r.st.Fits r.st.maskBase) (hw : r.st.walk k = some (m, f))
    (hout : r.st.memSize ≤ r.st.sourceAddr m f k) :
    ∃ r', doIlv r = .error (r'.raise .busError (r.st.sourceAddr m f k)) ∧
      Run.Walked r.st k f m r' := by
  obtain ⟨r', h1, h2⟩ := interleave_prefix hl (by omega) hT hM hw
  refine ⟨r', ?_, h2⟩
  have hb := interleaveAt_walk h2 (walk_bounds hw).1 hk hT hM
  rw [if_neg (by omega)] at hb
  unfold doIlv forEach
  rw [show r.st.frameLength = k + (r.st.frameLength - k) by omega, loopFrom_add]
  unfold forEach at h1
  rw [h1]
  obtain ⟨n, hn⟩ : ∃ n, r.st.frameLength - k = n + 1 := ⟨r.st.frameLength - k - 1, by omega⟩
  rw [hn]
  simp only [Except.bind, loopFrom, Nat.zero_add, hb]

/-! ### The closed form of the walk -/

theorem frozenBefore_succ (s : State) (i : Nat) :
    s.frozenBefore (i + 1) = s.frozenBefore i + if s.mask i ≠ 0 then 1 else 0 := by
  unfold State.frozenBefore
  rw [List.range_succ, List.countP_append]
  congr 1
  by_cases h : s.mask i = 0 <;> simp [h]

theorem frozenBefore_le (s : State) (i : Nat) : s.frozenBefore i ≤ i := by
  unfold State.frozenBefore
  exact (List.countP_le_length).trans (by simp)

theorem interleaved_eq (s : State) (i : Nat) :
    s.interleaved i = Memory.read s.mem (s.valueAddr i) := by
  unfold State.interleaved State.valueAddr; split <;> rfl

/-- When `TEMP` does not overlap the mask, the walk counts the mask as it was before (R126). -/
theorem walk_source {s : State} {k f : Nat} {m : Nat → Byte} (hk : k < s.frameLength)
    (hMA : Apart s.tempBase s.frameLength s.maskBase s.frameLength)
    (hw : s.walk k = some (m, f)) (hf : f = s.frozenBefore k) :
    m (s.maskAddr k) = s.mask k ∧ s.sourceAddr m f k = s.valueAddr k := by
  have hm : m (s.maskAddr k) = s.mask k := by
    refine (walk_bounds hw).2 _ ?_
    rintro ⟨h1, h2⟩
    unfold State.maskAddr at h1 h2
    rcases hMA with h3 | h3 <;> omega
  exact ⟨hm, by unfold State.sourceAddr State.valueAddr; rw [hm, hf]⟩

theorem walk_mask_apart {s : State} {k f : Nat} {m : Nat → Byte} (hk : k ≤ s.frameLength)
    (hMA : Apart s.tempBase s.frameLength s.maskBase s.frameLength)
    (hw : s.walk k = some (m, f)) : f = s.frozenBefore k := by
  induction k generalizing m f with
  | zero =>
    simp only [State.walk, Option.some.injEq, Prod.mk.injEq] at hw
    rw [← hw.2]; rfl
  | succ k ih =>
    obtain ⟨⟨m', f'⟩, h2⟩ := walk_earlier hw (show k ≤ k + 1 by omega)
    have hf := ih (by omega) h2
    have hm := (walk_source (by omega) hMA h2 hf).1
    have h3 := walk_succ h2
    rw [hw] at h3
    split at h3
    · simp only [Option.some.injEq, Prod.mk.injEq] at h3
      rw [h3.2, hm, frozenBefore_succ, hf]
      split <;> rfl
    · cases h3

/-- The walk reaches the end when the mask is not overwritten and the values are in `M` (R214). -/
theorem walk_reaches {s : State} {k : Nat} (hk : k ≤ s.frameLength)
    (hMA : Apart s.tempBase s.frameLength s.maskBase s.frameLength) (hin : s.ValuesInside k) :
    ∃ m f, s.walk k = some (m, f) := by
  induction k with
  | zero => exact ⟨_, _, rfl⟩
  | succ k ih =>
    obtain ⟨m, f, h⟩ := ih (by omega) fun i hi => hin i (by omega)
    have hf := walk_mask_apart (by omega) hMA h
    have hs := (walk_source (by omega) hMA h hf).2
    exact ⟨_, _, by rw [walk_succ h, if_pos (by rw [hs]; exact hin k (by omega))]⟩

/-- The interleave property (R126): `TEMP[i]` is the value of position i, as it was before. -/
theorem walk_values {s : State} {k f : Nat} {m : Nat → Byte} (hk : k ≤ s.frameLength)
    (hap : s.InputsApart k) (hw : s.walk k = some (m, f)) {i : Nat} (hi : i < k) :
    m (s.tempAddr i) = s.interleaved i := by
  induction k generalizing m f with
  | zero => omega
  | succ k ih =>
    obtain ⟨⟨m', f'⟩, h2⟩ := walk_earlier hw (show k ≤ k + 1 by omega)
    have hap' : s.InputsApart k := ⟨hap.1, fun i hi => hap.2 i (by omega)⟩
    have hf := walk_mask_apart (by omega) hap.1 h2
    have hs := (walk_source (by omega) hap.1 h2 hf).2
    have h3 := walk_succ h2
    rw [hw] at h3
    split at h3
    · simp only [Option.some.injEq, Prod.mk.injEq] at h3
      rw [h3.1, hs]
      simp only
      split
      · rename_i he
        have : i = k := by unfold State.tempAddr at he; omega
        subst this
        rw [interleaved_eq]
        exact (walk_bounds h2).2 _ fun hwn => hap.2 i (by omega)
          ⟨hwn.1, by have := hwn.2; omega⟩
      · rename_i he
        exact ih (by omega) hap' h2 (by
          rcases Nat.lt_or_ge i k with h4 | h4
          · exact h4
          · exact absurd (by rw [show i = k by omega]) he)
    · cases h3

end Sys2Proof.Machine
end

