-- ==== Sys2Proof/Laws/Whole.lean ====
section
/-! SUPPORT. The whole transforms on operands that meet the contract: the registers and the stages along
the loops of `XFS` and `XFV`, and the micro stage as the last four scalar stages. -/

namespace Sys2Proof.Machine

/-! ### The micro stage is four scalar stages -/

/-- Inside a chunk of sixteen, the four fused stages are the scalar stages of half spans 8, 4, 2, 1. -/
theorem fusedStages_eq (w : Nat → Byte) {i : Nat} (hi : i < 16) :
    lane (fusedStages (Vector.ofFn fun k => w k.val)) i =
      stageOutput 1 (stageOutput 2 (stageOutput 4 (stageOutput 8 w))) i := by
  unfold fusedStages vperm
  interval_cases i <;>
    simp (disch := decide) [lane_xstep, revTable, stageOutput]

/-- The fused micro stage equals four scalar stages (R172). -/
theorem microOutput_eq (v : Nat → Byte) (j : Nat) :
    microOutput v j = stageOutput 1 (stageOutput 2 (stageOutput 4 (stageOutput 8 v))) j := by
  obtain ⟨g, i, hi, rfl⟩ : ∃ g i, i < 16 ∧ j = 16 * g + i := ⟨j / 16, j % 16, by omega, by omega⟩
  unfold microOutput
  rw [show (16 * g + i) / 16 = g by omega, show (16 * g + i) % 16 = i by omega,
    fusedStages_eq (fun k => v (16 * g + k)) hi]
  have inner : ∀ {fh q : Nat} {x y : Nat → Byte}, q * (2 * fh) = 16 →
      (∀ k, k < 16 → x k = y (16 * g + k)) →
      ∀ k, k < 16 → stageOutput fh x k = stageOutput fh y (16 * g + k) := by
    intro fh q x y hq h k hk
    rw [stageOutput_chunk hq y g k]
    exact stageOutput_congr (nb := q) (fun i hi => h i (by omega)) (by omega)
  refine inner (q := 8) rfl (inner (q := 4) rfl (inner (q := 2) rfl (inner (q := 1) rfl ?_))) i hi
  exact fun k _ => rfl

/-! ### The stage loops -/

/-- After k rounds of stage, copy back and update on a frame of 2^n symbols, from the run `r₀` in which
`LG2` has just run and `TEMP` held u. -/
structure Run.AtStage (r₀ : Run) (u : Nat → Byte) (n k : Nat) (r : Run) : Prop where
  regs : r.st = { r₀.st with
    mem := r.st.mem
    stage := BitVec.ofNat 32 (n - k)
    frameHalf := BitVec.ofNat 32 (if n - k = 0 then 0 else 2 ^ (n - k - 1))
    numBranches := BitVec.ofNat 32 (2 ^ k) }
  temp : ∀ j, j < 2 ^ n → r.st.temp j = afterStages n u k j
  frame : k ≠ 0 → ∀ j, j < 2 ^ n → r.st.frame j = afterStages n u k j
  start : k = 0 → ∀ a, Memory.read r.st.mem a = Memory.read r₀.st.mem a
  other : ∀ a, ¬ InWindow r₀.st.tempBase (2 ^ n) a → ¬ InWindow r₀.st.frameBase (2 ^ n) a →
    Memory.read r.st.mem a = Memory.read r₀.st.mem a
  logged : ∀ c ∈ r.log, c ∈ r₀.log ∨ InWindow r₀.st.tempBase (2 ^ n) c.1
    ∨ (k ≠ 0 ∧ InWindow r₀.st.frameBase (2 ^ n) c.1)

theorem two_pow_lt_32 {k : Nat} (h : k ≤ 31) : 2 ^ k < 2 ^ 32 :=
  Nat.pow_lt_pow_right (by omega) (by omega)

theorem word_two_pow {k : Nat} (h : k ≤ 31) : (BitVec.ofNat 32 (2 ^ k)).toNat = 2 ^ k := by
  rw [BitVec.toNat_ofNat, Nat.mod_eq_of_lt (two_pow_lt_32 h)]

/-- What the stage registers hold after k rounds, as numbers. -/
theorem Run.AtStage.numbers {r₀ r : Run} {u : Nat → Byte} {n k : Nat} (h : Run.AtStage r₀ u n k r)
    (hn : n ≤ 31) (hk : k ≤ n) :
    r.st.stage.toNat = n - k ∧ r.st.numBranches.toNat = 2 ^ k
      ∧ r.st.frameHalf.toNat = if n - k = 0 then 0 else 2 ^ (n - k - 1) := by
  rw [h.regs]
  refine ⟨?_, word_two_pow (by omega), ?_⟩
  · simp only [BitVec.toNat_ofNat]; exact Nat.mod_eq_of_lt (by omega)
  · split
    · rfl
    · exact word_two_pow (by omega)

theorem branches_span {n k : Nat} (hk : k < n) : 2 ^ k * (2 * 2 ^ (n - k - 1)) = 2 ^ n := by
  rw [← Nat.pow_succ', ← Nat.pow_add]; congr 1; omega

/-- The register side of one update (R113, R114). -/
theorem updateStages_numbers {n k : Nat} (hn : n ≤ 31) (hk : k < n) :
    (BitVec.ofNat 32 (2 ^ k) <<< 1 : Word) = BitVec.ofNat 32 (2 ^ (k + 1))
      ∧ (BitVec.ofNat 32 (2 ^ (n - k - 1)) >>> 1 : Word)
          = BitVec.ofNat 32 (if n - (k + 1) = 0 then 0 else 2 ^ (n - (k + 1) - 1))
      ∧ (BitVec.ofNat 32 (n - k) - 1 : Word) = BitVec.ofNat 32 (n - (k + 1)) := by
  refine ⟨?_, ?_, ?_⟩
  · apply BitVec.eq_of_toNat_eq
    rw [BitVec.toNat_shiftLeft, word_two_pow (by omega), word_two_pow (by omega), Nat.shiftLeft_eq,
      Nat.pow_one, ← Nat.pow_succ, Nat.mod_eq_of_lt (two_pow_lt_32 (by omega))]
  · apply BitVec.eq_of_toNat_eq
    rw [BitVec.toNat_ushiftRight, word_two_pow (by omega), Nat.shiftRight_eq_div_pow, Nat.pow_one]
    split
    · rename_i h0
      rw [show n - k - 1 = 0 by omega]; rfl
    · rename_i h0
      rw [word_two_pow (by omega), show n - k - 1 = (n - (k + 1) - 1) + 1 by omega, Nat.pow_succ]
      simp
  · have hs : n - k = (n - (k + 1)) + 1 := by omega
    rw [hs, ← word_ofNat_succ]
    generalize BitVec.ofNat 32 (n - (k + 1)) = x
    exact BitVec.add_sub_cancel x 1

/-- One round of a transform, whatever computes the stage. -/
theorem round_ok {r₀ r : Run} {u : Nat → Byte} {n k : Nat} {f : Run → Except Run Run}
    (h : Run.AtStage r₀ u n k r) (hn : n ≤ 31) (hk : k < n) (hN : r₀.st.frameLength = 2 ^ n)
    (room : r₀.StageRoom (2 ^ n))
    (hf : ∃ r', f r = .ok r' ∧ r.StageDone r' (2 ^ (n - k - 1)) (2 ^ n)) :
    ∃ r', ((f r).bind doCpb).bind doUpd = .ok r' ∧ Run.AtStage r₀ u n (k + 1) r' := by
  obtain ⟨r₁, h1, hw⟩ := hf
  have eT : r.st.tempBase = r₀.st.tempBase := by rw [h.regs]
  have eF : r.st.frameBase = r₀.st.frameBase := by rw [h.regs]
  have eM : r.st.memSize = r₀.st.memSize := by rw [h.regs]; rfl
  have eN : r.st.frameLength = 2 ^ n := by rw [h.regs]; exact hN
  have fT : r₁.st.tempBase = r₀.st.tempBase := by rw [hw.onlyMem]; exact eT
  have fF : r₁.st.frameBase = r₀.st.frameBase := by rw [hw.onlyMem]; exact eF
  have fM : r₁.st.memSize = r₀.st.memSize := by rw [hw.onlyMem]; exact eM
  have fN : r₁.st.frameLength = 2 ^ n := by rw [hw.onlyMem]; exact eN
  have room₁ : r₁.StageRoom r₁.st.frameLength := by
    rw [fN]; exact ⟨by rw [fT, fM]; exact room.temp, by rw [fF, fM]; exact room.frame,
      by rw [fT, fF]; exact room.apart⟩
  obtain ⟨r₂, h2, hc⟩ := doCpb_ok room₁
  rw [fN, fT] at hc
  refine ⟨_, by rw [h1]; simp only [Except.bind, h2]; rfl, ?_⟩
  have stageVal : ∀ j, j < 2 ^ n → r₁.st.frame j = afterStages n u (k + 1) j := by
    intro j hj
    unfold State.frame State.frameAddr
    rw [fF, ← eF, hw.value j hj]
    show _ = stageOutput (2 ^ (n - 1 - k)) (afterStages n u k) j
    rw [show n - 1 - k = n - k - 1 by omega]
    have hs := branches_span hk
    exact stageOutput_congr (nb := 2 ^ k) (fun i hi => h.temp i (by omega)) (by omega)
  obtain ⟨n1, n2, n3⟩ := updateStages_numbers hn hk
  have hnz : ¬ n - k = 0 := by omega
  refine ⟨?_, ?_, ?_, ?_, ?_, ?_⟩
  · show r₂.st.updateStages = _
    have hr : r₂.st = { r₀.st with
        mem := r₂.st.mem
        stage := BitVec.ofNat 32 (n - k)
        frameHalf := BitVec.ofNat 32 (2 ^ (n - k - 1))
        numBranches := BitVec.ofNat 32 (2 ^ k) } := by
      rw [hc.onlyMem, hw.onlyMem, h.regs, if_neg hnz]
    rw [← n1, ← n2, ← n3]
    unfold State.updateStages
    rw [hr]
  · intro j hj
    show Memory.read r₂.st.mem (r₂.st.tempBase.toNat + j) = _
    have gT : r₂.st.tempBase = r₀.st.tempBase := by rw [hc.onlyMem]; exact fT
    rw [gT, hc.value j hj]
    exact stageVal j hj
  · intro _ j hj
    show Memory.read r₂.st.mem (r₂.st.frameBase.toNat + j) = _
    have gF : r₂.st.frameBase = r₀.st.frameBase := by rw [hc.onlyMem]; exact fF
    rw [gF, hc.read_apart (L := 2 ^ n) (fun _ h => h) ?_]
    · have := stageVal j hj
      unfold State.frame State.frameAddr at this
      rwa [fF] at this
    · rcases room.apart with h3 | h3 <;> omega
  · intro h0; omega
  · intro a ha hb
    show Memory.read r₂.st.mem a = _
    rw [hc.other a fun j hj he => ha ⟨by omega, by omega⟩, ← h.other a ha hb]
    exact hw.other a fun j hj he => hb ⟨by rw [← eF]; omega, by rw [← eF]; omega⟩
  · intro c hcl
    rcases hc.logged c hcl with h1 | ⟨j, hj, he⟩
    · rcases hw.logged c h1 with h2 | ⟨j, hj, he⟩
      · rcases h.logged c h2 with h3 | h3 | h3
        · exact .inl h3
        · exact .inr (.inl h3)
        · exact .inr (.inr ⟨by omega, h3.2⟩)
      · exact .inr (.inr ⟨by omega, by rw [← eF]; omega, by rw [← eF]; omega⟩)
    · exact .inr (.inl ⟨by omega, by omega⟩)

theorem Run.AtStage.room {r₀ r : Run} {u : Nat → Byte} {n k : Nat} (h : Run.AtStage r₀ u n k r)
    (room : r₀.StageRoom (2 ^ n)) : r.StageRoom (2 ^ n) := by
  have eT : r.st.tempBase = r₀.st.tempBase := by rw [h.regs]
  have eF : r.st.frameBase = r₀.st.frameBase := by rw [h.regs]
  have eM : r.st.memSize = r₀.st.memSize := by rw [h.regs]; rfl
  exact ⟨by rw [eT, eM]; exact room.temp, by rw [eF, eM]; exact room.frame,
    by rw [eT, eF]; exact room.apart⟩

/-- Right after `LG2` no stage is done. -/
theorem atStage_start {r : Run} {n : Nat} (hn : n ≤ 31) (hN : r.st.frameLength = 2 ^ n) :
    Run.AtStage { r with st := r.st.deriveStages } r.st.temp n 0 { r with st := r.st.deriveStages } := by
  have hlog : log2Reduction r.st.frameSize = BitVec.ofNat 32 n := log2Reduction_two_pow hn hN
  refine ⟨?_, fun j _ => rfl, fun h => absurd rfl h, fun _ _ => rfl,
    fun _ _ _ => rfl, fun _ h => .inl h⟩
  have hfh : r.st.frameSize >>> 1 = BitVec.ofNat 32 (if n - 0 = 0 then 0 else 2 ^ (n - 0 - 1)) := by
    apply BitVec.eq_of_toNat_eq
    have hv : r.st.frameSize.toNat = 2 ^ n := hN
    rw [BitVec.toNat_ushiftRight, hv, Nat.shiftRight_eq_div_pow, Nat.pow_one]
    split
    · rename_i h0
      rw [show n = 0 by omega]; rfl
    · rename_i h0
      rw [word_two_pow (by omega)]
      obtain ⟨m, rfl⟩ : ∃ m, n = m + 1 := ⟨n - 1, by omega⟩
      rw [Nat.pow_succ, Nat.mul_div_cancel _ (by omega)]; rfl
  show r.st.deriveStages = _
  unfold State.deriveStages
  rw [hfh, hlog]
  rfl

/-- `do_XFS()` on operands that meet the contract (R133, R186). -/
theorem doXfs_ok {r : Run} {n : Nat} (hn : n ≤ 31) (hN : r.st.frameLength = 2 ^ n)
    (room : r.StageRoom (2 ^ n)) :
    ∃ r', doXfs r = .ok r' ∧
      Run.AtStage { r with st := r.st.deriveStages } r.st.temp n n r' := by
  set r₀ : Run := { r with st := r.st.deriveStages } with hr₀
  have hN₀ : r₀.st.frameLength = 2 ^ n := hN
  have room₀ : r₀.StageRoom (2 ^ n) := ⟨room.temp, room.frame, room.apart⟩
  have loop := whileStage_ends (cond := fun stage => stage != 0) (body := scalarRound)
    (I := fun r' => ∃ k, k ≤ n ∧ Run.AtStage r₀ r.st.temp n k r') (E := fun _ => False)
    (by simp) ?_ (r := r₀) ⟨0, by omega, atStage_start hn hN⟩
  · obtain ⟨r', h1, ⟨k, hk, h2⟩, h3⟩ := Ends.exists_ok loop
    have hst := (h2.numbers hn hk).1
    have : r'.st.stage = 0 := by simpa using h3
    rw [this] at hst
    have hkn : k = n := by simp at hst; omega
    subst hkn
    exact ⟨r', h1, h2⟩
  · rintro r' ⟨k, hk, h⟩ hc
    obtain ⟨hs, hb, hf⟩ := h.numbers hn hk
    have hkn : k < n := by
      by_contra hge
      have h0 : r'.st.stage = 0 := by apply BitVec.eq_of_toNat_eq; simp; omega
      rw [h0] at hc; simp at hc
    rw [if_neg (by omega)] at hf
    have hsp := branches_span hkn
    have hrm := h.room room₀
    obtain ⟨r'', h1, h2⟩ := round_ok (f := doBfs) h hn hkn hN₀ room₀
      (by have := doBfs_ok hb hf (by rw [hsp]; exact hrm)
          rwa [hsp] at this)
    unfold scalarRound
    rw [h1]
    refine ⟨⟨k + 1, by omega, h2⟩, ?_⟩
    rw [(h2.numbers hn (by omega)).1, hs]; omega

/-- `do_XFV(aln)` on operands that meet the contract (R180, R186): the state before `do_MIC`, and what
`do_MIC` makes of it. -/
theorem doXfv_ok {r : Run} {aln : Bool} {n : Nat} (h4 : 4 ≤ n) (hn : n ≤ 31)
    (hN : r.st.frameLength = 2 ^ n) (room : r.StageRoom (2 ^ n)) :
    ∃ r₁ r₂, doXfv aln r = .ok { r₂ with st := r₂.st.finishStages }
      ∧ Run.AtStage { r with st := r.st.deriveStages } r.st.temp n (n - 4) r₁
      ∧ Run.Wrote r₁ r₂ r.st.frameBase.toNat (fun j => j < 2 ^ n) (afterStages n r.st.temp n) := by
  set r₀ : Run := { r with st := r.st.deriveStages } with hr₀
  have hN₀ : r₀.st.frameLength = 2 ^ n := hN
  have room₀ : r₀.StageRoom (2 ^ n) := ⟨room.temp, room.frame, room.apart⟩
  have loop := whileStage_ends (cond := fun stage => decide (4 < stage.toNat))
    (body := macroRound aln)
    (I := fun r' => ∃ k, k ≤ n - 4 ∧ Run.AtStage r₀ r.st.temp n k r') (E := fun _ => False)
    (by simp) ?_ (r := r₀) ⟨0, by omega, atStage_start hn hN⟩
  · obtain ⟨r₁, h1, ⟨k, hk, h2⟩, h3⟩ := Ends.exists_ok loop
    obtain ⟨hs, hb, _⟩ := h2.numbers hn (by omega)
    have hkn : k = n - 4 := by simp at h3; omega
    subst hkn
    have hspan : 16 * 2 ^ (n - 4) = 2 ^ n := by
      rw [show (16 : Nat) = 2 ^ 4 from rfl, ← Nat.pow_add]; congr 1; omega
    obtain ⟨r₂, h5, h6⟩ := doMic_ok (aln := aln) hb (by rw [hspan]; exact h2.room room₀)
    have eF : r₁.st.frameBase = r.st.frameBase := by rw [h2.regs]; rfl
    rw [hspan, eF] at h6
    refine ⟨r₁, r₂, ?_, h2, h6.onlyMem, fun j hj => ?_, h6.other, h6.logged⟩
    · unfold doXfv doLg2
      simp only [Except.bind]
      rw [h1]
      exact h5
    · rw [h6.value j hj, microOutput_eq]
      obtain ⟨m, rfl⟩ : ∃ m, n = m + 4 := ⟨n - 4, by omega⟩
      simp only [show m + 4 - 4 = m by omega] at *
      have e : afterStages (m + 4) r.st.temp (m + 4) =
          stageOutput 1 (stageOutput 2 (stageOutput 4 (stageOutput 8 (afterStages (m + 4) r.st.temp m)))) := by
        show stageOutput (2 ^ (m + 4 - 1 - (m + 3))) (stageOutput (2 ^ (m + 4 - 1 - (m + 2)))
          (stageOutput (2 ^ (m + 4 - 1 - (m + 1))) (stageOutput (2 ^ (m + 4 - 1 - m)) _))) = _
        rw [show m + 4 - 1 - (m + 3) = 0 by omega, show m + 4 - 1 - (m + 2) = 1 by omega,
          show m + 4 - 1 - (m + 1) = 2 by omega, show m + 4 - 1 - m = 3 by omega]
        rfl
      rw [e]
      have c : ∀ {q fh : Nat} {x y : Nat → Byte}, q * (2 * fh) = 2 ^ (m + 4) →
          (∀ i, i < 2 ^ (m + 4) → x i = y i) →
          ∀ i, i < 2 ^ (m + 4) → stageOutput fh x i = stageOutput fh y i :=
        fun hq h i hi => stageOutput_congr (nb := _) (fun k hk => h k (by rw [← hq]; exact hk))
          (by rw [hq]; exact hi)
      have p : ∀ a b, 2 ^ a * (2 * 2 ^ b) = 2 ^ (a + b + 1) := fun a b => by
        rw [← Nat.pow_succ', ← Nat.pow_add]; rfl
      exact c (p (m + 3) 0) (c (p (m + 2) 1) (c (p (m + 1) 2) (c (p m 3) h2.temp))) j hj
  · rintro r' ⟨k, hk, h⟩ hc
    obtain ⟨hs, hb, hf⟩ := h.numbers hn (by omega)
    have hkn : k < n - 4 := by simp at hc; omega
    rw [if_neg (by omega)] at hf
    have hsp := branches_span (show k < n by omega)
    have h16 : 2 ^ (n - k - 1) = 16 * 2 ^ (n - k - 5) := by
      rw [show (16 : Nat) = 2 ^ 4 from rfl, ← Nat.pow_add]; congr 1; omega
    have hrm := h.room room₀
    obtain ⟨r'', h1, h2⟩ := round_ok (f := doMac aln) h hn (by omega) hN₀ room₀
      (by have := doMac_ok (aln := aln) hb (hf.trans h16) (by rw [← h16, hsp]; exact hrm)
          rwa [← h16, hsp] at this)
    unfold macroRound
    rw [h1]
    refine ⟨⟨k + 1, by omega, h2⟩, ?_⟩
    rw [(h2.numbers hn (by omega)).1, hs]; omega

/-- The end of `do_XFS()` in one statement: registers, both buffers, the rest of `M`, the log. -/
theorem xfs_run {r : Run} {n : Nat} (hn : n ≤ 31) (hN : r.st.frameLength = 2 ^ n)
    (room : r.StageRoom (2 ^ n)) :
    ∃ r', doXfs r = .ok r' ∧
      r'.st = { r.st with
        mem := r'.st.mem
        stageCount := BitVec.ofNat 32 n
        stage := 0
        frameHalf := 0
        numBranches := r.st.frameSize
        status := { r.st.status with pv := true } }
      ∧ (1 ≤ n → ∀ j, j < 2 ^ n →
          r'.st.frame j = afterStages n r.st.temp n j ∧ r'.st.temp j = r'.st.frame j)
      ∧ (n = 0 → ∀ a, Memory.read r'.st.mem a = Memory.read r.st.mem a)
      ∧ (∀ a, ¬ InWindow r.st.tempBase (2 ^ n) a → ¬ InWindow r.st.frameBase (2 ^ n) a →
          Memory.read r'.st.mem a = Memory.read r.st.mem a)
      ∧ ∀ c ∈ r'.log, c ∈ r.log ∨ InWindow r.st.tempBase (2 ^ n) c.1
          ∨ InWindow r.st.frameBase (2 ^ n) c.1 := by
  obtain ⟨r', h1, h2⟩ := doXfs_ok hn hN room
  refine ⟨r', h1, ?_, fun h j hj => ⟨h2.frame (by omega) j hj, ?_⟩, fun h => h2.start h, h2.other,
    fun c hc => (h2.logged c hc).imp id (Or.imp id And.right)⟩
  · rw [h2.regs]
    have e : BitVec.ofNat 32 (2 ^ n) = r.st.frameSize := by
      apply BitVec.eq_of_toNat_eq
      rw [word_two_pow hn]; exact hN.symm
    simp only [State.deriveStages, Nat.sub_self, if_true, e]
    rw [log2Reduction_two_pow hn hN]
    rfl
  · rw [h2.temp j hj, h2.frame (by omega) j hj]

/-- The end of `do_XFV(aln)` in one statement. -/
theorem xfv_run {r : Run} {aln : Bool} {n : Nat} (h4 : 4 ≤ n) (hn : n ≤ 31)
    (hN : r.st.frameLength = 2 ^ n) (room : r.StageRoom (2 ^ n)) :
    ∃ r', doXfv aln r = .ok r' ∧
      r'.st = { r.st with
        mem := r'.st.mem
        stageCount := BitVec.ofNat 32 n
        stage := 0
        frameHalf := 0
        numBranches := r.st.frameSize
        status := { r.st.status with pv := true } }
      ∧ (∀ j, j < 2 ^ n → r'.st.frame j = afterStages n r.st.temp n j
          ∧ r'.st.temp j = afterStages n r.st.temp (n - 4) j)
      ∧ (∀ a, ¬ InWindow r.st.tempBase (2 ^ n) a → ¬ InWindow r.st.frameBase (2 ^ n) a →
          Memory.read r'.st.mem a = Memory.read r.st.mem a)
      ∧ ∀ c ∈ r'.log, c ∈ r.log ∨ InWindow r.st.tempBase (2 ^ n) c.1
          ∨ InWindow r.st.frameBase (2 ^ n) c.1 := by
  obtain ⟨r₁, r₂, h1, h2, h3⟩ := doXfv_ok (aln := aln) h4 hn hN room
  have e1 : r₁.st.frameBase = r.st.frameBase := by rw [h2.regs]; rfl
  have e2 : r₁.st.tempBase = r.st.tempBase := by rw [h2.regs]; rfl
  refine ⟨_, h1, ?_, fun j hj => ⟨?_, ?_⟩, fun a ha hb => ?_, fun c hc => ?_⟩
  · show { r₂.st with stage := 0, frameHalf := 0, numBranches := r₂.st.frameSize } = _
    rw [h3.onlyMem, h2.regs]
    simp only [State.deriveStages]
    rw [log2Reduction_two_pow hn hN]
    rfl
  · show Memory.read r₂.st.mem (r₂.st.frameBase.toNat + j) = _
    have : r₂.st.frameBase = r.st.frameBase := by rw [h3.onlyMem]; exact e1
    rw [this]; exact h3.value j hj
  · show Memory.read r₂.st.mem (r₂.st.tempBase.toNat + j) = _
    have : r₂.st.tempBase = r.st.tempBase := by rw [h3.onlyMem]; exact e2
    rw [this, h3.read_apart (L := 2 ^ n) (fun _ h => h) ?_]
    · have := h2.temp j hj
      unfold State.temp State.tempAddr at this; rw [e2] at this; exact this
    · rcases room.apart with h | h <;> omega
  · show Memory.read r₂.st.mem a = _
    rw [h3.other a fun j hj he => hb ⟨by omega, by omega⟩]
    exact h2.other a ha hb
  · rcases h3.logged c hc with h4 | ⟨j, hj, he⟩
    · exact (h2.logged c h4).imp id (Or.imp id And.right)
    · exact .inr (.inr ⟨by omega, by omega⟩)

end Sys2Proof.Machine
end

