-- ==== Sys2Proof/Laws/ClosedForm.lean ====
section
/-! SUPPORT. The closed form of the transform: n scalar stages of a frame of 2^n symbols compute the XOR
sums of R136. -/

namespace Sys2Proof.Machine

/-! ### Sums by XOR -/

theorem xorAll_append (l l' : List Byte) : xorAll (l ++ l') = xorAll l ^^^ xorAll l' := by
  induction l with
  | nil => simp [xorAll]
  | cons a l ih =>
    show a ^^^ xorAll (l ++ l') = (a ^^^ xorAll l) ^^^ xorAll l'
    rw [ih, BitVec.xor_assoc]

@[simp] theorem xorAll_single (a : Byte) : xorAll [a] = a := by simp [xorAll]

/-- A sum over the chosen positions is a sum over all with the others 0. -/
theorem xorAll_filter (l : List Nat) (p : Nat → Bool) (u : Nat → Byte) :
    xorAll ((l.filter p).map u) = xorAll (l.map fun i => if p i then u i else 0) := by
  induction l with
  | nil => rfl
  | cons a l ih =>
    have hc : ∀ (x : Byte) (m : List Byte), xorAll (x :: m) = x ^^^ xorAll m := fun _ _ => rfl
    rw [List.map_cons, hc, ← ih]
    cases h : p a
    · simp [h]
    · rw [List.filter_cons_of_pos h, List.map_cons, hc]; simp

/-- A sum over 2m positions, by pairs. -/
theorem xorAll_pairs (m : Nat) (f : Nat → Byte) :
    xorAll ((List.range (2 * m)).map f)
      = xorAll ((List.range m).map fun i => f (2 * i) ^^^ f (2 * i + 1)) := by
  induction m with
  | zero => rfl
  | succ m ih =>
    rw [show 2 * (m + 1) = 2 * m + 1 + 1 by omega, List.range_succ, List.range_succ, List.range_succ]
    simp only [List.map_append, List.map_cons, List.map_nil, xorAll_append, ih, xorAll_single,
      BitVec.xor_assoc]

theorem xorAll_congr {n : Nat} {f g : Nat → Byte} (h : ∀ i, i < n → f i = g i) :
    xorAll ((List.range n).map f) = xorAll ((List.range n).map g) := by
  congr 1
  exact List.map_congr_left fun i hi => h i (List.mem_range.1 hi)

/-- The sum of R136 as a sum over all positions. -/
theorem transformed_eq (n : Nat) (u : Nat → Byte) (j : Nat) :
    transformed n u j
      = xorAll ((List.range (2 ^ n)).map fun i => if reverseBits n i &&& j = j then u i else 0) := by
  unfold transformed
  rw [xorAll_filter]
  congr 1
  apply List.map_congr_left
  intro i _
  by_cases h : reverseBits n i &&& j = j <;> simp [h]

/-! ### One more stage -/

theorem reverseBits_lt (n i : Nat) : reverseBits n i < 2 ^ n := by
  induction n generalizing i with
  | zero => exact Nat.one_pos
  | succ n ih =>
    have := ih (i / 2)
    have h2 : i % 2 < 2 := Nat.mod_lt _ (by omega)
    unfold reverseBits
    rw [Nat.pow_succ]
    rcases (show i % 2 = 0 ∨ i % 2 = 1 by omega) with h | h <;> rw [h] <;> omega

/-- AND acts on the top bit and on the rest separately. -/
theorem and_top (n a b : Nat) {x y : Nat} (hx : x < 2 ^ n) (hy : y < 2 ^ n) :
    (2 ^ n * a + x) &&& (2 ^ n * b + y) = 2 ^ n * (a &&& b) + (x &&& y) := by
  have hxy : x &&& y < 2 ^ n := Nat.lt_of_le_of_lt Nat.and_le_left hx
  apply Nat.eq_of_testBit_eq
  intro k
  rw [Nat.testBit_and, Nat.testBit_two_pow_mul_add _ hx, Nat.testBit_two_pow_mul_add _ hy,
    Nat.testBit_two_pow_mul_add _ hxy]
  split <;> simp [Nat.testBit_and]

theorem and_top_eq (n a b : Nat) {x y : Nat} (hx : x < 2 ^ n) (hy : y < 2 ^ n) :
    (2 ^ n * a + x) &&& (2 ^ n * b + y) = 2 ^ n * b + y ↔ a &&& b = b ∧ x &&& y = y := by
  have hxy : x &&& y < 2 ^ n := Nat.lt_of_le_of_lt Nat.and_le_left hx
  rw [and_top n a b hx hy]
  constructor
  · intro h
    have hm := congrArg (fun k => k % 2 ^ n) h
    have hd := congrArg (fun k => k / 2 ^ n) h
    simp only [Nat.mul_add_mod, Nat.mul_add_div (Nat.two_pow_pos n), Nat.mod_eq_of_lt hxy,
      Nat.mod_eq_of_lt hy, Nat.div_eq_of_lt hxy, Nat.div_eq_of_lt hy, Nat.add_zero] at hm hd
    exact ⟨hd, hm⟩
  · rintro ⟨h1, h2⟩
    rw [h1, h2]

/-- The first stage of a frame of 2^(n+1) symbols, then the transform of each half. -/
theorem transformed_succ {n b j : Nat} (u : Nat → Byte) (hb : b < 2) (hj : j < 2 ^ n) :
    transformed (n + 1) u (2 ^ n * b + j)
      = transformed n (fun i => stageOutput (2 ^ n) u (2 ^ n * b + i)) j := by
  rw [transformed_eq, transformed_eq, show 2 ^ (n + 1) = 2 * 2 ^ n by rw [Nat.pow_succ]; omega,
    xorAll_pairs]
  apply xorAll_congr
  intro i hi
  have hr := reverseBits_lt n i
  have e0 : reverseBits (n + 1) (2 * i) = 2 ^ n * 0 + reverseBits n i := by
    simp only [reverseBits]
    rw [show 2 * i % 2 = 0 by omega, show 2 * i / 2 = i by omega]; omega
  have e1 : reverseBits (n + 1) (2 * i + 1) = 2 ^ n * 1 + reverseBits n i := by
    simp only [reverseBits]
    rw [show (2 * i + 1) % 2 = 1 by omega, show (2 * i + 1) / 2 = i by omega]; omega
  rw [e0, e1]
  simp only [and_top_eq n _ b hr hj]
  rcases (show b = 0 ∨ b = 1 by omega) with rfl | rfl
  · have hs := stageOutput_low (fh := 2 ^ n) (u := u) (g := 0) hi
    simp only [Nat.zero_mul, Nat.zero_add] at hs
    simp only [Nat.mul_zero, Nat.zero_add, hs]
    by_cases h : reverseBits n i &&& j = j <;> simp [h]
  · have hs := stageOutput_high (fh := 2 ^ n) (u := u) (g := 0) hi
    simp only [Nat.zero_mul, Nat.zero_add] at hs
    simp only [Nat.mul_one, hs]
    by_cases h : reverseBits n i &&& j = j <;> simp [h]

/-- k + 1 stages of a frame of 2^(n+1) symbols: the first stage, then k stages of each half. -/
theorem afterStages_succ {n k b j : Nat} (u : Nat → Byte) (hk : k ≤ n) (hj : j < 2 ^ n) :
    afterStages (n + 1) u (k + 1) (2 ^ n * b + j)
      = afterStages n (fun i => stageOutput (2 ^ n) u (2 ^ n * b + i)) k j := by
  induction k generalizing j with
  | zero => rfl
  | succ k ih =>
    have hsp := branches_span (show k < n by omega)
    show stageOutput (2 ^ (n + 1 - 1 - (k + 1))) _ _ = stageOutput (2 ^ (n - 1 - k)) _ _
    rw [show n + 1 - 1 - (k + 1) = n - k - 1 by omega, show n - 1 - k = n - k - 1 by omega,
      stageOutput_chunk hsp]
    exact stageOutput_congr (nb := 2 ^ k)
      (fun i hi => ih (by omega) (by rw [← hsp]; exact hi)) (by rw [hsp]; exact hj)

theorem transformed_congr {n j : Nat} {u v : Nat → Byte} (h : ∀ i, i < 2 ^ n → u i = v i) :
    transformed n u j = transformed n v j := by
  rw [transformed_eq, transformed_eq]
  exact xorAll_congr fun i hi => by rw [h i hi]

/-- n stages compute the closed form (R136). -/
theorem afterStages_eq_transformed {n j : Nat} (u : Nat → Byte) (hj : j < 2 ^ n) :
    afterStages n u n j = transformed n u j := by
  induction n generalizing u j with
  | zero =>
    have : j = 0 := by simpa using hj
    subst this
    show u 0 = _
    rw [transformed_eq]
    show _ = xorAll [if reverseBits 0 0 &&& 0 = 0 then u 0 else 0]
    simp
  | succ n ih =>
    obtain ⟨b, i, hb, hi, rfl⟩ : ∃ b i, b < 2 ∧ i < 2 ^ n ∧ j = 2 ^ n * b + i := by
      have hp := Nat.two_pow_pos n
      refine ⟨j / 2 ^ n, j % 2 ^ n, ?_, Nat.mod_lt _ hp, (Nat.div_add_mod _ _).symm⟩
      rw [Nat.div_lt_iff_lt_mul hp, ← Nat.pow_succ']; exact hj
    rw [afterStages_succ u (Nat.le_refl n) hi, ih _ hi, transformed_succ u hb hi]

end Sys2Proof.Machine
end

