-- ==== Sys2Proof/Laws/HardReset.lean ====
section
/-! SUPPORT. What `M` holds after a hard reset during a command (R242), byte by byte. -/

namespace Sys2Proof.Machine

/-- A byte the command stored to holds what `tornByte` draws for it; any other byte is as it was. -/
theorem read_tornMemory (draw : Nat) (log : List Host.Cell) (m : Memory) (a : Nat) :
    Memory.read (tornMemory draw log m) a =
      if ∃ c ∈ log, c.1 = a then (tornByte draw log a).getD (Memory.read m a)
      else Memory.read m a := by
  unfold tornMemory
  have key : ∀ (l : List Host.Cell) (m : Memory),
      Memory.read (l.foldl (fun m c =>
        match tornByte draw log c.1 with
        | none => m
        | some b => Memory.write m c.1 b) m) a =
        if ∃ c ∈ l, c.1 = a then (tornByte draw log a).getD (Memory.read m a)
        else Memory.read m a := by
    intro l
    induction l with
    | nil => intro m; simp
    | cons c l ih =>
      intro m
      rw [List.foldl_cons, ih]
      by_cases h : c.1 = a
      · subst h
        rw [if_pos (⟨c, by simp, rfl⟩ : ∃ x ∈ c :: l, x.1 = c.1)]
        cases hb : tornByte draw log c.1 <;> simp
      · have : (∃ x ∈ c :: l, x.1 = a) ↔ (∃ x ∈ l, x.1 = a) := by simp [h]
        rw [if_congr this rfl rfl]
        cases hb : tornByte draw log c.1 with
        | none => rfl
        | some b => simp only [Memory.read_write_other _ _ (Ne.symm h)]
  exact key log m

/-- A drawn byte is one the command wrote there. -/
theorem tornByte_mem {draw : Nat} {log : List Host.Cell} {a : Nat} {b : Byte}
    (h : tornByte draw log a = some b) : (a, b) ∈ log := by
  unfold tornByte at h
  simp only at h
  rw [List.getD_eq_getElem?_getD] at h
  cases hk : (none :: (valuesAt log a).map some)[
      Config.freeChoice draw a % ((valuesAt log a).length + 1)]? with
  | none => rw [hk] at h; cases h
  | some o =>
    rw [hk] at h
    simp only [Option.getD_some] at h
    subst h
    have := List.mem_of_getElem? hk
    simp [valuesAt] at this
    exact this

/-- The torn memory keeps the canonical form, and lists only bytes that were listed or logged. -/
theorem tornMemory_form {draw : Nat} {log : List Host.Cell} {m : Memory} (h : Memory.wf m = true) :
    Memory.wf (tornMemory draw log m) = true
      ∧ ∀ c ∈ tornMemory draw log m, c ∈ m ∨ ∃ d ∈ log, c.1 = d.1 := by
  unfold tornMemory
  have key : ∀ (l : List Host.Cell) (m : Memory), Memory.wf m = true →
      Memory.wf (l.foldl (fun m c =>
        match tornByte draw log c.1 with
        | none => m
        | some b => Memory.write m c.1 b) m) = true
      ∧ ∀ c ∈ l.foldl (fun m c =>
        match tornByte draw log c.1 with
        | none => m
        | some b => Memory.write m c.1 b) m, c ∈ m ∨ ∃ d ∈ l, c.1 = d.1 := by
    intro l
    induction l with
    | nil => exact fun m h => ⟨h, fun c hc => .inl hc⟩
    | cons e l ih =>
      intro m h
      rw [List.foldl_cons]
      cases hb : tornByte draw log e.1 with
      | none =>
        obtain ⟨h1, h2⟩ := ih m h
        exact ⟨h1, fun c hc => (h2 c hc).imp id fun ⟨d, hd, he⟩ => ⟨d, by simp [hd], he⟩⟩
      | some b =>
        obtain ⟨h1, h2⟩ := ih _ (Memory.wf_write e.1 b h)
        refine ⟨h1, fun c hc => ?_⟩
        rcases h2 c hc with h3 | ⟨d, hd, he⟩
        · rcases Memory.mem_write h3 with h4 | h4
          · exact .inr ⟨e, by simp, by rw [h4]⟩
          · exact .inl h4
        · exact .inr ⟨d, by simp [hd], he⟩
  exact key log m h

end Sys2Proof.Machine
end

