-- ==== Sys2Proof/Laws/HostPort.lean ====
section
/-! SUPPORT. What the host can do while a command runs, stated once: which accesses race (R75), and what an
access that does not race changes. -/

namespace Sys2Proof.Machine

/-! ### Races (R75) -/

@[simp] theorem inWindow_iff (base : Word) (n a : Nat) : inWindow base n a = true ↔ InWindow base n a := by
  simp [inWindow, InWindow]

theorem readRaces_iff (s : State) (a : Nat) :
    s.readRaces a = true ↔ InWindow s.tempBase s.frameLength a ∨ InWindow s.frameBase s.frameLength a := by
  simp [State.readRaces]

/-- The addresses a host write races on are those of the windows the command uses. -/
theorem writeRaces_iff (i : Instr) (s : State) (a : Nat) :
    s.writeRaces (buffersOf i s.frameLength) a = true ↔ Used i s a := by
  unfold State.writeRaces Used
  cases i <;> simp [buffersOf, usesTemp, usesFrame, usesMask, or_assoc]

/-- The windows of a running command are those of its row of R65. -/
theorem runningCommand_use {w : Word} {i : Instr} (h : decode w = .ok i) (s : State) :
    (runningCommand w s).use = buffersOf i s.frameLength := by
  simp [runningCommand, commandOf, h]

/-- The `PV` a command leaves (R22): kept if it was 1, and kept at 0 by a command that does not set it. -/
theorem runningCommand_pvAfter {w : Word} {i : Instr} (h : decode w = .ok i) (s : State) :
    (s.status.pv = true → (runningCommand w s).pvAfter = true)
      ∧ (s.status.pv = false → setsPv i = false → (runningCommand w s).pvAfter = false) := by
  have e : (runningCommand w s).pvAfter = (runCommand (checksOf i) (bodyOf i) s).st.status.pv := by
    simp only [runningCommand, commandOf, h]
    cases i <;> rfl
  have keeps : setsPv i = false → KeepsPv (bodyOf i) := by
    cases i <;> intro h <;> simp only [setsPv, reduceCtorEq] at h
    · exact doIlv_keepsPv
    · exact doBfs_keepsPv
    · exact doCpb_keepsPv
    · exact doUpd_keepsPv
    · exact doMac_keepsPv _
    · exact doMic_keepsPv _
  rw [e]
  refine ⟨fun hp => ?_, fun hp hi => ?_⟩
  · rcases runCommand_cases (c := checksOf i) (bodyOf_lawful i) s with ⟨_, _, h3⟩ | ⟨_, _, h4, h3⟩ | ⟨_, _, h4, h3⟩ <;>
      rw [h3]
    · exact hp
    · exact h4.pvKept hp
    · exact h4.pvKept hp
  · have hk := keeps hi ⟨s.accept, []⟩
    rcases runCommand_st (checksOf i) (bodyOf i) s with ⟨_, _, h3⟩ | ⟨_, _, h4, h3⟩ | ⟨_, _, h4, h3⟩ <;> rw [h3]
    · exact hp
    · rw [h4] at hk; exact Eq.trans hk hp
    · rw [h4] at hk; exact Eq.trans hk hp

/-! ### The host's own writes -/

/-- A byte the host does not write is as it was. -/
theorem read_hostWrites {l : List HostAccess} {a : Nat} (h : ¬ HostWrote l a) (m : Memory) :
    Memory.read (hostWrites l m) a = Memory.read m a := by
  induction l generalizing m with
  | nil => rfl
  | cons x l ih =>
    have rest := ih fun ⟨addr, bytes, h1, h2⟩ => h ⟨addr, bytes, List.mem_cons_of_mem _ h1, h2⟩
    cases x with
    | memWrite addr bytes =>
      rw [hostWrites, rest, Memory.read_writeBytes,
        if_neg fun h2 => h ⟨addr, bytes, List.mem_cons_self, h2⟩]
    | write offset size w => exact rest m
    | read offset size => exact rest m
    | memRead addr => exact rest m
    | senseIrq => exact rest m

/-- A permitted write touches no byte the command uses. -/
theorem permitted_keeps_used {i : Instr} {s : State} {x : HostAccess} (h : Permitted i s x) {a : Nat}
    (ha : Used i s a) (m : Memory) : Memory.read (hostWrites [x] m) a = Memory.read m a := by
  refine read_hostWrites ?_ m
  rintro ⟨addr, bytes, h1, h2, h3⟩
  rw [List.mem_singleton] at h1
  subst h1
  have := h.2 (a - addr) (by omega)
  rw [show addr + (a - addr) = a by omega] at this
  exact this ha

/-- The windows of a command do not depend on bytes outside them. -/
theorem used_iff_of_agree {i : Instr} {s : State} {m : Memory}
    (hm : ∀ a, Used i s a → Memory.read m a = Memory.read s.mem a) (st : Status) (d : Nat) (l : List Shown)
    (a : Nat) : Used i { s with status := st, mem := m, draws := d, listing := l } a ↔ Used i s a := by
  by_cases hu : usesMask i = true
  · have hc : ({ s with status := st, mem := m, draws := d, listing := l } : State).frozenCount
        = s.frozenCount := by
      unfold State.frozenCount State.frozenBefore
      apply List.countP_congr
      intro k hk
      have : Memory.read m (s.maskAddr k) = s.mask k :=
        hm _ (.inr (.inr ⟨hu, .inl ⟨Nat.le_add_right _ _, Nat.add_lt_add_left (List.mem_range.1 hk) _⟩⟩))
      show (Memory.read m (s.maskAddr k) != 0) = true ↔ _
      rw [this]
    unfold Used State.frozenWindow State.infoWindow State.infoCount
    rw [hc]; rfl
  · simp only [Used, hu, Bool.false_eq_true, false_and, or_false]; rfl

/-- What a permitted access does while the command runs: it changes `M` by its own write, and otherwise only
what the host has been shown and the counter of draws. -/
theorem hostAccess_permitted {i : Instr} {s : State} {c : Running} {x : HostAccess} {m : Memory} {d : Nat}
    {l : List Shown} {st : Status} (hb : st.busy = true) (hc : c.use = buffersOf i s.frameLength)
    (hm : ∀ a, Used i s a → Memory.read m a = Memory.read s.mem a) (hx : Permitted i s x) :
    ∃ d' l', hostAccess c x { s with status := st, mem := m, draws := d, listing := l }
      = .next { s with status := st, mem := hostWrites [x] m, draws := d', listing := l' } := by
  cases x with
  | write offset size w =>
    obtain ⟨h1, h2, rfl⟩ := hx
    refine ⟨d, l, ?_⟩
    simp [hostAccess, portWrite, portRefusal, h1, hb, show ¬ 255 < offset by omega, hostWrites]
  | read offset size =>
    obtain ⟨h1, h2, rfl⟩ := hx
    simp only [hostAccess, portRead, portRefusal, h1, ne_eq, not_true_eq_false, or_self, if_false,
      show ¬ 0xFF < offset by omega]
    split
    · exact ⟨_, _, rfl⟩
    · simp only [observeReg, hb]; exact ⟨_, _, rfl⟩
  | memWrite addr bytes =>
    obtain ⟨h1, h2⟩ := hx
    refine ⟨d, l, ?_⟩
    simp only [hostAccess, hostMemWrite, hc]
    rw [if_neg (by show ¬ s.memSize < _; omega), if_neg]
    · rfl
    · simp only [hb, Bool.true_and, List.any_eq_true, List.mem_range, not_exists, not_and]
      intro k hk hr
      exact h2 k hk ((used_iff_of_agree hm st d l _).1 ((writeRaces_iff i _ _).1 hr))
  | memRead addr =>
    obtain ⟨h1, h2, h3⟩ := hx
    refine ⟨d, .byte addr (Memory.read m addr) :: l, ?_⟩
    simp only [hostAccess, hostMemRead]
    rw [if_neg (by show ¬ s.memSize ≤ _; omega), if_neg]
    · rfl
    · simp only [hb, Bool.true_and, readRaces_iff]
      exact fun h => h.elim h2 h3
  | senseIrq => exact ⟨d, _, rfl⟩

end Sys2Proof.Machine
end

