-- ==== Sys2Proof/Laws/PerInstr.lean ====
section
/-! SUPPORT. Per-instruction laws of the encoding (R90 to R95), one lemma per constructor. -/

namespace Sys2Proof.Laws

/-- What the word of an instruction carries: its `OP`, its flag, zeros above, and so a legal word
(R90, R91, R94). -/
def Encoding.Statement (i : Instr) : Prop :=
  opField (encode i) = i.op ∧ alnField (encode i) = i.flag ∧ zeroField (encode i) = 0
    ∧ LegalWord (encode i) = true

theorem Encoding.lg2 : Encoding.Statement .lg2 := ⟨rfl, rfl, rfl, rfl⟩

theorem Encoding.ilv : Encoding.Statement .ilv := ⟨rfl, rfl, rfl, rfl⟩

theorem Encoding.bfs : Encoding.Statement .bfs := ⟨rfl, rfl, rfl, rfl⟩

theorem Encoding.cpb : Encoding.Statement .cpb := ⟨rfl, rfl, rfl, rfl⟩

theorem Encoding.upd : Encoding.Statement .upd := ⟨rfl, rfl, rfl, rfl⟩

theorem Encoding.mac (aln : Bool) : Encoding.Statement (.mac aln) := by
  cases aln <;> exact ⟨rfl, rfl, rfl, rfl⟩

theorem Encoding.mic (aln : Bool) : Encoding.Statement (.mic aln) := by
  cases aln <;> exact ⟨rfl, rfl, rfl, rfl⟩

theorem Encoding.xfs : Encoding.Statement .xfs := ⟨rfl, rfl, rfl, rfl⟩

theorem Encoding.xfv (aln : Bool) : Encoding.Statement (.xfv aln) := by
  cases aln <;> exact ⟨rfl, rfl, rfl, rfl⟩

theorem Encoding.ens : Encoding.Statement .ens := ⟨rfl, rfl, rfl, rfl⟩

theorem Encoding.env (aln : Bool) : Encoding.Statement (.env aln) := by
  cases aln <;> exact ⟨rfl, rfl, rfl, rfl⟩

end Sys2Proof.Laws
end

