-- ==== Sys2Proof/Tests/Slice0.lean ====
section
/-! SUPPORT. Tests on fixed values, each from the spec's tables and vectors (spec/95_test_vectors.md),
and for every statement with hypotheses a witness that meets them. -/

namespace Sys2Proof.Tests

open Sys2Proof Sys2Proof.Machine

/-! ## States of the tests -/

/-- The setup of spec/95_test_vectors.md: reset, `MEM_SIZE` = 0x10000, `TEMP` at 0x100, `FRAME` at 0x200,
`MASK` at 0x300, `FROZEN` at 0x400, `INFO` at 0x500. -/
def sized (n : Word) : State :=
  { State.reset with
    memTop := 0xFFFF, frameSize := n, tempBase := 0x100, frameBase := 0x200, maskBase := 0x300,
    frozenBase := 0x400, infoBase := 0x500 }

/-- Bytes put into `M`. -/
def put (a : Nat) (bs : List Byte) (s : State) : State :=
  { s with mem := Memory.writeBytes s.mem a bs }

/-- The stage registers (c, s, h, b) with `PV` = 1. -/
def staged (c k h b : Word) (s : State) : State :=
  { s with
    stageCount := c, stage := k, frameHalf := h, numBranches := b,
    status := { s.status with pv := true } }

/-- The state of an outcome. -/
def after (o : Host.Outcome State Fault Refusal) : State :=
  match o with
  | .next s => s
  | .fault _ => State.reset
  | .refused _ => State.reset

/-- n bytes of `M`. -/
def bytes (s : State) (a n : Nat) : List Byte := (List.range n).map fun k => Memory.read s.mem (a + k)

/-- The stage registers as a list (c, s, h, b). -/
def stagesOf (s : State) : List Nat :=
  [s.stageCount.toNat, s.stage.toNat, s.frameHalf.toNat, s.numBranches.toNat]

/-- `STATUS`, `CAUSE`, `FINFO` as the host reads them. -/
def faultOf (s : State) : List Nat :=
  [(readReg .status s).toNat, (readReg .cause s).toNat, s.finfo.toNat]

/-! ## WellFormed and decoding (R91, R94) -/

/-- Each check of R94 refuses a word that breaks it: (a) twice, (b), (c). -/
theorem test_ill_formed_words :
    LegalOp 0x00000000 = false ∧ LegalOp 0x0000000C = false ∧ LegalZero 0x00000020 = false
      ∧ LegalFlag 0x00000011 = false ∧ LegalWord 0x00000000 = false ∧ LegalWord 0x0000000C = false
      ∧ LegalWord 0x00000020 = false ∧ LegalWord 0x00000011 = false
      ∧ LegalWord 0x00000001 = true ∧ LegalWord 0x0000001B = true := by decide

/-- The checks on fields refuse an operation number that names no command. -/
theorem test_ill_formed_fields : opAssigned 0 = false ∧ opAssigned 0xC = false := by decide

/-- Format S words, bit by bit from R90 and R91: `ZERO` 31:5, `ALN` 4, `OP` 3:0. -/
theorem test_decode_format_s :
    decode 0b00000000000000000000000000000001#32 = .ok .lg2
      ∧ decode 0b00000000000000000000000000000010#32 = .ok .ilv
      ∧ decode 0b00000000000000000000000000000011#32 = .ok .bfs
      ∧ decode 0b00000000000000000000000000000100#32 = .ok .cpb
      ∧ decode 0b00000000000000000000000000000101#32 = .ok .upd
      ∧ decode 0b00000000000000000000000000001000#32 = .ok .xfs
      ∧ decode 0b00000000000000000000000000001010#32 = .ok .ens := by
  refine ⟨?_, ?_, ?_, ?_, ?_, ?_, ?_⟩ <;> rfl

/-- Format V words, both values of `ALN`. -/
theorem test_decode_format_v :
    decode 0b00000000000000000000000000000110#32 = .ok (.mac false)
      ∧ decode 0b00000000000000000000000000010110#32 = .ok (.mac true)
      ∧ decode 0b00000000000000000000000000000111#32 = .ok (.mic false)
      ∧ decode 0b00000000000000000000000000010111#32 = .ok (.mic true)
      ∧ decode 0b00000000000000000000000000001001#32 = .ok (.xfv false)
      ∧ decode 0b00000000000000000000000000011001#32 = .ok (.xfv true)
      ∧ decode 0b00000000000000000000000000001011#32 = .ok (.env false)
      ∧ decode 0b00000000000000000000000000011011#32 = .ok (.env true) := by
  refine ⟨?_, ?_, ?_, ?_, ?_, ?_, ?_, ?_⟩ <;> rfl

/-- Vector F1: the illegal words, each with the condition of R94 it breaks. -/
theorem test_decode_illegal :
    decode 0x00000000 = .error .reservedOp ∧ decode 0x0000000C = .error .reservedOp
      ∧ decode 0x0000000F = .error .reservedOp ∧ decode 0x00000011 = .error .flagOnFormatS
      ∧ decode 0x00000012 = .error .flagOnFormatS ∧ decode 0x00000018 = .error .flagOnFormatS
      ∧ decode 0x0000001A = .error .flagOnFormatS ∧ decode 0x00000020 = .error .zeroField
      ∧ decode 0x00000026 = .error .zeroField ∧ decode 0x00000100 = .error .zeroField
      ∧ decode 0x80000001 = .error .zeroField := by
  refine ⟨?_, ?_, ?_, ?_, ?_, ?_, ?_, ?_, ?_, ?_, ?_⟩ <;> rfl

/-- A table word that does not fit the 32 bits of a command is none. -/
theorem test_decodeTableWord :
    decodeTableWord 32 0x16 = some (.mac true) ∧ decodeTableWord 32 0x11 = none
      ∧ decodeTableWord 32 (2 ^ 32 + 1) = none := by
  refine ⟨?_, ?_, ?_⟩ <;> rfl

/-- R97: the suffix `.a` sets `ALN`. -/
theorem test_script_names :
    (Instr.mac true).scriptName = "mac.a" ∧ (Instr.mac false).scriptName = "mac"
      ∧ Instr.ens.scriptName = "ens" := by decide

/-! ## The commands, one step each -/

/-- Section 2.1: `FRAME_SIZE` = 0x400 gives (10, 10, 0x200, 1). -/
theorem test_lg2 :
    stagesOf (after (exec .lg2 (sized 0x400))) = [10, 10, 0x200, 1]
      ∧ faultOf (after (exec .lg2 (sized 0x400))) = [0xA, 0, 0] := by decide

/-- Section 2.1: the largest size, and an illegal one. -/
theorem test_lg2_edges :
    stagesOf (after (exec .lg2 (sized 0x80000000))) = [31, 31, 0x40000000, 1]
      ∧ faultOf (after (exec .lg2 (sized 0x80000001))) = [0x4, 2, 0x80000001]
      ∧ stagesOf (after (exec .lg2 (sized 0x80000001))) = [0, 0, 0, 0] := by decide

/-- Section 2.2: the second `upd` of N = 8, and the fourth, which finds `STAGE` = 0. -/
theorem test_upd :
    stagesOf (after (exec .upd (staged 3 2 2 2 (sized 8)))) = [3, 1, 1, 4]
      ∧ stagesOf (after (exec .upd (staged 3 1 1 4 (sized 8)))) = [3, 0, 0, 8]
      ∧ faultOf (after (exec .upd (staged 3 0 0 8 (sized 8)))) = [0xC, 4, 0] := by decide

/-- Vector I2 of section 2.3: any non-zero mask byte is frozen, any value byte is copied. -/
theorem test_ilv :
    let s := put 0x500 [0xB1, 0xB2, 0xB3] (put 0x400 [0xA1, 0xA2, 0xA3, 0xA4, 0xA5]
      (put 0x300 [0x01, 0x00, 0x80, 0x00, 0x7F, 0xFF, 0x00, 0x02] (sized 8)))
    let t := after (exec .ilv s)
    bytes t 0x100 8 = [0xA1, 0xB1, 0xA2, 0xB2, 0xA3, 0xA4, 0xB3, 0xA5]
      ∧ t.frozenIdx = 5 ∧ t.infoIdx = 3 ∧ faultOf t = [0x2, 0, 0] := by decide

/-- The state of vector I8: info values that run out of `M`. -/
def busState : State :=
  put 0x5FE [1, 0] (put 0x400 [1, 1] (put 0x300 [0xFF, 0, 0, 0, 0xFF, 0, 0, 0]
    (put 0x100 [0x55, 0x55, 0x55, 0x55, 0x55, 0x55, 0x55, 0x55]
      { sized 8 with memTop := 0x5FF, infoBase := 0x5FE })))

/-- Vector I8: `BUS_ERROR` at position 3. -/
theorem test_ilv_bus_error :
    let t := after (exec .ilv busState)
    bytes t 0x100 8 = [1, 1, 0, 0x55, 0x55, 0x55, 0x55, 0x55]
      ∧ t.frozenIdx = 1 ∧ t.infoIdx = 2 ∧ faultOf t = [0x4, 8, 0x600] := by decide

/-- Vector I10: the info values lie in `TEMP`, and the sequential order shows. -/
theorem test_ilv_order :
    let s := put 0x100 [1, 2, 3, 4] (put 0x400 [7] (put 0x300 [0, 0xFF, 0, 0]
      { sized 4 with infoBase := 0x100 }))
    bytes (after (exec .ilv s)) 0x100 4 = [1, 7, 7, 7] := by decide

/-- Vector B2, round 1: whole bytes. -/
theorem test_bfs :
    let s := staged 3 3 4 1 (put 0x100 [0x12, 0x34, 0x56, 0x78, 0x9A, 0xBC, 0xDE, 0xF0] (sized 8))
    bytes (after (exec .bfs s)) 0x200 8 = [0x26, 0x2E, 0x26, 0x2E, 0x34, 0x78, 0xBC, 0xF0] := by
  decide

/-- Vector B2, round 2: two branches. -/
theorem test_bfs_branches :
    let s := staged 3 2 2 2 (put 0x100 [0x26, 0x2E, 0x26, 0x2E, 0x34, 0x78, 0xBC, 0xF0] (sized 8))
    bytes (after (exec .bfs s)) 0x200 8 = [0x08, 0x08, 0x2E, 0x2E, 0x4C, 0x4C, 0x78, 0xF0] := by
  decide

/-- Vector B4: `cpb` needs no `lg2`. -/
theorem test_cpb :
    let t := after (exec .cpb (put 0x200 [9, 8, 7, 6] (sized 4)))
    bytes t 0x100 4 = [9, 8, 7, 6] ∧ faultOf t = [0x2, 0, 0] := by decide

/-- The `TEMP` of vector A1, N = 32. -/
def macroInput : List Byte :=
  [0xA5, 0x4D, 0xCA, 0x18, 0x25, 0x30, 0xBB, 0x1D, 0x6D, 0x13, 0x2C, 0xDE, 0xD6, 0x23, 0x7B, 0x2E]
    ++ [0xD9, 0x1E, 0x3F, 0x72, 0x1F, 0xCB, 0x19, 0x71, 0x17, 0x44, 0x94, 0xD6, 0x49, 0x3C, 0x9D, 0x5C]

/-- The state of vector A1 before `mac`. -/
def macroState : State := staged 5 5 16 1 (put 0x100 macroInput (sized 32))

/-- Vector A1. -/
theorem test_mac :
    bytes (after (exec (.mac true) macroState)) 0x200 32 =
      [0xE8, 0xD2, 0x15, 0xA6, 0x7E, 0xF2, 0xF5, 0x55, 0xC7, 0x4D, 0xD4, 0x68, 0x53, 0x42, 0x75, 0xC1]
      ++ [0x4D, 0x18, 0x30, 0x1D, 0x13, 0xDE, 0x23, 0x2E, 0x1E, 0x72, 0xCB, 0x71, 0x44, 0xD6, 0x3C, 0x5C] := by
  decide

/-- The state of vector M2: unaligned bases. -/
def microState : State :=
  staged 4 4 8 1 (put 0x1001
    [0x01, 0x23, 0x45, 0x67, 0x89, 0xAB, 0xCD, 0xEF, 0x10, 0x32, 0x54, 0x76, 0x98, 0xBA, 0xDC, 0xFE]
    { sized 16 with tempBase := 0x1001, frameBase := 0x2003 })

/-- Vector M2. -/
theorem test_mic :
    let t := after (exec (.mic false) microState)
    bytes t 0x2003 16 =
        [0, 0, 0, 0, 0, 0, 0, 0x22, 0, 0, 0, 0x44, 0, 0x88, 0x11, 0xFE]
      ∧ stagesOf t = [4, 0, 0, 16] ∧ faultOf t = [0xA, 0, 0] := by decide

/-- Vector M4: `STAGE` = 5 is not 4. -/
theorem test_mic_stage :
    faultOf (after (exec (.mic false) (staged 5 5 16 1 (sized 32)))) = [0xC, 4, 5] := by decide

/-- Section 2.5: the input 1011 of N = 4. -/
theorem test_xfs :
    let t := after (exec .xfs (put 0x100 [0, 1, 1, 1] (sized 4)))
    bytes t 0x200 4 = [1, 0, 0, 1] ∧ bytes t 0x100 4 = [1, 0, 0, 1]
      ∧ stagesOf t = [2, 0, 0, 4] ∧ faultOf t = [0xA, 0, 0] := by decide

/-- Program P5: the overlap, and F2: an adjacent window is none. -/
theorem test_xfs_overlap :
    faultOf (after (exec .xfs { sized 8 with frameBase := 0x104 })) = [0x4, 7, 0x100]
      ∧ (sized 16).TempFrameApart ∧ checkOverlap { sized 16 with frameBase := 0x110 } = none := by
  refine ⟨by decide, Or.inl (by decide), by decide⟩

/-- Row 10 of table M1 through `xfv`: N = 16, so no macro pass and no copy back. -/
theorem test_xfv :
    let t := after (exec (.xfv true)
      (put 0x100 [0, 0, 0, 0, 0, 0, 0, 0, 0, 0, 1, 0, 0, 0, 0, 0] (sized 16)))
    bytes t 0x200 16 = [1, 1, 0, 0, 1, 1, 0, 0, 0, 0, 0, 0, 0, 0, 0, 0]
      ∧ bytes t 0x100 16 = [0, 0, 0, 0, 0, 0, 0, 0, 0, 0, 1, 0, 0, 0, 0, 0]
      ∧ stagesOf t = [4, 0, 0, 16] := by decide

/-- Program P1. -/
theorem test_ens :
    let t := after (exec .ens (put 0x500 [1, 0, 1, 1] (put 0x400 [0, 0, 0, 0]
      (put 0x300 [0xFF, 0xFF, 0xFF, 0, 0xFF, 0, 0, 0] (sized 8)))))
    bytes t 0x200 8 = [1, 0, 1, 0, 0, 1, 0, 1] ∧ stagesOf t = [3, 0, 0, 8]
      ∧ t.frozenIdx = 4 ∧ t.infoIdx = 4 := by decide

/-- Program P6: N = 1, the codeword is in `TEMP[0]` and `FRAME[0]` is not written. -/
theorem test_ens_one_symbol :
    let t := after (exec .ens (put 0x200 [0x77] (put 0x500 [1] (put 0x300 [0] (sized 1)))))
    bytes t 0x100 1 = [1] ∧ bytes t 0x200 1 = [0x77] ∧ stagesOf t = [0, 0, 0, 1]
      ∧ t.frozenIdx = 0 ∧ t.infoIdx = 1 := by decide

/-- Program P3. -/
theorem test_env :
    let t := after (exec (.env true) (put 0x500 [1, 0, 1, 1, 0, 1, 0, 1]
      (put 0x400 [0, 0, 0, 0, 0, 0, 0, 0]
        (put 0x300 [0xFF, 0xFF, 0xFF, 0xFF, 0xFF, 0xFF, 0xFF, 0, 0xFF, 0, 0, 0, 0, 0, 0, 0] (sized 16)))))
    bytes t 0x200 16 = [1, 0, 1, 0, 0, 1, 0, 1, 0, 1, 1, 0, 1, 0, 0, 1]
      ∧ stagesOf t = [4, 0, 0, 16] ∧ t.frozenIdx = 8 := by decide

/-- Vector X3: `BUS_ERROR` stops `ENV` before the transform. -/
theorem test_env_bus_error :
    let t := after (exec (.env false) (put 0x7FE [0, 0] (put 0x300
      [0xFF, 0xFF, 0xFF, 0xFF, 0, 0, 0, 0, 0, 0, 0, 0, 0, 0, 0, 0]
        { sized 16 with memTop := 0x7FF, frozenBase := 0x7FE })))
    bytes t 0x100 2 = [0, 0] ∧ t.frozenIdx = 2 ∧ t.infoIdx = 0 ∧ stagesOf t = [0, 0, 0, 0]
      ∧ faultOf t = [0x4, 8, 0x800] := by decide

/-- Section 2.6, `XSTEP(v, 4)`, `VPERM(v, REV)` and the butterfly of one register. -/
theorem test_vector_primitives :
    let v : Vec := Vector.ofFn fun i => BitVec.ofNat 8 (0x10 + i.val)
    (xstep v 4).toList = [0x04, 0x04, 0x04, 0x04, 0x14, 0x15, 0x16, 0x17,
        0x04, 0x04, 0x04, 0x04, 0x1C, 0x1D, 0x1E, 0x1F]
      ∧ (vperm v revTable).toList = [0x10, 0x18, 0x14, 0x1C, 0x12, 0x1A, 0x16, 0x1E,
        0x11, 0x19, 0x15, 0x1D, 0x13, 0x1B, 0x17, 0x1F]
      ∧ (registerButterfly v).toList = [1, 1, 1, 1, 1, 1, 1, 1,
        0x11, 0x13, 0x15, 0x17, 0x19, 0x1B, 0x1D, 0x1F] := by decide

/-- Vector F3: the order of the checks, from the first to the last. -/
theorem test_check_order :
    let at_ (n t f : Word) : State :=
      { sized n with memTop := 0xFF, tempBase := t, frameBase := f }
    faultOf (after (submit 0x3B (at_ 8 0x101 0x101))) = [0x4, 1, 0x3B]
      ∧ faultOf (after (exec (.env true) (at_ 12 0x101 0x101))) = [0x4, 2, 0xC]
      ∧ faultOf (after (exec (.env true) (at_ 8 0x101 0x101))) = [0x4, 3, 0x8]
      ∧ faultOf (after (exec (.mic true) (at_ 32 0x101 0x101))) = [0x4, 4, 0]
      ∧ faultOf (after (exec (.xfv true) (at_ 32 0x101 0x101))) = [0x4, 5, 0x101]
      ∧ faultOf (after (exec (.xfv true) (at_ 32 0x100 0x100))) = [0x4, 6, 0x100]
      ∧ faultOf (after (exec (.xfv true) (at_ 32 0x40 0x50))) = [0x4, 7, 0x40] := by decide

/-- Vector F4: a sticky fault, and the soft reset that clears it. -/
theorem test_sticky_error :
    let s := after (submit 0 { sized 8 with ctrl := { ieDone := true, ieErr := true } })
    faultOf s = [0x4, 1, 0] ∧ s.irq = true
      ∧ (after (portWrite 0x14 4 4 s)).frameSize = 4
      ∧ after (portWrite 0x00 4 1 s) = s ∧ after (portWrite 0x04 4 0xF s) = s
      ∧ (after (portWrite 0x10 4 1 s)).irq = false
      ∧ faultOf (after (portWrite 0x10 4 0x80000000 s)) = [0, 0, 0] := by
  refine ⟨by decide, by decide, by decide, by rfl, by rfl, by decide, by decide⟩

/-- R22, R75, R244: while `CPB` runs with `PV` = 1 a read of `STATUS` shows `BUSY` and `PV`, whatever the point
at which a command that sets `PV` does so; `FRAME` is not to be read although `ILV` does not use it. -/
theorem test_reads_while_busy :
    let s := staged 3 3 4 1 (sized 8)
    (∀ k ∈ [0, 1], (after (portRead { runningCommand 0x4 s.accept with pvSetAt := k } 0x04 4 s.accept)).listing
        = [.reg 0x04 0x9])
      ∧ hostMemRead 0x200 s.accept = .refused (.windowRace 0x200)
      ∧ commandDuring 0x2 [.memRead 0x200] false s = .refused (.windowRace 0x200)
      ∧ (after (portRead .unknown 0x20 4 s)).listing = [.reg 0x20 0x300] := by
  refine ⟨by decide, rfl, rfl, by decide⟩

/-- The first instruction after reset: `FRAME_SIZE` = 0, so `BAD_FRAME_SIZE(0)` (section 2.1). -/
theorem test_first_step :
    faultOf (after (step (State.reset.withFetchWord 32 0x1))) = [0x4, 2, 0]
      ∧ faultOf (after (step (State.reset.withFetchWord 32 0x5))) = [0x4, 4, 0] := by decide

/-! ## Witnesses for the hypotheses of the statements -/

/-- A word whose next script entry is its `CMD` write. -/
def scripted (m : HostMove) (s : State) : State := { s with script := [m] }

/-- A faulted engine. -/
def faultyState : State := after (submit 0 (sized 8))

/-- An engine in the middle of a command. -/
def busyState : State := (sized 8).accept

/-- The size check passes on a state whose check of R205 passes. -/
theorem sizePasses_of {s : State} {i : Instr} (h : checkFrameSize s = none) : SizePasses i s :=
  fun _ => (sizeBad_iff s).2 ((checkFrameSize_none s).1 h)

/-- A size that R205 accepts is legal. -/
theorem sizeLegal_of {s : State} (h : checkFrameSize s = none) : s.SizeLegal :=
  (checkFrameSize_none s).1 h

/-- The checks pass where the check phase finds nothing. -/
theorem passes_of {i : Instr} {s : State} (h : checkPhase (checksOf i) s = none) : PassesChecks i s :=
  (checkPhase_passes i s).1 h

theorem test_witness_ExactCommandWords :
    ((0x0 : Word).toNat % 16 = 0 ∨ 0xC ≤ (0x0 : Word).toNat % 16)
      ∧ ((0xC : Word).toNat % 16 = 0 ∨ 0xC ≤ (0xC : Word).toNat % 16)
      ∧ ((0xF : Word).toNat % 16 = 0 ∨ 0xC ≤ (0xF : Word).toNat % 16) := by decide

theorem test_witness_DecodeEncodeAgree :
    (Instr.env true).WellFormed = true ∧ decode 0x1B = .ok (.env true) := ⟨rfl, rfl⟩

/-- Words that break each of the conditions (a), (b), (c), and an engine that is ready. -/
theorem test_witness_LegalWordsExactly :
    State.reset.ready = true
      ∧ ¬ (1 ≤ ((0x0 : Word).extractLsb' 0 4).toNat) ∧ ¬ (((0xC : Word).extractLsb' 0 4).toNat ≤ 0xB)
      ∧ (0x20 : Word).extractLsb' 5 27 ≠ 0 ∧ (0x11 : Word).getLsbD 4 ≠ false := by decide

theorem test_witness_StepRunsDecodedCommand :
    let s := scripted (wr .cmd 0x1B) (sized 16)
    s.script = wr .cmd 0x1B :: [] ∧ s.ready = true ∧ decode 0x1B = .ok (.env true)
      ∧ decode (BitVec.ofNat 32 0x1B) = .ok (.env true) := ⟨rfl, rfl, rfl, rfl⟩

theorem test_witness_CommandRegister :
    (busyState.status.busy = true ∧ faultyState.status.err = true)
      ∧ (sized 8).status.busy = false ∧ (sized 8).status.err = false
      ∧ decode 0x1 = .ok .lg2 ∧ ∀ i, decode 0x11 ≠ .ok i := by
  refine ⟨by decide, rfl, rfl, rfl, fun i h => ?_⟩
  cases h

/-- The first and the last offset of each clause. -/
theorem test_witness_RegisterAccessRules :
    (0x00 % 4 = 0 ∧ 0x40 % 4 = 0 ∧ 0x44 % 4 = 0 ∧ 0xFC % 4 = 0 ∧ 0xFC ≤ 0xFF)
      ∧ (0x2C ≤ 0xFC ∧ 0x2C % 4 = 0 ∧ 0x2C ≤ 0xFF)
      ∧ (2 ≠ 4 ∨ 0x04 % 4 ≠ 0) ∧ (4 ≠ 4 ∨ 0x02 % 4 ≠ 0) ∧ (sized 8).status.busy = false := by decide

/-- An idle engine; and a command, `CPB`, that runs on an engine with `PV` = 0 and with `PV` = 1. -/
theorem test_witness_RegisterReads :
    (sized 8).status.busy = false
      ∧ ((sized 8).ready = true ∧ decode 0x4 = .ok .cpb ∧ busyState.status = (sized 8).accept.status
        ∧ (sized 8).status.pv = false ∧ setsPv .cpb = false)
      ∧ microState.ready = true ∧ microState.accept.status = microState.accept.status
      ∧ microState.status.pv = true := by
  refine ⟨rfl, ⟨rfl, rfl, rfl, rfl, rfl⟩, rfl, rfl, rfl⟩

theorem test_witness_BusyWritesIgnored :
    busyState.status.busy = true ∧ 0x00 % 4 = 0 ∧ 0xFC % 4 = 0 ∧ 0xFC ≤ 0xFF := by decide

theorem test_witness_OperandRegisterWrites : (sized 8).status.busy = false := rfl

theorem test_witness_StatusRegister :
    (sized 8).status.busy = false ∧ busyState.status.busy = true := ⟨rfl, rfl⟩

theorem test_witness_ControlRegister :
    (sized 8).status.busy = false ∧ (0x3 : Word).getLsbD 31 = false
      ∧ (0x80000000 : Word).getLsbD 31 = true ∧ busyState.status.busy = true := by decide

theorem test_witness_ResetRegistersReadZero :
    (scripted .hardReset (sized 8)).script = .hardReset :: [] ∧ (sized 8).status.busy = false
      ∧ (0x80000000 : Word).getLsbD 31 = true ∧ State.reset.RegistersReset ∧ Instr.lg2 ≠ .upd := by
  refine ⟨rfl, rfl, by decide, fun r => ?_, by decide⟩
  cases r <;> rfl

theorem test_witness_HardReset :
    (scripted .hardReset faultyState).script = .hardReset :: [] ∧ State.reset.script = [] :=
  ⟨rfl, rfl⟩

theorem test_witness_SoftReset :
    let s := scripted (wr .ctrl 0x80000000) faultyState
    let t := scripted (wr .cmd 0x1) faultyState
    (s.script = wr .ctrl 0x80000000 :: [] ∧ (0x80000000 : Word).getLsbD 31 = true
        ∧ s.status.busy = false ∧ (scripted (wr .ctrl 0x80000000) busyState).status.busy = true)
      ∧ t.script = wr .cmd 0x1 :: [] ∧ (wr .cmd 0x1).resets = false ∧ t.status.err = true
      ∧ step t = .next { t with script := [] } := by
  refine ⟨⟨rfl, by decide, rfl, rfl⟩, rfl, by decide, by decide, rfl⟩

/-- What the host may do while `MIC` runs on `microState`: a register read, a write the engine ignores, bytes
just below `TEMP` and just above `FRAME`, a read just above `TEMP`, and a look at `irq`. -/
def harmless : List HostAccess :=
  [.read 0x04 4, .write 0x14 4 8, .memWrite 0x1000 [9], .memWrite 0x2013 [7, 7], .memRead 0x1011, .senseIrq]

theorem harmless_permitted : ∀ x ∈ harmless, Permitted (.mic false) microState x := by
  have free : ∀ k, microState.writeRaces (buffersOf (.mic false) 16) k = false →
      ¬ Used (.mic false) microState k := fun k h hu =>
    absurd ((writeRaces_iff (.mic false) microState k).2 hu) (by rw [show microState.frameLength = 16 from rfl, h]; decide)
  unfold harmless
  simp only [List.forall_mem_cons, List.not_mem_nil, false_implies, implies_true]
  refine ⟨by simp only [Permitted]; decide, by simp only [Permitted]; decide,
    ⟨by decide, fun k hk => free _ ?_⟩, ⟨by decide, fun k hk => free _ ?_⟩,
    by simp only [Permitted, InWindow]; decide, trivial, trivial⟩
  · have : ∀ k, k < 1 → microState.writeRaces (buffersOf (.mic false) 16) (0x1000 + k) = false := by decide
    exact this k hk
  · have : ∀ k, k < 2 → microState.writeRaces (buffersOf (.mic false) 16) (0x2013 + k) = false := by decide
    exact this k hk

/-- A byte `MIC` writes, and one the host writes. -/
theorem test_witness_HardResetDuringCommand :
    microState.ready = true ∧ microState.StageParams ∧ decode 0x7 = .ok (.mic false)
      ∧ (∀ x ∈ harmless, Permitted (.mic false) microState x)
      ∧ ¬ InWindow microState.frameBase microState.frameLength 0x2013
      ∧ Memory.read (hostWrites harmless microState.mem) 0x2013 = 7
      ∧ (0x2012, 0xFE) ∈ (runOf (.mic false) microState.accept).log := by
  refine ⟨rfl, fun _ => by decide, rfl, harmless_permitted, ?_, by decide, by decide⟩
  unfold InWindow; decide

/-- A byte the host wrote and one it did not. -/
theorem test_witness_CommandUnderHostAccesses :
    microState.ready = true ∧ microState.StageParams ∧ decode 0x7 = .ok (.mic false)
      ∧ (∀ x ∈ harmless, Permitted (.mic false) microState x)
      ∧ HostWrote harmless 0x2014 ∧ ¬ HostWrote harmless 0x2012 := by
  refine ⟨rfl, fun _ => by decide, rfl, harmless_permitted,
    ⟨0x2013, [7, 7], by decide, by decide, by decide⟩, ?_⟩
  rintro ⟨addr, bytes, hm, h1, h2⟩
  simp only [harmless, List.mem_cons, reduceCtorEq, HostAccess.memWrite.injEq, List.not_mem_nil, or_false,
    false_or] at hm
  rcases hm with ⟨rfl, rfl⟩ | ⟨rfl, rfl⟩ <;> simp at h1 h2

theorem test_witness_InterruptOutput : (sized 8).status.busy = false := rfl

theorem test_witness_CommandEndsDoneOrErr : (sized 8).ready = true := rfl

/-- 0, the first size that is no power of two, and the last one. -/
theorem test_witness_BadFrameSizeFault :
    (sized 0).ready = true ∧ Instr.env true ≠ .upd ∧ (sized 0).frameSize = 0
      ∧ (sized 3).frameSize &&& ((sized 3).frameSize - 1) ≠ 0
      ∧ (sized 0xFFFFFFFF).frameSize &&& ((sized 0xFFFFFFFF).frameSize - 1) ≠ 0 := by decide

/-- The largest size below 16. -/
theorem test_witness_FrameTooSmallFault :
    (sized 8).ready = true ∧ opTakesFlag (Instr.mac false).op = true ∧ (sized 8).SizeLegal
      ∧ (sized 8).frameLength < 16 :=
  ⟨rfl, rfl, sizeLegal_of (by decide), by decide⟩

/-- `STAGE` at 0, 4, 3 and 5 with `PV` = 1, and `PV` = 0. -/
theorem test_witness_BadStageFault :
    (sized 16).ready = true ∧ (sized 16).status.pv = false
      ∧ (staged 4 0 0 16 (sized 16)).stage.toNat < 1 ∧ (sized 16).SizeLegal
      ∧ 16 ≤ (sized 16).frameLength ∧ (staged 4 4 8 1 (sized 16)).stage.toNat < 5
      ∧ (staged 4 3 4 2 (sized 16)).stage.toNat ≠ 4 ∧ (staged 5 5 16 1 (sized 32)).stage.toNat ≠ 4 :=
  ⟨rfl, rfl, by decide, sizeLegal_of (by decide), by decide, by decide, by decide, by decide⟩

/-- F2: `TEMP` at 0x101, then `TEMP` at 0x100 with `FRAME` at 0x208. -/
theorem test_witness_MisalignedFault :
    let s : State := { sized 16 with tempBase := 0x101, frameBase := 0x208 }
    let t : State := { sized 16 with frameBase := 0x208 }
    (s.ready = true ∧ (Instr.xfv true).flag = true ∧ SizePasses (.xfv true) s
        ∧ MinimumPasses (.xfv true) s ∧ StagePasses (.xfv true) s ∧ s.tempBase.toNat % 16 ≠ 0)
      ∧ SizePasses (.xfv true) t ∧ MinimumPasses (.xfv true) t ∧ StagePasses (.xfv true) t
      ∧ t.tempBase.toNat % 16 = 0 ∧ t.frameBase.toNat % 16 ≠ 0
      ∧ (Instr.xfv false).flag = false ∧ s.cause ≠ .misaligned
      ∧ exec (.xfv false) s = .next (after (exec (.xfv false) s)) :=
  ⟨⟨rfl, rfl, sizePasses_of (by decide), fun _ => by decide, trivial, by decide⟩,
    sizePasses_of (by decide), fun _ => by decide, trivial, by decide, by decide, rfl, by decide, rfl⟩

/-- F2: each window one byte past the end of `M`, the earlier ones inside. -/
theorem test_witness_OutOfRangeFault :
    let s : State := { sized 16 with tempBase := 0xFFF1 }
    let t : State := { sized 16 with frameBase := 0xFFF1 }
    let u : State := { sized 16 with maskBase := 0xFFF1 }
    (s.ready = true ∧ SizePasses .ens s ∧ MinimumPasses .ens s ∧ StagePasses .ens s
        ∧ s.AlignedIf (Instr.ens).flag ∧ usesTemp .ens = true
        ∧ s.memSize < s.tempBase.toNat + s.frameLength)
      ∧ (SizePasses .ens t ∧ MinimumPasses .ens t ∧ t.AlignedIf (Instr.ens).flag
        ∧ usesFrame .ens = true ∧ t.Fits t.tempBase ∧ t.memSize < t.frameBase.toNat + t.frameLength)
      ∧ SizePasses .ens u ∧ MinimumPasses .ens u ∧ u.AlignedIf (Instr.ens).flag
      ∧ usesMask .ens = true ∧ u.Fits u.tempBase ∧ u.Fits u.frameBase
      ∧ u.memSize < u.maskBase.toNat + u.frameLength := by
  refine ⟨⟨rfl, sizePasses_of (by decide), nofun, trivial, nofun, rfl, by decide⟩,
    ⟨sizePasses_of (by decide), nofun, nofun, rfl, ?_, by decide⟩,
    sizePasses_of (by decide), nofun, nofun, rfl, ?_, ?_, by decide⟩
  all_goals unfold State.Fits; decide

/-- F2: `FRAME` one byte before the end of `TEMP`. -/
theorem test_witness_OverlapFault :
    let s : State := { sized 16 with frameBase := 0x10F }
    s.ready = true ∧ usesTemp .xfs = true ∧ usesFrame .xfs = true ∧ SizePasses .xfs s
      ∧ MinimumPasses .xfs s ∧ StagePasses .xfs s ∧ s.AlignedIf (Instr.xfs).flag ∧ RangePasses .xfs s
      ∧ ¬ (s.tempBase.toNat + s.frameLength ≤ s.frameBase.toNat
          ∨ s.frameBase.toNat + s.frameLength ≤ s.tempBase.toNat) := by
  refine ⟨rfl, rfl, rfl, sizePasses_of (by decide), nofun, trivial, nofun,
    ⟨fun _ => ?_, fun _ => ?_, nofun⟩, by decide⟩
  all_goals unfold State.Fits; decide

theorem test_witness_PassedChecksRaiseNothing :
    (sized 16).ready = true ∧ PassesChecks (.env true) (sized 16) := ⟨rfl, passes_of (by decide)⟩

theorem test_witness_FaultsArePrecise :
    (sized 12).ready = true ∧ submit 0x8 (sized 12) = .next (after (submit 0x8 (sized 12)))
      ∧ (after (submit 0x8 (sized 12))).status.err = true
      ∧ (after (submit 0x8 (sized 12))).cause ≠ .busError := ⟨rfl, rfl, by decide, by decide⟩

/-- Vector I8, where the walk reaches position 3 and its value is at 0x600; and its `BUS_ERROR`, which meets the
hypotheses of the other two clauses. -/
theorem test_witness_InterleaverBusError :
    (busState.ready = true ∧ usesMask .ilv = true ∧ PassesChecks .ilv busState
        ∧ 3 < busState.frameLength
        ∧ ∃ m f, busState.walk 3 = some (m, f) ∧ busState.memSize ≤ busState.sourceAddr m f 3)
      ∧ busState.StageParams ∧ busState.cause ≠ .busError
      ∧ exec .ilv busState = .next (after (exec .ilv busState))
      ∧ (after (exec .ilv busState)).cause = .busError := by
  refine ⟨⟨rfl, rfl, passes_of (by decide), by decide, ?_⟩, nofun, by decide, rfl, by decide⟩
  have h : ((busState.walk 3).map fun x => decide (busState.memSize ≤ busState.sourceAddr x.1 x.2 3))
      = some true := by decide
  obtain ⟨x, hx, hv⟩ := Option.map_eq_some_iff.1 h
  exact ⟨x.1, x.2, hx, of_decide_eq_true hv⟩

/-- The smallest and the largest legal size. -/
theorem test_witness_StageCountIsLog2 :
    (sized 1).ready = true ∧ 31 ≤ 31 ∧ (sized 1).frameLength = 2 ^ 0
      ∧ (sized 0x80000000).frameLength = 2 ^ 31 := by decide

theorem test_witness_UpdateStageParameters :
    let s := staged 3 1 1 4 (sized 8)
    s.ready = true ∧ s.status.pv = true ∧ 1 ≤ s.stage.toNat := by decide

/-- A `UPD` before the last, and the last. -/
theorem test_witness_StageTrajectory :
    (sized 8).ready = true ∧ 3 ≤ 31 ∧ (sized 8).frameLength = 2 ^ 3 ∧ 2 < 3 ∧ 3 ≤ 3 := by decide

/-- The state of vector I7, whose two values are in `M` and apart from `TEMP`. -/
def pairState : State := put 0x500 [0] (put 0x400 [1] (put 0x300 [0xFF, 0] (sized 2)))

theorem test_witness_InterleaveWalk :
    pairState.ready = true ∧ PassesChecks .ilv pairState
      ∧ ∃ m f, pairState.walk pairState.frameLength = some (m, f) := by
  refine ⟨rfl, passes_of (by decide), ?_⟩
  have h : (pairState.walk pairState.frameLength).isSome = true := by decide
  obtain ⟨x, hx⟩ := Option.isSome_iff_exists.1 h
  exact ⟨x.1, x.2, hx⟩

theorem test_witness_InterleaveProperty :
    pairState.ready = true ∧ PassesChecks .ilv pairState
      ∧ pairState.ValuesInside pairState.frameLength ∧ pairState.InputsApart pairState.frameLength := by
  have h : ∀ i : Fin 2, pairState.valueAddr i.val < pairState.memSize
      ∧ pairState.tempBase.toNat + pairState.frameLength ≤ pairState.valueAddr i.val := by decide
  refine ⟨rfl, passes_of (by decide), fun i hi => (h ⟨i, hi⟩).1, Or.inl (by decide), fun i hi hw => ?_⟩
  exact absurd (h ⟨i, hi⟩).2 (Nat.not_le.2 hw.2)

/-- Vectors I3 and I4: the two extreme masks. -/
theorem test_witness_ExtremeMasks :
    let s := put 0x400 [1, 0, 0, 1] (put 0x300 [0xFF, 0xFF, 0xFF, 0xFF] (sized 4))
    let t := put 0x500 [1, 1, 0, 1] (put 0x300 [0, 0, 0, 0] (sized 4))
    (s.ready = true ∧ exec .ilv s = .next (after (exec .ilv s))
        ∧ (after (exec .ilv s)).status.err = false
        ∧ Apart s.tempBase s.frameLength s.maskBase s.frameLength
        ∧ (∀ i : Fin 4, s.mask i.val ≠ 0) ∧ Apart s.tempBase s.frameLength s.frozenBase s.frameLength)
      ∧ t.ready = true ∧ exec .ilv t = .next (after (exec .ilv t))
      ∧ (after (exec .ilv t)).status.err = false
      ∧ Apart t.tempBase t.frameLength t.maskBase t.frameLength
      ∧ (∀ i : Fin 4, t.mask i.val = 0) ∧ Apart t.tempBase t.frameLength t.infoBase t.frameLength := by
  refine ⟨⟨rfl, rfl, by decide, Or.inl (by decide), by decide, Or.inl (by decide)⟩,
    rfl, rfl, by decide, Or.inl (by decide), by decide, Or.inl (by decide)⟩

theorem test_witness_ScalarStage :
    let s := staged 3 2 2 2 (sized 8)
    s.ready = true ∧ PassesChecks .bfs s ∧ s.StageParams ∧ 1 < s.numBranches.toNat
      ∧ 1 < s.frameHalf.toNat := ⟨rfl, passes_of (by decide), fun _ => by decide, by decide, by decide⟩

theorem test_witness_CopyBack :
    (sized 4).ready = true ∧ PassesChecks .cpb (sized 4) := ⟨rfl, passes_of (by decide)⟩

/-- The lanes and distances where the clauses meet. -/
theorem test_witness_LanePrimitives :
    (0 < 16 ∧ 15 < 16) ∧ (1 ∈ [1, 2, 4, 8] ∧ 8 ∈ [1, 2, 4, 8]) ∧ (7 + 8 ≤ 15 ∧ ¬ 8 + 8 ≤ 15)
      ∧ 7 < 8 := by decide

theorem test_witness_LaneButterfly :
    (1 ∈ [1, 2, 4, 8] ∧ 8 ∈ [1, 2, 4, 8]) ∧ (7 < 16 ∧ 8 < 16) ∧ (7 &&& 8 = 0 ∧ 8 &&& 8 ≠ 0)
      ∧ 0 < 8 ∧ 7 < 8 := by decide

theorem test_witness_AlignedEqualsUnaligned :
    (sized 16).tempBase.toNat % 16 = 0 ∧ (sized 16).frameBase.toNat % 16 = 0 := by decide

/-- The smallest frame `MAC` runs on, and one with two branches. -/
theorem test_witness_MacroStage :
    let s := staged 6 5 16 2 (sized 64)
    macroState.ready = true ∧ PassesChecks (.mac true) macroState ∧ macroState.StageParams
      ∧ s.ready = true ∧ PassesChecks (.mac true) s ∧ s.StageParams ∧ 1 < s.numBranches.toNat :=
  ⟨rfl, passes_of (by decide), fun _ => by decide, rfl, passes_of (by decide), fun _ => by decide,
    by decide⟩

theorem test_witness_MacEqualsBfs :
    macroState.ready = true ∧ PassesChecks (.mac false) macroState ∧ macroState.StageParams :=
  ⟨rfl, passes_of (by decide), fun _ => by decide⟩

theorem test_witness_MicroStage :
    microState.ready = true ∧ PassesChecks (.mic false) microState ∧ microState.StageParams :=
  ⟨rfl, passes_of (by decide), fun _ => by decide⟩

theorem test_witness_MicEqualsFourScalarRounds :
    let s := staged 5 4 8 2 (sized 32)
    s.ready = true ∧ PassesChecks (.mic true) s ∧ s.StageParams :=
  ⟨rfl, passes_of (by decide), fun _ => by decide⟩

/-- The smallest frame with a stage. -/
theorem test_witness_ScalarTransform :
    (sized 2).ready = true ∧ PassesChecks .xfs (sized 2) ∧ (sized 2).frameLength = 2 ^ 1 :=
  ⟨rfl, passes_of (by decide), rfl⟩

theorem test_witness_OneSymbolFrame :
    let s := put 0x500 [1] (put 0x300 [0] (sized 1))
    s.ready = true ∧ s.frameSize = 1 ∧ PassesChecks .xfs s ∧ PassesChecks .ens s ∧ s.ValuesInside 1 := by
  refine ⟨rfl, rfl, passes_of (by decide), passes_of (by decide), fun i hi => ?_⟩
  have h : i = 0 := by omega
  subst h
  decide

theorem test_witness_TransformClosedForm :
    (sized 4).ready = true ∧ PassesChecks .xfs (sized 4) ∧ (sized 4).frameLength = 2 ^ 2 :=
  ⟨rfl, passes_of (by decide), rfl⟩

/-- The one-symbol frame, where the loop does not run, and a frame with two rounds. -/
theorem test_witness_StepEquivalence :
    (sized 1).ready = true ∧ PassesChecks .xfs (sized 1) ∧ (sized 1).frameLength = 2 ^ 0
      ∧ (sized 4).ready = true ∧ PassesChecks .xfs (sized 4) ∧ (sized 4).frameLength = 2 ^ 2 :=
  ⟨rfl, passes_of (by decide), rfl, rfl, passes_of (by decide), rfl⟩

/-- N = 16, where no macro pass runs, and N = 32, where one does. -/
theorem test_witness_VectorTransform :
    (sized 16).ready = true ∧ PassesChecks (.xfv true) (sized 16) ∧ (sized 16).frameLength = 2 ^ 4
      ∧ (sized 32).ready = true ∧ PassesChecks (.xfv false) (sized 32)
      ∧ (sized 32).frameLength = 2 ^ 5 :=
  ⟨rfl, passes_of (by decide), rfl, rfl, passes_of (by decide), rfl⟩

theorem test_witness_EncodeScalar :
    pairState.ready = true ∧ PassesChecks .ens pairState ∧ pairState.frameLength = 2 ^ 1
      ∧ ∃ m f, pairState.walk pairState.frameLength = some (m, f) :=
  ⟨rfl, passes_of (by decide), rfl, test_witness_InterleaveWalk.2.2⟩

/-- A frame of 16 symbols whose mask asks for info values only. -/
def infoState : State := put 0x300 [0, 0, 0, 0, 0, 0, 0, 0, 0, 0, 0, 0, 0, 0, 0, 0] (sized 16)

theorem test_witness_EncodeVector :
    infoState.ready = true ∧ PassesChecks (.env true) infoState ∧ infoState.frameLength = 2 ^ 4
      ∧ ∃ m f, infoState.walk infoState.frameLength = some (m, f) := by
  refine ⟨rfl, passes_of (by decide), rfl, ?_⟩
  have h : (infoState.walk infoState.frameLength).isSome = true := by decide
  obtain ⟨x, hx⟩ := Option.isSome_iff_exists.1 h
  exact ⟨x.1, x.2, hx⟩

theorem test_witness_VariantsAgree :
    infoState.ready = true ∧ PassesChecks (.env true) infoState ∧ PassesChecks (.xfv true) infoState :=
  ⟨rfl, passes_of (by decide), passes_of (by decide)⟩

theorem test_witness_NoFaultFromCorrectInputs :
    infoState.ready = true ∧ infoState.ScalarContract ∧ 16 ≤ infoState.frameLength
      ∧ infoState.AlignedIf true ∧ infoState.Fits infoState.maskBase
      ∧ Apart infoState.tempBase infoState.frameLength infoState.maskBase infoState.frameLength
      ∧ infoState.frozenBase.toNat + infoState.frozenCount ≤ infoState.memSize
      ∧ infoState.infoBase.toNat + infoState.infoCount ≤ infoState.memSize := by
  have hp : PassesChecks (.env true) infoState := passes_of (by decide)
  exact ⟨rfl, ⟨sizeLegal_of (by decide), hp.2.2.2.2.1.1 rfl, hp.2.2.2.2.1.2.1 rfl, hp.2.2.2.2.2 rfl rfl⟩,
    hp.2.1 rfl, hp.2.2.2.1, hp.2.2.2.2.1.2.2 rfl, Or.inl (by decide), by decide, by decide⟩

/-- A byte outside both windows, just below `TEMP` and just above it. -/
theorem test_witness_WritesStayInWindows :
    microState.ready = true ∧ microState.StageParams
      ∧ exec (.mic false) microState = .next (after (exec (.mic false) microState))
      ∧ ¬ InWindow microState.tempBase microState.frameLength 0x1000
      ∧ ¬ InWindow microState.frameBase microState.frameLength 0x2013 := by
  refine ⟨rfl, fun _ => by decide, rfl, ?_, ?_⟩
  all_goals unfold InWindow; decide

/-- A state that meets the invariant, and its step. -/
theorem test_witness_StepKeepsInvariant :
    State.reset.Inv ∧ step State.reset = .next State.reset :=
  ⟨{ notBusy := rfl, errHasCause := by decide, errNotDone := by decide, infoNeedsCause := fun _ => rfl,
     stageParams := nofun, stageRange := by decide, indexRange := by decide, memForm := rfl,
     memInside := nofun }, rfl⟩

/-- The last byte of `M`, and the first address past it. -/
theorem test_witness_HostMemoryAccess :
    (sized 8).status.busy = false ∧ 0xFFFF + [(0 : Byte)].length ≤ (sized 8).memSize
      ∧ (sized 8).memSize < 0xFFFF + [(0 : Byte), 0].length ∧ 0xFFFF < (sized 8).memSize
      ∧ (sized 8).memSize ≤ 0x10000 := by decide

/-- The ends of the windows while `ENS` runs on two symbols, one byte past `TEMP` and `FROZEN`; and on one
symbol, where `FRAME` is not used but not to be read either (R65, R75). -/
theorem test_witness_WindowRacesRefused :
    let s := pairState.accept
    let t := (put 0x300 [0] (sized 1)).accept
    decode 0xA = .ok .ens
      ∧ (s.status.busy = true ∧ 0x301 < s.memSize ∧ s.frameSize = pairState.accept.frameSize
        ∧ InWindow s.tempBase s.frameLength 0x101 ∧ Used .ens s 0x101 ∧ Used .ens s 0x201 ∧ Used .ens s 0x301
        ∧ Used .ens s 0x400 ∧ Used .ens s 0x500 ∧ ¬ InWindow s.tempBase s.frameLength 0x102
        ∧ ¬ InWindow s.frameBase s.frameLength 0x102 ∧ ¬ Used .ens s 0x102 ∧ ¬ Used .ens s 0x401
        ∧ Apart s.maskBase s.frameLength s.tempBase s.frameLength)
      ∧ t.status.busy = true ∧ InWindow t.frameBase t.frameLength 0x200 ∧ ¬ Used .ens t 0x200
      ∧ Used .ens t 0x100 := by
  simp only [← writeRaces_iff]
  refine ⟨rfl, ⟨rfl, ?_⟩, rfl, ?_⟩
  all_goals simp only [InWindow, Apart]; decide

theorem test_witness_EncodeScript :
    let s := scripted (.encode .va 0x200 0x100 0x300 0x400 0x500 16) (sized 8)
    s.ready = true ∧ s.script = .encode .va 0x200 0x100 0x300 0x400 0x500 16 :: [] := ⟨rfl, rfl⟩

theorem test_witness_XfsStepsScript :
    let s := scripted .xfsSteps (sized 4)
    s.ready = true ∧ PassesChecks .xfs s ∧ s.script = .xfsSteps :: [] :=
  ⟨rfl, passes_of (by decide), rfl⟩

theorem test_witness_XfvStepsScript :
    let s := scripted .xfvSteps (sized 32)
    s.ready = true ∧ PassesChecks (.xfv false) s ∧ s.script = .xfvSteps :: [] :=
  ⟨rfl, passes_of (by decide), rfl⟩

end Sys2Proof.Tests
end

section
/-! SUPPORT. The proofs of the state family: what the check phase gives a body, what every body leaves of the
counters and of `M`, what one access of the host can do, and the statements about the register block and the
invariant assembled from these. -/

namespace Sys2Proof.Machine

/-! ### What the check phase gives a body (R203 to R210) -/

/-- The size check leaves a power of two (R205). -/
theorem PassesChecks.sizeLegal {i : Instr} {s : State} (h : PassesChecks i s) (hi : i ≠ .upd) :
    s.SizeLegal := (sizeBad_iff s).1 (h.1 hi)

/-- The minimum-size check (R206). -/
theorem PassesChecks.minimum {i : Instr} {s : State} (h : PassesChecks i s)
    (hi : opTakesFlag i.op = true) : 16 ≤ s.frameLength := h.2.1 hi

/-- The stage check (R207). -/
theorem PassesChecks.stage {i : Instr} {s : State} (h : PassesChecks i s) : StagePasses i s := h.2.2.1

/-- The range and overlap checks leave room for the stages (R209, R210). -/
theorem PassesChecks.room {i : Instr} {r : Run} (h : PassesChecks i r.st) (ht : usesTemp i = true)
    (hf : usesFrame i = true) : r.StageRoom r.st.frameLength := by
  obtain ⟨-, -, -, -, ⟨hT, hF, -⟩, hA⟩ := h
  exact ⟨hT ht, hF hf, hA ht hf⟩

/-- The commands that interleave write `TEMP` (R65). -/
theorem usesTemp_of_usesMask {i : Instr} (h : usesMask i = true) : usesTemp i = true := by
  cases i <;> simp_all [usesMask, usesTemp]

/-- The range checks of a command that interleaves (R209). -/
theorem PassesChecks.fitsMask {i : Instr} {s : State} (h : PassesChecks i s) (hm : usesMask i = true) :
    s.Fits s.tempBase ∧ s.Fits s.maskBase := by
  obtain ⟨-, -, -, -, ⟨hT, -, hM⟩, -⟩ := h
  exact ⟨hT (usesTemp_of_usesMask hm), hM hm⟩

/-- A frame of at least sixteen symbols has at least four stages (R206). -/
theorem four_le_of_sixteen_le {n : Nat} (h : 16 ≤ 2 ^ n) : 4 ≤ n :=
  (Nat.pow_le_pow_iff_right (a := 2) (by omega)).1 h

/-- While `PV` = 1 the branches of a stage span the frame (R34, R35, R38). -/
theorem State.StageParams.span {s : State} (h : s.StageParams) (hp : s.status.pv = true)
    (hs : 1 ≤ s.stage.toNat) : s.numBranches.toNat * (2 * s.frameHalf.toNat) = s.frameLength := by
  obtain ⟨-, hN, hle, hb, hf⟩ := h hp
  rw [if_neg (by omega)] at hf
  rw [hb, hf, hN, ← Nat.pow_succ', ← Nat.pow_add]
  congr 1
  omega

/-- From stage 5 on a half branch is whole chunks of sixteen (R161). -/
theorem State.StageParams.frameHalf_chunks {s : State} (h : s.StageParams) (hp : s.status.pv = true)
    (hs : 5 ≤ s.stage.toNat) : ∃ q, s.frameHalf.toNat = 16 * q := by
  obtain ⟨-, -, -, -, hf⟩ := h hp
  refine ⟨2 ^ (s.stage.toNat - 5), ?_⟩
  rw [hf, if_neg (by omega), show (16 : Nat) = 2 ^ 4 from rfl, ← Nat.pow_add]
  congr 1
  omega

/-- At stage 4 the branches are the chunks of sixteen (R171). -/
theorem State.StageParams.span_micro {s : State} (h : s.StageParams) (hp : s.status.pv = true)
    (hs : s.stage.toNat = 4) : 16 * s.numBranches.toNat = s.frameLength := by
  have hspan := h.span hp (by omega)
  obtain ⟨-, -, -, -, hf⟩ := h hp
  rw [hf, hs] at hspan
  simp only [Nat.reduceSub, Nat.reducePow, Nat.reduceMul, OfNat.ofNat_ne_zero, if_false] at hspan
  omega

/-! ### What each body does when its checks pass -/

/-- `BFS` computes one stage over the whole frame (R131). -/
theorem doBfs_wrote {r : Run} (hp : r.st.StageParams) (hc : PassesChecks .bfs r.st) :
    ∃ r', doBfs r = .ok r' ∧ r.StageDone r' r.st.frameHalf.toNat r.st.frameLength := by
  obtain ⟨hpv, hst⟩ : StagePasses .bfs r.st := hc.stage
  have hspan := hp.span hpv hst
  have room := hc.room rfl rfl
  rw [← hspan] at room ⊢
  exact doBfs_ok rfl rfl room

/-- `MAC` computes the same stage (R161, R162). -/
theorem doMac_wrote {r : Run} {aln : Bool} (hp : r.st.StageParams) (hc : PassesChecks (.mac aln) r.st) :
    ∃ r', doMac aln r = .ok r' ∧ r.StageDone r' r.st.frameHalf.toNat r.st.frameLength := by
  obtain ⟨hpv, hst⟩ : StagePasses (.mac aln) r.st := hc.stage
  obtain ⟨q, hq⟩ := hp.frameHalf_chunks hpv hst
  have hspan := hp.span hpv (by omega)
  have room := hc.room rfl rfl
  rw [← hspan, hq] at room ⊢
  exact doMac_ok rfl hq room

/-- `MIC` fuses the last four stages over the whole frame (R171). -/
theorem doMic_wrote {r : Run} {aln : Bool} (hp : r.st.StageParams) (hc : PassesChecks (.mic aln) r.st) :
    ∃ r', doMic aln r = .ok { r' with st := r'.st.finishStages } ∧
      Run.Wrote r r' r.st.frameBase.toNat (fun j => j < r.st.frameLength) (microOutput r.st.temp) := by
  obtain ⟨hpv, hst⟩ : StagePasses (.mic aln) r.st := hc.stage
  have hspan := hp.span_micro hpv hst
  have room := hc.room rfl rfl
  rw [← hspan] at room ⊢
  exact doMic_ok rfl room

/-! ### The counters of a command in progress -/

/-- The clauses of the invariant about the stage parameters and the two indices (R32 to R38). -/
structure State.Counted (s : State) : Prop where
  stageParams : s.StageParams
  stageRange : s.stageCount.toNat ≤ 31 ∧ s.stage.toNat ≤ 31
  indexRange : s.frozenIdx.toNat + s.infoIdx.toNat ≤ 2 ^ 31

/-- The clauses of the invariant about `M` (R60). -/
structure State.MemSound (s : State) : Prop where
  memForm : Memory.wf s.mem = true
  memInside : ∀ c ∈ s.mem, c.1 < s.memSize

/-- What holds of a command in progress: its counters, and that it has stored only bytes that exist. -/
structure Run.Sound (r : Run) : Prop where
  counted : r.st.Counted
  logged : ∀ c ∈ r.log, c.1 < r.st.memSize

theorem Run.Sound.raise {r : Run} (h : r.Sound) (c : Cause) (info : Nat) : (r.raise c info).Sound :=
  ⟨{ h.counted with }, h.logged⟩

theorem Run.Sound.of_wrote {r r' : Run} {base : Word} {out : Nat → Byte} (h : r.Sound)
    (hw : Run.Wrote r r' base.toNat (fun j => j < r.st.frameLength) out) (hfit : r.st.Fits base) :
    r'.Sound := by
  have hm : r'.st.memSize = r.st.memSize := by rw [hw.onlyMem]; rfl
  refine ⟨by rw [hw.onlyMem]; exact { h.counted with }, fun c hc => ?_⟩
  unfold State.Fits at hfit
  rw [hm]
  rcases hw.logged c hc with h1 | ⟨j, hj, he⟩
  · exact h.logged c h1
  · omega

/-- `do_MIC()` ends with the stage parameters of a finished frame (R171). -/
theorem State.Counted.finishStages {s : State} (h : s.Counted) : s.finishStages.Counted where
  stageParams hp := by
    obtain ⟨h31, hN, -⟩ := h.stageParams hp
    exact ⟨h31, hN, Nat.zero_le _, by simpa [State.frameLength] using hN, by simp⟩
  stageRange := ⟨h.stageRange.1, by simp⟩
  indexRange := h.indexRange

/-- `do_LG2()` makes the stage parameters those of a legal size (R111, R112). -/
theorem State.Counted.deriveStages {s : State} (h : s.Counted) (hl : s.SizeLegal) :
    s.deriveStages.Counted := by
  obtain ⟨n, hn, hN⟩ := hl
  have hlog : (log2Reduction s.frameSize).toNat = n := by
    rw [log2Reduction_two_pow hn hN]; simp; omega
  have hhalf : (s.frameSize >>> 1).toNat = 2 ^ n / 2 := by
    rw [BitVec.toNat_ushiftRight, show s.frameSize.toNat = 2 ^ n from hN]; rfl
  refine ⟨fun _ => ?_, ?_, h.indexRange⟩
  · simp only [State.deriveStages_stageCount, State.deriveStages_stage, State.deriveStages_frameLength,
      State.deriveStages_numBranches, State.deriveStages_frameHalf, hlog, hhalf, hN]
    refine ⟨hn, trivial, Nat.le_refl _, by simp, ?_⟩
    cases n with
    | zero => rfl
    | succ n => simp [Nat.pow_succ]
  · simp only [State.deriveStages_stageCount, State.deriveStages_stage, hlog]
    exact ⟨hn, hn⟩

/-- `do_UPD()` moves the stage parameters one stage on (R113, R114). -/
theorem State.Counted.updateStages {s : State} (h : s.Counted) (hp : s.status.pv = true)
    (hs : 1 ≤ s.stage.toNat) : s.updateStages.Counted := by
  obtain ⟨h31, hN, hle, hb, hf⟩ := h.stageParams hp
  have hstage : (s.stage - 1).toNat = s.stage.toNat - 1 := by
    rw [BitVec.toNat_sub_of_le (by rw [BitVec.le_def]; exact hs)]; rfl
  have hhalf : (s.frameHalf >>> 1).toNat = s.frameHalf.toNat / 2 := by
    rw [BitVec.toNat_ushiftRight]; rfl
  have hbr : (s.numBranches <<< 1).toNat = 2 ^ (s.stageCount.toNat - (s.stage.toNat - 1)) := by
    rw [BitVec.toNat_shiftLeft, hb, Nat.shiftLeft_eq, Nat.pow_one, ← Nat.pow_succ,
      Nat.mod_eq_of_lt (two_pow_lt_32 (by omega))]
    congr 1
    omega
  refine ⟨fun _ => ?_, ⟨h.stageRange.1, ?_⟩, h.indexRange⟩
  · simp only [State.updateStages_stageCount, State.updateStages_stage, State.updateStages_frameLength,
      State.updateStages_numBranches, State.updateStages_frameHalf, hstage, hhalf, hbr]
    refine ⟨h31, hN, by omega, trivial, ?_⟩
    rw [hf, if_neg (by omega)]
    split
    · rename_i h1
      rw [show s.stage.toNat - 1 = 0 from h1]; rfl
    · obtain ⟨k, hk⟩ : ∃ k, s.stage.toNat = k + 2 := ⟨s.stage.toNat - 2, by omega⟩
      rw [hk]
      simp [Nat.pow_succ]
  · have := h.stageRange.2
    simp only [State.updateStages_stage, hstage]
    omega

/-- From s to t nothing changed but `M`, and the stage parameters, which are those at the end of a whole
transform of 2^n symbols (R133, R180). -/
def State.TransformEnd (n : Nat) (s t : State) : Prop :=
  t = { s with
    mem := t.mem
    stageCount := BitVec.ofNat 32 n
    stage := 0
    frameHalf := 0
    numBranches := s.frameSize
    status := { s.status with pv := true } }

theorem State.Counted.transformed {s t : State} {n : Nat} (h : s.Counted) (hn : n ≤ 31)
    (hN : s.frameLength = 2 ^ n) (ht : State.TransformEnd n s t) : t.Counted := by
  have hcount : (BitVec.ofNat 32 n).toNat = n := by simp; omega
  rw [ht]
  refine ⟨fun _ => ?_, ?_, h.indexRange⟩
  · simp only [hcount]
    exact ⟨hn, hN, Nat.zero_le _, hN, rfl⟩
  · simp only [hcount]
    exact ⟨hn, by simp⟩

/-- A run that ended a whole transform is sound: its stores lie in `TEMP` and `FRAME` (R133, R180). -/
theorem Run.Sound.transformed {r r' : Run} {n : Nat} (h : r.Sound) (hn : n ≤ 31)
    (hN : r.st.frameLength = 2 ^ n) (room : r.StageRoom (2 ^ n)) (hst : State.TransformEnd n r.st r'.st)
    (hlog : ∀ c ∈ r'.log, c ∈ r.log ∨ InWindow r.st.tempBase (2 ^ n) c.1
      ∨ InWindow r.st.frameBase (2 ^ n) c.1) : r'.Sound := by
  have hm : r'.st.memSize = r.st.memSize := by rw [hst]; rfl
  refine ⟨h.counted.transformed hn hN hst, fun c hc => ?_⟩
  rw [hm]
  rcases hlog c hc with h1 | h1 | h1
  · exact h.logged c h1
  · exact Nat.lt_of_lt_of_le h1.2 room.temp
  · exact Nat.lt_of_lt_of_le h1.2 room.frame

theorem doXfs_sound {r : Run} (h : r.Sound) (hl : r.st.SizeLegal) (room : r.StageRoom r.st.frameLength) :
    ∃ r', doXfs r = .ok r' ∧ r'.Sound := by
  obtain ⟨n, hn, hN⟩ := hl
  rw [hN] at room
  obtain ⟨r', hb, hst, -, -, -, hlog⟩ := xfs_run hn hN room
  exact ⟨r', hb, h.transformed hn hN room hst hlog⟩

theorem doXfv_sound {r : Run} {aln : Bool} (h : r.Sound) (hl : r.st.SizeLegal) (h16 : 16 ≤ r.st.frameLength)
    (room : r.StageRoom r.st.frameLength) : ∃ r', doXfv aln r = .ok r' ∧ r'.Sound := by
  obtain ⟨n, hn, hN⟩ := hl
  rw [hN] at room h16
  obtain ⟨r', hb, hst, -, -, hlog⟩ := xfv_run (aln := aln) (four_le_of_sixteen_le h16) hn hN room
  exact ⟨r', hb, h.transformed hn hN room hst hlog⟩

/-- A walk that got k positions into a legal frame leaves the counters in their ranges (R36, R37, R118). -/
theorem Run.Walked.sound {s : State} {k f : Nat} {m : Nat → Byte} {r : Run} (hw : Run.Walked s k f m r)
    (h : s.Counted) (hf : f ≤ k) (hk : k ≤ s.frameLength) (hl : s.SizeLegal) (hT : s.Fits s.tempBase) :
    r.Sound := by
  obtain ⟨n, hn, hN⟩ := hl
  have hle : s.frameLength ≤ 2 ^ 31 := hN ▸ Nat.pow_le_pow_right (by omega) hn
  have hm : r.st.memSize = s.memSize := by rw [hw.regs]; rfl
  refine ⟨?_, fun c hc => ?_⟩
  · rw [hw.regs]
    refine { h with indexRange := ?_ }
    simp only [BitVec.toNat_ofNat]
    omega
  · have := (hw.logged c hc).2
    unfold State.Fits at hT
    omega

/-- `do_ILV()` ends in a walk, at the end of the frame or at the value that is outside `M` (R121, R123). -/
theorem doIlv_ends {r : Run} (hl : r.log = []) (hT : r.st.Fits r.st.tempBase)
    (hM : r.st.Fits r.st.maskBase) :
    Ends (doIlv r)
      (fun r' => ∃ f m, r.st.walk r.st.frameLength = some (m, f)
        ∧ Run.Walked r.st r.st.frameLength f m r')
      fun r' => ∃ k f m r₀, k < r.st.frameLength ∧ r.st.walk k = some (m, f)
        ∧ r.st.memSize ≤ r.st.sourceAddr m f k ∧ Run.Walked r.st k f m r₀
        ∧ r' = r₀.raise .busError (r.st.sourceAddr m f k) := by
  cases hw : r.st.walk r.st.frameLength with
  | some x =>
    obtain ⟨m, f⟩ := x
    obtain ⟨r', hb, hW⟩ := doIlv_ok hl hT hM hw
    rw [hb]
    exact ⟨f, m, rfl, hW⟩
  | none =>
    obtain ⟨k, m, f, hk, hwk, hout⟩ := walk_stops hw
    obtain ⟨r₀, hb, hW⟩ := doIlv_broken hl hk hT hM hwk hout
    rw [hb]
    exact ⟨k, f, m, r₀, hk, hwk, hout, hW, rfl⟩

/-- What `do_ILV()` leaves: sound counters, and the operands and the size of `M` as they were. -/
theorem doIlv_sound {r : Run} (h : r.Sound) (hlog : r.log = []) (hl : r.st.SizeLegal)
    (hT : r.st.Fits r.st.tempBase) (hM : r.st.Fits r.st.maskBase) :
    Ends (doIlv r) (fun r' => r'.Sound ∧ SameOperands r.st r'.st) Run.Sound := by
  refine (doIlv_ends hlog hT hM).mono ?_ ?_
  · rintro r' ⟨f, m, hw, hW⟩
    refine ⟨hW.sound h.counted (walk_bounds hw).1 (Nat.le_refl _) hl hT, ?_⟩
    rw [hW.regs]
    exact SameOperands.refl _
  · rintro _ ⟨k, f, m, r₀, hk, hw, -, hW, rfl⟩
    exact (hW.sound h.counted (walk_bounds hw).1 hk.le hl hT).raise _ _

section
variable {s t : State} (h : SameOperands s t)
include h

theorem SameOperands.frameLength : t.frameLength = s.frameLength := by
  obtain ⟨hN, -⟩ := h
  exact congrArg BitVec.toNat hN

theorem SameOperands.frameBase : t.frameBase = s.frameBase := by
  obtain ⟨-, hF, -⟩ := h
  exact hF

theorem SameOperands.tempBase : t.tempBase = s.tempBase := by
  obtain ⟨-, -, hT, -⟩ := h
  exact hT

theorem SameOperands.sizeLegal (hl : s.SizeLegal) : t.SizeLegal := by
  unfold State.SizeLegal
  rwa [h.frameLength]

end

/-- The room for the stages depends on the operands only (R209, R210). -/
theorem SameOperands.room {r r' : Run} (h : SameOperands r.st r'.st)
    (room : r.StageRoom r.st.frameLength) : r'.StageRoom r'.st.frameLength := by
  rw [h.frameLength]
  exact ⟨by rw [h.tempBase, h.memSize]; exact room.temp, by rw [h.frameBase, h.memSize]; exact room.frame,
    by rw [h.tempBase, h.frameBase]; exact room.apart⟩

/-- Every body whose checks passed keeps a command sound, whether it goes on or breaks. -/
theorem bodyOf_sound {i : Instr} {r : Run} (h : r.Sound) (hlog : r.log = []) (hc : PassesChecks i r.st) :
    Ends (bodyOf i r) Run.Sound Run.Sound := by
  have hp := h.counted.stageParams
  have ends_of_ok : ∀ {x : Except Run Run}, (∃ r', x = .ok r' ∧ r'.Sound) → Ends x Run.Sound Run.Sound := by
    rintro _ ⟨r', rfl, hr⟩
    exact hr
  have hilv : i ≠ .upd → usesMask i = true →
      Ends (doIlv r) (fun r' => r'.Sound ∧ SameOperands r.st r'.st) Run.Sound := fun hi hm =>
    doIlv_sound h hlog (hc.sizeLegal hi) (hc.fitsMask hm).1 (hc.fitsMask hm).2
  cases i with
  | lg2 => exact ⟨h.counted.deriveStages (hc.sizeLegal nofun), h.logged⟩
  | ilv => exact (hilv nofun rfl).mono (fun _ h' => h'.1) fun _ h' => h'
  | bfs =>
    obtain ⟨r', hb, hw⟩ := doBfs_wrote hp hc
    exact ends_of_ok ⟨r', hb, h.of_wrote hw (hc.room rfl rfl).frame⟩
  | cpb =>
    obtain ⟨r', hb, hw⟩ := doCpb_ok (hc.room rfl rfl)
    exact ends_of_ok ⟨r', hb, h.of_wrote hw (hc.room rfl rfl).temp⟩
  | upd =>
    obtain ⟨hpv, hst⟩ : StagePasses .upd r.st := hc.stage
    exact ⟨h.counted.updateStages hpv hst, h.logged⟩
  | mac aln =>
    obtain ⟨r', hb, hw⟩ := doMac_wrote hp hc
    exact ends_of_ok ⟨r', hb, h.of_wrote hw (hc.room rfl rfl).frame⟩
  | mic aln =>
    obtain ⟨r', hb, hw⟩ := doMic_wrote hp hc
    have hr := h.of_wrote hw (hc.room rfl rfl).frame
    exact ends_of_ok ⟨_, hb, hr.counted.finishStages, hr.logged⟩
  | xfs => exact ends_of_ok (doXfs_sound h (hc.sizeLegal nofun) (hc.room rfl rfl))
  | xfv aln =>
    exact ends_of_ok (doXfv_sound h (hc.sizeLegal nofun) (hc.minimum rfl) (hc.room rfl rfl))
  | ens =>
    exact Ends.bind (hilv nofun rfl) fun r' ⟨hr, ho⟩ =>
      ends_of_ok (doXfs_sound hr (ho.sizeLegal (hc.sizeLegal nofun)) (ho.room (hc.room rfl rfl)))
  | env aln =>
    exact Ends.bind (hilv nofun rfl) fun r' ⟨hr, ho⟩ =>
      ends_of_ok (doXfv_sound hr (ho.sizeLegal (hc.sizeLegal nofun)) (ho.frameLength ▸ hc.minimum rfl)
        (ho.room (hc.room rfl rfl)))

end Sys2Proof.Machine
end

section
namespace Sys2Proof.Machine

/-! ### The clauses of the invariant -/

theorem State.Inv.counted {s : State} (h : s.Inv) : s.Counted := { h with }

theorem State.Inv.memSound {s : State} (h : s.Inv) : s.MemSound := { h with }

/-- Taking a fault on an engine that is not done (R201). -/
theorem State.Counted.inv_raise {s : State} {c : Cause} (hk : s.Counted) (hm : s.MemSound)
    (hd : s.status.done = false) (hc : c ≠ .none) (info : Nat) : (s.raise c info).Inv :=
  { hk, hm with
    notBusy := rfl
    errHasCause := ⟨fun _ => hc, fun _ => rfl⟩
    errNotDone := fun _ => hd
    infoNeedsCause := fun h => absurd h hc }

/-- An engine without a fault, whether a command runs or not: the invariant but for `BUSY`. -/
structure State.Faultless (s : State) : Prop extends s.Counted, s.MemSound where
  err : s.status.err = false
  cause : s.cause = .none
  finfo : s.finfo = 0

theorem State.Inv.faultless {s : State} (h : s.Inv) (he : s.status.err = false) : s.Faultless :=
  have hc : s.cause = .none := by
    by_contra hne
    rw [h.errHasCause.2 hne] at he
    cases he
  { h with err := he, cause := hc, finfo := h.infoNeedsCause hc }

theorem State.Faultless.inv {s : State} (h : s.Faultless) (hb : s.status.busy = false) : s.Inv :=
  { h with
    notBusy := hb
    errHasCause := by simp [h.err, h.cause]
    errNotDone := by simp [h.err]
    infoNeedsCause := fun _ => h.finfo }

theorem State.Faultless.accept {s : State} (h : s.Faultless) : s.accept.Faultless := { h with }

theorem State.Inv.forgetInternal {s : State} (h : s.Inv) : s.forgetInternal.Inv := { h with }

/-- A reset of the registers on a sound memory (R50, R240). -/
theorem State.MemSound.inv_reset {s : State} (h : s.MemSound) : s.resetRegisters.Inv :=
  { h with
    notBusy := rfl
    errHasCause := by simp
    errNotDone := nofun
    infoNeedsCause := fun _ => rfl
    stageParams := nofun
    stageRange := by simp
    indexRange := by simp }

/-- Settles O54: reset holds no fault, no stage parameters and an empty `M`. -/
theorem resetMeetsInvariant : Obligations.ResetMeetsInvariant :=
  have empty : State.reset.MemSound := ⟨Memory.wf_reset, nofun⟩
  { empty.inv_reset with }

/-! ### A command keeps the invariant -/

theorem State.Faultless.sound {s : State} (h : s.Faultless) : Run.Sound ⟨s.accept, []⟩ :=
  ⟨h.accept.toCounted, nofun⟩

/-- A body that went on from a faultless engine leaves one. -/
theorem Run.Went.faultless {r r' : Run} (hw : Run.Went r r') (h : r.st.Faultless) (hs : r'.Sound) :
    r'.st.Faultless :=
  { hs.counted with
    memForm := hw.memForm h.memForm
    memInside := hw.memInside h.memInside
    err := hw.err.trans h.err
    cause := hw.cause.trans h.cause
    finfo := hw.finfo.trans h.finfo }

/-- The end of a command, good or bad, meets the invariant (R200, R201). -/
theorem exec_inv {i : Instr} {s t : State} (h : s.Faultless) (ht : exec i s = .next t) : t.Inv := by
  rw [exec_eq] at ht
  cases ht
  have hlaw := bodyOf_lawful i ⟨s.accept, []⟩
  rcases runCommand_st (checksOf i) (bodyOf i) s with
    ⟨f, hf, ht⟩ | ⟨hc, r, hb, ht⟩ | ⟨hc, r, hb, ht⟩ <;> rw [ht]
  · exact h.accept.toCounted.inv_raise h.accept.toMemSound rfl (checkPhase_cause hf).1 _
  all_goals
    have hsound := bodyOf_sound h.sound rfl ((checkPhase_passes i s.accept).1 hc)
    rw [hb] at hlaw hsound
  · refine State.Inv.forgetInternal ?_
    have hf := hlaw.faultless h.accept hsound
    exact State.Faultless.inv (s := r.st.complete) { hf with } rfl
  · obtain ⟨r₀, a, hw, rfl⟩ := hlaw
    have hm : r₀.st.MemSound := ⟨hw.memForm h.memForm, hw.memInside h.memInside⟩
    have hk : r₀.st.Counted := { hsound.counted with }
    exact (hk.inv_raise (c := .busError) hm hw.done nofun a).forgetInternal

/-- An accepted word, legal or not, leaves the invariant (R94, R200). -/
theorem acceptWord_inv {w : Word} {s t : State} (h : s.Faultless) (ht : acceptWord w s = .next t) : t.Inv := by
  unfold acceptWord at ht
  split at ht
  · exact exec_inv h ht
  · cases ht
    exact h.accept.toCounted.inv_raise (c := .illegalCommand) h.accept.toMemSound rfl nofun _

theorem ready_iff (s : State) : s.ready = true ↔ s.status.busy = false ∧ s.status.err = false := by
  simp [State.ready]

theorem submit_inv {w : Word} {s t : State} (h : s.Inv) (ht : submit w s = .next t) : t.Inv := by
  unfold submit at ht
  split at ht
  · rename_i hr
    exact acceptWord_inv (h.faultless ((ready_iff s).1 hr).2) ht
  · cases ht
    exact h

/-! ### A hard reset during a command keeps the invariant (R242) -/

theorem runOf_eq (i : Instr) (s : State) : runOf i s = runCommand (checksOf i) (bodyOf i) s := by
  cases i <;> rfl

/-- A command stores only bytes that exist (R60). -/
theorem runOf_logged {i : Instr} {s : State} (h : s.Faultless) :
    ∀ c ∈ (runOf i s).log, c.1 < s.memSize := by
  have hlaw := bodyOf_lawful i ⟨s.accept, []⟩
  rw [runOf_eq]
  unfold runCommand
  cases hc : checkPhase (checksOf i) s.accept with
  | some f => exact nofun
  | none =>
    have hsound := bodyOf_sound h.sound rfl ((checkPhase_passes i s.accept).1 hc)
    cases hb : bodyOf i ⟨s.accept, []⟩ with
    | ok r =>
      rw [hb] at hlaw hsound
      exact fun c hl => hlaw.operands.memSize ▸ hsound.logged c hl
    | error r =>
      rw [hb] at hlaw hsound
      obtain ⟨r₀, a, hw, rfl⟩ := hlaw
      exact fun c hl => hw.operands.memSize ▸ hsound.logged c hl

theorem resetDuring_inv {w : Word} {s : State} (h : s.Faultless) : (resetDuring w s).Inv := by
  unfold resetDuring
  split
  · rename_i i _
    obtain ⟨hform, hcells⟩ := tornMemory_form (draw := s.draws) (log := (runOf i s).log) h.memForm
    refine { h.toMemSound.inv_reset with memForm := hform, memInside := fun c hc => ?_ }
    rcases hcells c hc with hm | ⟨d, hd, he⟩
    · exact h.memInside c hm
    · rw [he]
      exact runOf_logged h d hd
  · exact h.toMemSound.inv_reset

/-! ### What one access of the host can do -/

/-- From s to t nothing changed but `M`, which keeps its form, the listing and the counter of draws. -/
structure State.Touched (s t : State) : Prop where
  same : t = { s with mem := t.mem, draws := t.draws, listing := t.listing }
  memSound : s.MemSound → t.MemSound

theorem State.Touched.refl (s : State) : s.Touched s := ⟨rfl, id⟩

theorem State.Touched.trans {s t u : State} (h : s.Touched t) (k : t.Touched u) : s.Touched u :=
  ⟨by rw [k.same, h.same], fun hm => k.memSound (h.memSound hm)⟩

theorem State.Touched.status {s t : State} (h : s.Touched t) : t.status = s.status := by rw [h.same]

theorem State.Touched.faultless {s t : State} (h : s.Touched t) (hs : s.Faultless) : t.Faultless := by
  have hm := h.memSound hs.toMemSound
  rw [h.same] at hm ⊢
  exact { hs with memForm := hm.memForm, memInside := hm.memInside }

theorem State.Touched.inv {s t : State} (h : s.Touched t) (hs : s.Inv) : t.Inv := by
  have hm := h.memSound hs.memSound
  rw [h.same] at hm ⊢
  exact { hs with memForm := hm.memForm, memInside := hm.memInside }

theorem observeReg_touched (c : Running) (r : Reg) (s : State) : s.Touched (observeReg c r s).2 := by
  unfold observeReg
  split <;> exact ⟨rfl, fun h => { h with }⟩

theorem show_touched (line : Shown) (s : State) : s.Touched (s.show line) := ⟨rfl, fun h => { h with }⟩

theorem portRead_touched {c : Running} {offset size : Nat} {s t : State}
    (h : portRead c offset size s = .next t) : s.Touched t := by
  unfold portRead at h
  split at h
  · cases h
  · split at h <;> cases h
    · exact show_touched _ s
    · exact (observeReg_touched _ _ s).trans (show_touched _ _)

theorem hostMemRead_touched {addr : Nat} {s t : State} (h : hostMemRead addr s = .next t) :
    s.Touched t := by
  unfold hostMemRead at h
  split at h
  · cases h
  · split at h <;> cases h
    exact show_touched _ s

theorem hostMemWrite_touched {c : Running} {addr : Nat} {bytes : List Byte} {s t : State}
    (h : hostMemWrite c addr bytes s = .next t) : s.Touched t := by
  unfold hostMemWrite at h
  split at h
  · cases h
  · split at h <;> cases h
    refine ⟨rfl, fun hm => ⟨Memory.wf_writeBytes addr bytes hm.memForm, fun d hd => ?_⟩⟩
    show d.1 < s.memSize
    rcases Memory.mem_writeBytes hd with hr | hr
    · omega
    · exact hm.memInside d hr

/-- A write to the port is ignored, or, while not busy, a register write or a command (R21, R39, R41). -/
theorem portWrite_cases {offset size : Nat} {w : Word} {s t : State}
    (h : portWrite offset size w s = .next t) :
    t = s ∨ s.status.busy = false ∧ ((∃ r, t = writeReg r w s) ∨ submit w s = .next t) := by
  unfold portWrite at h
  split at h
  · cases h
  · split at h
    · cases h; exact .inl rfl
    · rename_i hb
      have hb' : s.status.busy = false := by simpa using hb
      split at h
      · cases h; exact .inl rfl
      · exact .inr ⟨hb', .inr h⟩
      · cases h; exact .inr ⟨hb', .inl ⟨_, rfl⟩⟩

/-- What one access of the host can do: a register write or a command while not busy, and otherwise only a
touch of `M`, the listing and the counter of draws. -/
theorem hostAccess_cases {c : Running} {a : HostAccess} {s t : State} (h : hostAccess c a s = .next t) :
    s.Touched t ∨ s.status.busy = false ∧ ∃ w, (∃ r, t = writeReg r w s) ∨ submit w s = .next t := by
  cases a with
  | write offset size w =>
    rcases portWrite_cases h with rfl | ⟨hb, hw⟩
    · exact .inl (State.Touched.refl _)
    · exact .inr ⟨hb, w, hw⟩
  | read offset size => exact .inl (portRead_touched h)
  | memWrite addr bytes => exact .inl (hostMemWrite_touched h)
  | memRead addr => exact .inl (hostMemRead_touched h)
  | senseIrq =>
    cases h
    exact .inl (show_touched _ s)

theorem andThen_eq_next {o : Host.Outcome State Fault Refusal} {k : State → Host.Outcome State Fault Refusal}
    {t : State} (h : andThen o k = .next t) : ∃ s, o = .next s ∧ k s = .next t := by
  cases o with
  | next s => exact ⟨s, rfl, h⟩
  | fault f => cases h
  | refused r => cases h

/-- While a command runs the host touches only `M`, the listing and the counter of draws (R41). -/
theorem hostAccesses_touched {c : Running} {l : List HostAccess} {s t : State} (hb : s.status.busy = true)
    (h : hostAccesses c l s = .next t) : s.Touched t := by
  induction l generalizing c s with
  | nil => cases h; exact State.Touched.refl _
  | cons a l ih =>
    obtain ⟨s', h1, h2⟩ := andThen_eq_next h
    rcases hostAccess_cases h1 with ht | ⟨hb', -⟩
    · exact ht.trans (ih (ht.status ▸ hb) h2)
    · rw [hb] at hb'; cases hb'

/-! ### Every move of the host keeps the invariant -/

theorem writeStatus_inv {s : State} (w : Word) (h : s.Inv) : (s.writeStatus w).Inv := by
  unfold State.writeStatus
  split
  · exact { h with errNotDone := fun _ => rfl }
  · exact h

theorem writeCtrl_inv {s : State} (w : Word) (h : s.Inv) : (s.writeCtrl w).Inv := by
  unfold State.writeCtrl
  split
  · exact h.memSound.inv_reset
  · exact { h with }

/-- A register write keeps the invariant; one to `FRAME_SIZE` clears `PV` and so asks nothing (R22). -/
theorem writeReg_inv {s : State} (r : Reg) (w : Word) (h : s.Inv) : (writeReg r w s).Inv := by
  cases r with
  | status => exact writeStatus_inv w h
  | ctrl => exact writeCtrl_inv w h
  | frameSize => exact { h with stageParams := nofun }
  | frameBase | tempBase | maskBase | frozenBase | infoBase => exact { h with }
  | cmd | cause | finfo | stageCount | stage | frameHalf | numBranches | frozenIdx | infoIdx => exact h

theorem hostAccess_inv {c : Running} {a : HostAccess} {s t : State} (h : s.Inv)
    (ht : hostAccess c a s = .next t) : t.Inv := by
  rcases hostAccess_cases ht with ht | ⟨-, w, ⟨r, rfl⟩ | ht⟩
  · exact ht.inv h
  · exact writeReg_inv r w h
  · exact submit_inv h ht

theorem hostAccesses_inv {c : Running} {l : List HostAccess} {s t : State} (h : s.Inv)
    (ht : hostAccesses c l s = .next t) : t.Inv := by
  induction l generalizing c s with
  | nil => cases ht; exact h
  | cons a l ih =>
    obtain ⟨s', h1, h2⟩ := andThen_eq_next ht
    exact ih (hostAccess_inv h h1) h2

theorem commandDuring_inv {w : Word} {during : List HostAccess} {hardReset : Bool} {s t : State} (h : s.Inv)
    (ht : commandDuring w during hardReset s = .next t) : t.Inv := by
  unfold commandDuring at ht
  split at ht
  · rename_i hr
    obtain ⟨s', h1, h2⟩ := andThen_eq_next ht
    have hf := (hostAccesses_touched rfl h1).faultless (h.faultless ((ready_iff s).1 hr).2).accept
    split at h2
    · cases h2; exact resetDuring_inv hf
    · exact acceptWord_inv hf h2
  · obtain ⟨s', h1, h2⟩ := andThen_eq_next ht
    have hi := hostAccesses_inv h h1
    split at h2 <;> cases h2
    · exact hi.memSound.inv_reset
    · exact hi

theorem State.Inv.withScript {s : State} (h : s.Inv) (script : List HostMove) :
    ({ s with script := script } : State).Inv := { h with }

theorem State.Inv.push {s : State} (h : s.Inv) (moves : List HostMove) : (s.push moves).Inv :=
  h.withScript _

theorem onStage_inv {s : State} (h : s.Inv) (next : Nat → List HostMove) : (onStage next s).Inv :=
  (((observeReg_touched _ _ s).trans (show_touched _ _)).inv h).push _

theorem hostMove_inv {m : HostMove} {s t : State} (h : s.Inv) (ht : hostMove m s = .next t) : t.Inv := by
  cases m with
  | access a => exact hostAccess_inv h ht
  | commandDuring w during hardReset => exact commandDuring_inv h ht
  | hardReset => cases ht; exact h.memSound.inv_reset
  | encode variant frame temp mask frozen info n => cases ht; exact h.push _
  | xfsSteps | xfvSteps => cases ht; exact h.push _
  | xfsLoop | xfvLoop => cases ht; exact onStage_inv h _

/-- Settles O55: every move of the host keeps the invariant, a command by what its body leaves. -/
theorem stepKeepsInvariant : Obligations.StepKeepsInvariant := by
  intro s t h ht
  unfold step nextMove at ht
  split at ht
  · cases ht; exact h
  · exact hostMove_inv (h.withScript _) ht

end Sys2Proof.Machine
end

section
namespace Sys2Proof.Machine

/-! ### The register port, offset by offset (R20, R39, R41) -/

theorem regAt_offset (r : Reg) : regAt r.offset = some r := by cases r <;> rfl

theorem Reg.offset_le (r : Reg) : r.offset ≤ 0x40 := by cases r <;> decide

theorem Reg.offset_aligned (r : Reg) : r.offset % 4 = 0 := by cases r <;> rfl

/-- An aligned offset at which a register stands is that register's (R20). -/
theorem offset_of_regAt {offset : Nat} {r : Reg} (ha : offset % 4 = 0) (h : regAt offset = some r) :
    offset = r.offset := by
  unfold regAt at h
  split at h <;> cases h <;> simp only [Reg.offset] <;> omega

theorem portRefusal_aligned {offset : Nat} (ha : offset % 4 = 0) (hle : offset ≤ 0xFF) :
    portRefusal offset 4 = none := by
  simp [portRefusal, ha, hle]

theorem portRefusal_bad {offset size : Nat} (h : size ≠ 4 ∨ offset % 4 ≠ 0) :
    portRefusal offset size = some (.portAccess offset size) := if_pos h

theorem portRefusal_reg (r : Reg) : portRefusal r.offset 4 = none :=
  portRefusal_aligned r.offset_aligned (r.offset_le.trans (by decide))

/-- While busy every write of the block is ignored (R41). -/
theorem portWrite_busy {offset : Nat} {s : State} (hb : s.status.busy = true) (ha : offset % 4 = 0)
    (hle : offset ≤ 0xFF) (w : Word) : portWrite offset 4 w s = .next s := by
  simp [portWrite, portRefusal_aligned ha hle, hb]

/-- While not busy a write to a register other than `CMD` is a register write (R39). -/
theorem portWrite_reg {s : State} (hb : s.status.busy = false) {r : Reg} (hr : r ≠ .cmd) (w : Word) :
    portWrite r.offset 4 w s = .next (writeReg r w s) := by
  unfold portWrite
  rw [portRefusal_reg, regAt_offset]
  cases r <;> simp_all

/-- While not busy a write to `CMD` submits its word (R21). -/
theorem portWrite_cmd {s : State} (hb : s.status.busy = false) (w : Word) :
    portWrite 0x00 4 w s = submit w s := by
  simp [portWrite, portRefusal, regAt, hb]

/-- A write at a reserved offset is ignored (R39). -/
theorem portWrite_reserved {offset : Nat} (ha : offset % 4 = 0) (hle : offset ≤ 0xFF)
    (hr : regAt offset = none) (w : Word) (s : State) : portWrite offset 4 w s = .next s := by
  simp [portWrite, portRefusal_aligned ha hle, hr]

/-- What a read at a register's offset does (R39). -/
theorem portRead_reg (c : Running) (r : Reg) (s : State) :
    portRead c r.offset 4 s = .next ((observeReg c r s).2.show (.reg r.offset (observeReg c r s).1)) := by
  unfold portRead
  rw [portRefusal_reg, regAt_offset]

theorem portRead_reserved {offset : Nat} (ha : offset % 4 = 0) (hle : offset ≤ 0xFF)
    (hr : regAt offset = none) (c : Running) (s : State) :
    portRead c offset 4 s = .next (s.show (.reg offset 0)) := by
  simp [portRead, portRefusal_aligned ha hle, hr]

theorem observeReg_idle {s : State} (hb : s.status.busy = false) (c : Running) (r : Reg) :
    observeReg c r s = (readReg r s, s) := by simp [observeReg, hb]

theorem observeReg_busy {s : State} (hb : s.status.busy = true) (c : Running) (r : Reg) :
    observeReg c r s = (readRegBusy c r s, { s with draws := s.draws + 1 }) := by simp [observeReg, hb]

/-- While not busy a read shows what the register holds and changes nothing else. -/
theorem portRead_idle {s : State} (hb : s.status.busy = false) (c : Running) (r : Reg) {v : Word}
    (hv : readReg r s = v) :
    portRead c r.offset 4 s = .next { s with listing := .reg r.offset v :: s.listing } := by
  rw [portRead_reg, observeReg_idle hb, hv]
  rfl

/-- While busy a read shows what a running command lets through, and draws. -/
theorem portRead_busy {s : State} (hb : s.status.busy = true) (c : Running) (r : Reg) {v : Word}
    (hv : readRegBusy c r s = v) :
    portRead c r.offset 4 s
      = .next { s with listing := .reg r.offset v :: s.listing, draws := s.draws + 1 } := by
  rw [portRead_reg, observeReg_busy hb, hv]
  rfl

/-! ### The words the flag registers read as (R22, R23, R25) -/

theorem Status.word_bits (x : Status) :
    x.word.getLsbD 0 = x.busy ∧ x.word.getLsbD 1 = x.done ∧ x.word.getLsbD 2 = x.err
      ∧ x.word.getLsbD 3 = x.pv ∧ x.word.extractLsb' 4 28 = 0 := by
  obtain ⟨busy, done, err, pv⟩ := x
  revert busy done err pv
  decide

theorem Ctrl.word_bits (x : Ctrl) :
    x.word.getLsbD 0 = x.ieDone ∧ x.word.getLsbD 1 = x.ieErr ∧ x.word.extractLsb' 2 30 = 0 := by
  obtain ⟨ieDone, ieErr⟩ := x
  revert ieDone ieErr
  decide

theorem Cause.code_high (x : Cause) : (BitVec.ofNat 32 x.code).extractLsb' 4 28 = 0 := by
  cases x <;> rfl

/-- The reserved bits of a register word: none in any register but these (R22, R23, R25). -/
theorem observeReg_reserved_bits (c : Running) (s : State) :
    (observeReg c .cmd s).1 = 0 ∧ (observeReg c .status s).1.extractLsb' 4 28 = 0
      ∧ (observeReg c .cause s).1.extractLsb' 4 28 = 0
      ∧ (observeReg c .ctrl s).1.extractLsb' 2 30 = 0 := by
  cases hb : s.status.busy
  · simp only [observeReg_idle hb, readReg]
    exact ⟨trivial, (Status.word_bits _).2.2.2.2, Cause.code_high _, (Ctrl.word_bits _).2.2⟩
  · simp only [observeReg_busy hb, readRegBusy, unspecifiedWhileBusy, readReg]
    exact ⟨rfl, (Status.word_bits _).2.2.2.2, Cause.code_high _, (Ctrl.word_bits _).2.2⟩

/-- A read changes the listing, and while busy the counter of draws. -/
theorem observeReg_draws (c : Running) (r : Reg) (s : State) :
    ∃ d, (observeReg c r s).2 = { s with draws := d } ∧ (s.status.busy = false → d = s.draws) := by
  cases hb : s.status.busy
  · exact ⟨s.draws, by rw [observeReg_idle hb], fun _ => rfl⟩
  · exact ⟨s.draws + 1, by rw [observeReg_busy hb], nofun⟩

/-! ### Commands through the port (R21, R94, R97) -/

theorem acceptWord_legal {w : Word} {i : Instr} (h : decode w = .ok i) (s : State) :
    acceptWord w s = exec i s := by simp [acceptWord, h]

/-- An illegal word faults precisely (R94, R204). -/
theorem acceptWord_illegal {w : Word} (h : ∀ i, decode w ≠ .ok i) (s : State) :
    acceptWord w s = .next (s.faulted .illegalCommand w) := by
  unfold acceptWord
  cases hd : decode w with
  | ok i => exact absurd hd (h i)
  | error e => simp [rejectWord, State.raise, State.accept, State.faulted]

theorem submit_ready {s : State} (h : s.ready = true) (w : Word) : submit w s = acceptWord w s := if_pos h

theorem submit_not_ready {s : State} (h : s.ready = false) (w : Word) : submit w s = .next s := by
  simp [submit, h]

/-- A ready engine runs the command of a legal word (R21, R200). -/
theorem portWrite_cmd_legal {s : State} {w : Word} {i : Instr} (hr : s.ready = true) (hd : decode w = .ok i) :
    portWrite 0x00 4 w s = exec i s := by
  rw [portWrite_cmd ((ready_iff s).1 hr).1, submit_ready hr, acceptWord_legal hd]

/-- Settles O6: the two sides of the gate of R21. -/
theorem commandRegister : Obligations.CommandRegister := by
  intro s w
  refine ⟨fun h => ?_, fun hb he => ?_, rfl⟩
  · cases hb : s.status.busy
    · rw [portWrite_cmd hb]
      refine submit_not_ready ?_ w
      rcases h with h | h <;> simp_all [State.ready]
    · exact portWrite_busy hb rfl (by decide) w
  · have hr := (ready_iff s).2 ⟨hb, he⟩
    refine ⟨fun i hi => portWrite_cmd_legal hr hi, fun hi => ?_⟩
    rw [portWrite_cmd hb, submit_ready hr, acceptWord_illegal hi]

/-- The step that takes a `CMD` write off the script (R97). -/
theorem step_cmd {s : State} {w : Word} {i : Instr} {rest : List HostMove} (hs : s.script = wr .cmd w :: rest)
    (hr : s.ready = true) (hd : decode w = .ok i) : step s = exec i { s with script := rest } := by
  unfold step nextMove
  rw [hs]
  exact portWrite_cmd_legal (s := { s with script := rest }) hr hd

/-- Settles O5: the move taken off the script is the `CMD` write, and `withFetchWord` puts it there. -/
theorem stepRunsDecodedCommand : Obligations.StepRunsDecodedCommand :=
  ⟨fun _ _ _ _ hs hr hd => step_cmd hs hr hd,
    fun s nbits w _ hd => step_cmd (s := s.withFetchWord nbits w) rfl rfl hd⟩

/-! ### The register block -/

/-- Settles O9: `portWrite` looks at `BUSY` before the register. -/
theorem busyWritesIgnored : Obligations.BusyWritesIgnored :=
  fun _ _ w hb ha hle => portWrite_busy hb ha hle w

/-- Settles O10: each of the six is the register write at its offset. -/
theorem operandRegisterWrites : Obligations.OperandRegisterWrites := fun _ w hb =>
  ⟨portWrite_reg (r := .frameSize) hb nofun w, portWrite_reg (r := .frameBase) hb nofun w,
    portWrite_reg (r := .tempBase) hb nofun w, portWrite_reg (r := .maskBase) hb nofun w,
    portWrite_reg (r := .frozenBase) hb nofun w, portWrite_reg (r := .infoBase) hb nofun w⟩

/-- Settles O11: the register write of `STATUS`, and the bits of its word. -/
theorem statusRegister : Obligations.StatusRegister := fun s w =>
  ⟨fun hb => portWrite_reg (r := .status) hb nofun w, fun hb => portWrite_busy hb rfl (by decide) w,
    s.status.word_bits⟩

/-- A reset leaves every host-visible register at 0 (R50). -/
theorem resetRegisters_reset (s : State) : s.resetRegisters.RegistersReset := fun r => by cases r <;> rfl

theorem writeCtrl_srst {w : Word} (h : w.getLsbD 31 = true) (s : State) :
    s.writeCtrl w = s.resetRegisters := if_pos h

theorem writeCtrl_enables {w : Word} (h : w.getLsbD 31 = false) (s : State) :
    s.writeCtrl w = { s with ctrl := { ieDone := w.getLsbD 0, ieErr := w.getLsbD 1 } } := by
  unfold State.writeCtrl
  rw [h, if_neg Bool.false_ne_true]

/-- A `CTRL` write with `SRST` resets the registers (R25, R241). -/
theorem portWrite_srst {s : State} {w : Word} (hb : s.status.busy = false) (hw : w.getLsbD 31 = true) :
    portWrite 0x10 4 w s = .next s.resetRegisters :=
  (portWrite_reg (r := .ctrl) hb nofun w).trans (congrArg Host.Outcome.next (writeCtrl_srst hw s))

/-- Settles O12: the two register writes of `CTRL`, and the bits of its word. -/
theorem controlRegister : Obligations.ControlRegister := fun s w =>
  ⟨fun hb hw => (portWrite_reg (r := .ctrl) hb nofun w).trans
      (congrArg Host.Outcome.next (writeCtrl_enables hw s)),
    fun hb hw => ⟨_, portWrite_srst hb hw, resetRegisters_reset s⟩,
    fun hb => portWrite_busy hb rfl (by decide) w, s.ctrl.word_bits⟩

/-- Every command but `UPD` checks `FRAME_SIZE` first (R203, R212). -/
theorem checkPhase_size_zero {i : Instr} {s : State} (hi : i ≠ .upd) (hs : s.frameSize = 0) :
    checkPhase (checksOf i) s = some (.badFrameSize, 0) := by
  have first : (checksOf i).frameSize = true := by
    cases i <;> simp_all [checksOf]
  have bad : checkFrameSize s = some (.badFrameSize, 0) := by
    simp [checkFrameSize, State.legalFrameSize, hs]
  simp [checkPhase, onlyIf, first, bad]

/-- Settles O13: the three resets, and the size check that fails on `FRAME_SIZE` = 0. -/
theorem resetRegistersReadZero : Obligations.ResetRegistersReadZero := by
  refine ⟨fun r => by cases r <;> rfl, fun s rest hs => ?_, fun s w hb hw => ?_, fun s i h hi => ?_⟩
  · exact ⟨_, by rw [step, nextMove, hs]; rfl, resetRegisters_reset _⟩
  · exact ⟨_, portWrite_srst hb hw, resetRegisters_reset s⟩
  · exact exec_failed (checkPhase_size_zero hi (h .frameSize))

/-- `STATUS` looks at bit 1 of what is written only (R22). -/
theorem writeStatus_and (w : Word) (s : State) : s.writeStatus (w &&& 0x2) = s.writeStatus w := by
  simp [State.writeStatus]

/-- `CTRL` looks at bits 31, 1 and 0 of what is written only (R25). -/
theorem writeCtrl_and (w : Word) (s : State) : s.writeCtrl (w &&& 0x80000003) = s.writeCtrl w := by
  simp [State.writeCtrl]

/-- A register write that comes to the same through the port (R41). -/
theorem portWrite_congr {r : Reg} (hr : r ≠ .cmd) {s : State} {v w : Word}
    (h : writeReg r v s = writeReg r w s) : portWrite r.offset 4 v s = portWrite r.offset 4 w s := by
  cases hb : s.status.busy
  · rw [portWrite_reg hb hr, portWrite_reg hb hr, h]
  · rw [portWrite_busy hb r.offset_aligned (r.offset_le.trans (by decide)),
      portWrite_busy hb r.offset_aligned (r.offset_le.trans (by decide))]

/-- A read-only register ignores what is written (R39). -/
theorem writeReg_readOnly {r : Reg} (h : r.offset = 0x08 ∨ r.offset = 0x0C ∨ 0x2C ≤ r.offset) (w : Word)
    (s : State) : writeReg r w s = s := by
  cases r <;> simp_all [Reg.offset, writeReg]

/-- Settles O7: a read by what it observes, a write by the register or the reserved offset it reaches. -/
theorem registerAccessRules : Obligations.RegisterAccessRules := by
  intro s c
  refine ⟨fun offset ha hle => ?_, fun offset w ha hle hro => ?_, fun w => ?_, fun w => ?_,
    fun offset size w h => ?_⟩
  · cases hr : regAt offset with
    | none =>
      exact ⟨0, s.draws, portRead_reserved ha hle hr c s, fun _ => rfl, fun _ => rfl, fun _ => rfl,
        fun _ => rfl⟩
    | some r =>
      obtain rfl := offset_of_regAt ha hr
      obtain ⟨d, hd, hidle⟩ := observeReg_draws c r s
      obtain ⟨hcmd, hstatus, hcause, hctrl⟩ := observeReg_reserved_bits c s
      refine ⟨(observeReg c r s).1, d, by rw [portRead_reg, hd]; rfl, hidle, ?_⟩
      cases r <;> simp_all [Reg.offset]
  · cases hr : regAt offset with
    | none => exact portWrite_reserved ha hle hr w s
    | some r =>
      obtain rfl := offset_of_regAt ha hr
      cases hb : s.status.busy
      · rw [portWrite_reg hb (by rintro rfl; simp [Reg.offset] at hro), writeReg_readOnly hro]
      · exact portWrite_busy hb ha hle w
  · exact portWrite_congr (r := .status) nofun (writeStatus_and w s).symm
  · exact portWrite_congr (r := .ctrl) nofun (writeCtrl_and w s).symm
  · simp [portWrite, portRead, portRefusal_bad h]

/-- Settles O8: a read shows the register, and while a command runs `STATUS` with that command's `PV`. -/
theorem registerReads : Obligations.RegisterReads := by
  refine ⟨fun s c hb => ?_, fun s t w i k hr hd ht => ?_⟩
  · have shows : ∀ (r : Reg) {v : Word}, readReg r s = v → portRead c r.offset 4 s
        = .next { s with listing := .reg r.offset v :: s.listing } := fun r _ hv => portRead_idle hb c r hv
    obtain ⟨hbusy, hstatus⟩ := s.status.word_bits
    exact ⟨shows .cmd rfl, ⟨_, shows .status rfl, hbusy.trans hb, hstatus⟩,
      shows .cause (by simp only [readReg]; cases s.cause <;> rfl), shows .finfo rfl,
      ⟨_, shows .ctrl rfl, s.ctrl.word_bits⟩, shows .frameSize rfl, shows .frameBase rfl,
      shows .tempBase rfl, shows .maskBase rfl, shows .frozenBase rfl, shows .infoBase rfl,
      shows .stageCount rfl, shows .stage rfl, shows .frameHalf rfl, shows .numBranches rfl,
      shows .frozenIdx rfl, shows .infoIdx rfl⟩
  · have hb : t.status.busy = true := by rw [ht]; rfl
    have shows : ∀ (r : Reg) {v : Word}, readRegBusy { runningCommand w s.accept with pvSetAt := k } r t = v →
        portRead { runningCommand w s.accept with pvSetAt := k } r.offset 4 t
          = .next { t with listing := .reg r.offset v :: t.listing, draws := t.draws + 1 } :=
      fun r _ hv => portRead_busy hb _ r hv
    obtain ⟨hrises, hstays⟩ := runningCommand_pvAfter hd s.accept
    obtain ⟨hbusy, hdone, herr, hpv, hhigh⟩ := Status.word_bits
      { t.status with pv := Running.pv { runningCommand w s.accept with pvSetAt := k } t }
    refine ⟨⟨_, shows .status rfl, hbusy.trans hb, hdone.trans (by rw [ht]; rfl),
      herr.trans (by rw [ht]; exact ((ready_iff s).1 hr).2), fun hp => ?_, fun hp hi => ?_, hhigh⟩,
      shows .cmd rfl, shows .cause rfl, shows .finfo rfl, shows .ctrl rfl, shows .frameSize rfl,
      shows .frameBase rfl, shows .tempBase rfl, shows .maskBase rfl, shows .frozenBase rfl,
      shows .infoBase rfl⟩
    · refine hpv.trans ?_
      simp [Running.pv, ht, hp, hrises hp]
    · refine hpv.trans ?_
      simp [Running.pv, ht, hp, hstays hp hi]

end Sys2Proof.Machine
end

section
namespace Sys2Proof.Machine

/-! ### Two engines that differ outside the windows of a command

The command alone starts on the memory `m`, the command under the host's accesses on `m'`. The two agree on the
addresses `U` the command uses; what follows says that a command keeps it so. -/

/-- s and t are equal but for the internal registers, the counter of draws, the listing and `M`; their
memories agree on `U`, and outside `U` they are m and m'. -/
structure State.Twin (U : Nat → Prop) (m m' : Memory) (s t : State) : Prop where
  regs : t = { s with internal := t.internal, mem := t.mem, draws := t.draws, listing := t.listing }
  used : ∀ a, U a → Memory.read t.mem a = Memory.read s.mem a
  left : ∀ a, ¬ U a → Memory.read s.mem a = Memory.read m a
  right : ∀ a, ¬ U a → Memory.read t.mem a = Memory.read m' a

section
variable {U : Nat → Prop} {m m' : Memory} {s t : State}

theorem State.Twin.raise (h : State.Twin U m m' s t) (c : Cause) (info : Nat) :
    State.Twin U m m' (s.raise c info) (t.raise c info) :=
  ⟨congrArg (State.raise c info) h.regs, h.used, h.left, h.right⟩

theorem State.Twin.complete (h : State.Twin U m m' s t) : State.Twin U m m' s.complete t.complete :=
  ⟨congrArg State.complete h.regs, h.used, h.left, h.right⟩

theorem State.Twin.forgetInternal (h : State.Twin U m m' s t) :
    State.Twin U m m' s.forgetInternal t.forgetInternal :=
  ⟨by rw [State.forgetInternal, h.regs]; rfl, h.used, h.left, h.right⟩

theorem State.Twin.deriveStages (h : State.Twin U m m' s t) :
    State.Twin U m m' s.deriveStages t.deriveStages :=
  ⟨congrArg State.deriveStages h.regs, h.used, h.left, h.right⟩

theorem State.Twin.updateStages (h : State.Twin U m m' s t) :
    State.Twin U m m' s.updateStages t.updateStages :=
  ⟨congrArg State.updateStages h.regs, h.used, h.left, h.right⟩

theorem State.Twin.finishStages (h : State.Twin U m m' s t) :
    State.Twin U m m' s.finishStages t.finishStages :=
  ⟨congrArg State.finishStages h.regs, h.used, h.left, h.right⟩

end

/-- Stores to addresses `W` that the command uses, of the same values on both sides. -/
theorem State.Twin.step {U W : Nat → Prop} {m m' : Memory} {s t s₁ t₁ : State} (h : State.Twin U m m' s t)
    (hregs : t₁ = { s₁ with internal := t₁.internal, mem := t₁.mem, draws := t₁.draws, listing := t₁.listing })
    (hW : ∀ a, W a → U a) (hsame : ∀ a, W a → Memory.read t₁.mem a = Memory.read s₁.mem a)
    (hs : ∀ a, ¬ W a → Memory.read s₁.mem a = Memory.read s.mem a)
    (ht : ∀ a, ¬ W a → Memory.read t₁.mem a = Memory.read t.mem a) : State.Twin U m m' s₁ t₁ where
  regs := hregs
  used a ha := by
    by_cases hw : W a
    · exact hsame a hw
    · rw [ht a hw, hs a hw, h.used a ha]
  left a ha := (hs a fun hw => ha (hW a hw)).trans (h.left a ha)
  right a ha := (ht a fun hw => ha (hW a hw)).trans (h.right a ha)

/-- The same loop of stores on both sides. -/
theorem State.Twin.wrote {U W : Nat → Prop} {m m' : Memory} {r r' r₁ r₁' : Run} {base : Nat}
    {out out' : Nat → Byte} (h : State.Twin U m m' r.st r'.st) (hw : Run.Wrote r r₁ base W out)
    (hw' : Run.Wrote r' r₁' base W out') (hU : ∀ j, W j → U (base + j)) (ho : ∀ j, W j → out' j = out j) :
    State.Twin U m m' r₁.st r₁'.st := by
  refine h.step (W := fun a => ∃ j, W j ∧ a = base + j) ?_ ?_ ?_ ?_ ?_
  · rw [hw'.onlyMem, hw.onlyMem, h.regs]
  · rintro _ ⟨j, hj, rfl⟩
    exact hU j hj
  · rintro _ ⟨j, hj, rfl⟩
    rw [hw.value j hj, hw'.value j hj, ho j hj]
  · exact fun a ha => hw.other a fun j hj he => ha ⟨j, hj, he⟩
  · exact fun a ha => hw'.other a fun j hj he => ha ⟨j, hj, he⟩

/-- Two bodies end alike: both well or both by a fault, as twins. -/
def TwinEnds (U : Nat → Prop) (m m' : Memory) (x y : Except Run Run) : Prop :=
  Ends x (fun r => ∃ r', y = .ok r' ∧ State.Twin U m m' r.st r'.st)
    fun r => ∃ r', y = .error r' ∧ State.Twin U m m' r.st r'.st

theorem TwinEnds.of_ok {U : Nat → Prop} {m m' : Memory} {x y : Except Run Run} {r r' : Run} (hx : x = .ok r)
    (hy : y = .ok r') (h : State.Twin U m m' r.st r'.st) : TwinEnds U m m' x y := by
  rw [hx]
  exact ⟨r', hy, h⟩

/-- One body after another, on both sides. -/
theorem TwinEnds.bind {U : Nat → Prop} {m m' : Memory} {x y : Except Run Run} {f : Run → Except Run Run}
    {P : Run → Prop} (h : TwinEnds U m m' x y) (hP : Ends x P fun _ => True)
    (hf : ∀ r r', P r → State.Twin U m m' r.st r'.st → TwinEnds U m m' (f r) (f r')) :
    TwinEnds U m m' (x.bind f) (y.bind f) := by
  cases x with
  | ok r =>
    obtain ⟨r', rfl, ht⟩ := h
    exact hf r r' hP ht
  | error r =>
    obtain ⟨r', rfl, ht⟩ := h
    exact ⟨r', rfl, ht⟩

/-! ### The stage commands on twins -/

/-- n stages read only the frame. -/
theorem afterStages_congr {n k j : Nat} {u v : Nat → Byte} (hk : k ≤ n) (h : ∀ i, i < 2 ^ n → u i = v i)
    (hj : j < 2 ^ n) : afterStages n u k j = afterStages n v k j := by
  induction k generalizing j with
  | zero => exact h j hj
  | succ k ih =>
    have hspan : 2 ^ k * (2 * 2 ^ (n - 1 - k)) = 2 ^ n := by
      rw [show n - 1 - k = n - k - 1 by omega]
      exact branches_span hk
    exact stageOutput_congr (nb := 2 ^ k) (fun i hi => ih (by omega) (by omega)) (by omega)

/-- A chunk of the micro stage reads only its own sixteen symbols (R171). -/
theorem microOutput_congr {nb j : Nat} {u v : Nat → Byte} (h : ∀ i, i < 16 * nb → u i = v i)
    (hj : j < 16 * nb) : microOutput u j = microOutput v j := by
  unfold microOutput
  congr 3
  funext i
  exact h _ (by omega)

section
variable {U : Nat → Prop} {m m' : Memory} {r r' : Run}

/-- What `TEMP` holds on both sides, where the command uses it. -/
theorem State.Twin.temp_eq (h : State.Twin U m m' r.st r'.st) {n j : Nat}
    (hT : ∀ a, InWindow r.st.tempBase n a → U a) (hj : j < n) : r'.st.temp j = r.st.temp j := by
  have hb : r'.st.tempBase = r.st.tempBase := by rw [h.regs]
  unfold State.temp State.tempAddr
  rw [hb]
  exact h.used _ (hT _ ⟨by omega, by omega⟩)

theorem State.Twin.frame_eq (h : State.Twin U m m' r.st r'.st) {n j : Nat}
    (hF : ∀ a, InWindow r.st.frameBase n a → U a) (hj : j < n) : r'.st.frame j = r.st.frame j := by
  have hb : r'.st.frameBase = r.st.frameBase := by rw [h.regs]
  unfold State.frame State.frameAddr
  rw [hb]
  exact h.used _ (hF _ ⟨by omega, by omega⟩)

theorem State.Twin.frameLength (h : State.Twin U m m' r.st r'.st) : r'.st.frameLength = r.st.frameLength := by
  rw [h.regs]
  rfl

theorem State.Twin.passesChecks {i : Instr} (h : State.Twin U m m' r.st r'.st) (hc : PassesChecks i r.st) :
    PassesChecks i r'.st := by
  rw [h.regs]
  exact hc

theorem State.Twin.stageParams (h : State.Twin U m m' r.st r'.st) (hp : r.st.StageParams) :
    r'.st.StageParams := by
  rw [h.regs]
  exact hp

theorem State.Twin.stageRoom {n : Nat} (h : State.Twin U m m' r.st r'.st) (room : r.StageRoom n) :
    r'.StageRoom n := by
  have hT : r'.st.tempBase = r.st.tempBase := by rw [h.regs]
  have hF : r'.st.frameBase = r.st.frameBase := by rw [h.regs]
  have hM : r'.st.memSize = r.st.memSize := by rw [h.regs]; rfl
  exact ⟨by rw [hT, hM]; exact room.temp, by rw [hF, hM]; exact room.frame, by rw [hT, hF]; exact room.apart⟩

/-- One scalar stage on twins, whatever computes it (R131, R161). -/
theorem StageDone.twin {r₁ r₁' : Run} (h : State.Twin U m m' r.st r'.st)
    (hw : r.StageDone r₁ r.st.frameHalf.toNat r.st.frameLength)
    (hw' : r'.StageDone r₁' r'.st.frameHalf.toNat r'.st.frameLength)
    (hspan : r.st.numBranches.toNat * (2 * r.st.frameHalf.toNat) = r.st.frameLength)
    (hT : ∀ a, InWindow r.st.tempBase r.st.frameLength a → U a)
    (hF : ∀ a, InWindow r.st.frameBase r.st.frameLength a → U a) : State.Twin U m m' r₁.st r₁'.st := by
  have hB : r'.st.frameBase = r.st.frameBase := by rw [h.regs]
  have hH : r'.st.frameHalf = r.st.frameHalf := by rw [h.regs]
  unfold Run.StageDone at hw'
  rw [hB, hH, h.frameLength] at hw'
  refine h.wrote hw hw' (fun j hj => hF _ ⟨by omega, by omega⟩) fun j hj => ?_
  exact stageOutput_congr (fun i hi => h.temp_eq hT (hspan ▸ hi)) (hspan.symm ▸ hj)

theorem doBfs_twin (h : State.Twin U m m' r.st r'.st) (hp : r.st.StageParams) (hc : PassesChecks .bfs r.st)
    (hT : ∀ a, InWindow r.st.tempBase r.st.frameLength a → U a)
    (hF : ∀ a, InWindow r.st.frameBase r.st.frameLength a → U a) :
    TwinEnds U m m' (doBfs r) (doBfs r') := by
  obtain ⟨r₁, hb, hw⟩ := doBfs_wrote hp hc
  obtain ⟨r₁', hb', hw'⟩ := doBfs_wrote (h.stageParams hp) (h.passesChecks hc)
  obtain ⟨hpv, hst⟩ : StagePasses .bfs r.st := hc.stage
  exact TwinEnds.of_ok hb hb' (StageDone.twin h hw hw' (hp.span hpv hst) hT hF)

theorem doMac_twin {aln : Bool} (h : State.Twin U m m' r.st r'.st) (hp : r.st.StageParams)
    (hc : PassesChecks (.mac aln) r.st) (hT : ∀ a, InWindow r.st.tempBase r.st.frameLength a → U a)
    (hF : ∀ a, InWindow r.st.frameBase r.st.frameLength a → U a) :
    TwinEnds U m m' (doMac aln r) (doMac aln r') := by
  obtain ⟨r₁, hb, hw⟩ := doMac_wrote hp hc
  obtain ⟨r₁', hb', hw'⟩ := doMac_wrote (h.stageParams hp) (h.passesChecks hc)
  obtain ⟨hpv, hst⟩ : StagePasses (.mac aln) r.st := hc.stage
  exact TwinEnds.of_ok hb hb' (StageDone.twin h hw hw' (hp.span hpv (by omega)) hT hF)

theorem doCpb_twin (h : State.Twin U m m' r.st r'.st) (room : r.StageRoom r.st.frameLength)
    (hT : ∀ a, InWindow r.st.tempBase r.st.frameLength a → U a)
    (hF : ∀ a, InWindow r.st.frameBase r.st.frameLength a → U a) :
    TwinEnds U m m' (doCpb r) (doCpb r') := by
  have hB : r'.st.tempBase = r.st.tempBase := by rw [h.regs]
  obtain ⟨r₁, hb, hw⟩ := doCpb_ok room
  obtain ⟨r₁', hb', hw'⟩ := doCpb_ok (r := r') (by rw [h.frameLength]; exact h.stageRoom room)
  rw [hB, h.frameLength] at hw'
  exact TwinEnds.of_ok hb hb'
    (h.wrote hw hw' (fun j hj => hT _ ⟨by omega, by omega⟩) fun j hj => h.frame_eq hF hj)

theorem doMic_twin {aln : Bool} (h : State.Twin U m m' r.st r'.st) (hp : r.st.StageParams)
    (hc : PassesChecks (.mic aln) r.st) (hT : ∀ a, InWindow r.st.tempBase r.st.frameLength a → U a)
    (hF : ∀ a, InWindow r.st.frameBase r.st.frameLength a → U a) :
    TwinEnds U m m' (doMic aln r) (doMic aln r') := by
  have hB : r'.st.frameBase = r.st.frameBase := by rw [h.regs]
  obtain ⟨r₁, hb, hw⟩ := doMic_wrote hp hc
  obtain ⟨r₁', hb', hw'⟩ := doMic_wrote (h.stageParams hp) (h.passesChecks hc)
  obtain ⟨hpv, hst⟩ : StagePasses (.mic aln) r.st := hc.stage
  have hspan := hp.span_micro hpv hst
  rw [hB, h.frameLength] at hw'
  refine TwinEnds.of_ok hb hb' (State.Twin.finishStages ?_)
  refine h.wrote hw hw' (fun j hj => hF _ ⟨by omega, by omega⟩) fun j hj => ?_
  exact microOutput_congr (fun i hi => h.temp_eq hT (hspan ▸ hi)) (hspan.symm ▸ hj)

end

end Sys2Proof.Machine
end

section
namespace Sys2Proof.Machine

/-! ### The whole transforms on twins -/

theorem InWindow.exists_offset {base : Word} {n a : Nat} (h : InWindow base n a) :
    ∃ j, j < n ∧ a = base.toNat + j := by
  obtain ⟨h1, h2⟩ := h
  exact ⟨a - base.toNat, by omega, by omega⟩

theorem State.TransformEnd.regs {U : Nat → Prop} {m m' : Memory} {n : Nat} {s t s₁ t₁ : State}
    (h : State.Twin U m m' s t) (hs : State.TransformEnd n s s₁) (ht : State.TransformEnd n t t₁) :
    t₁ = { s₁ with internal := t₁.internal, mem := t₁.mem, draws := t₁.draws, listing := t₁.listing } := by
  rw [ht, hs, h.regs]

/-- What a whole transform leaves in the two windows: `FRAME` after kF stages and `TEMP` after kT, and the
rest of `M` as it was. -/
structure Run.TransformMem (n kT kF : Nat) (r r₁ : Run) : Prop where
  temp : ∀ j, j < 2 ^ n → r₁.st.temp j = afterStages n r.st.temp kT j
  frame : ∀ j, j < 2 ^ n → r₁.st.frame j = afterStages n r.st.temp kF j
  other : ∀ a, ¬ InWindow r.st.tempBase (2 ^ n) a → ¬ InWindow r.st.frameBase (2 ^ n) a →
    Memory.read r₁.st.mem a = Memory.read r.st.mem a

/-- A whole transform on twins leaves twins (R133, R180). -/
theorem Run.TransformMem.twin {U : Nat → Prop} {m m' : Memory} {n kT kF : Nat} {r r' r₁ r₁' : Run}
    (h : State.Twin U m m' r.st r'.st) (hr : State.TransformEnd n r.st r₁.st)
    (hr' : State.TransformEnd n r'.st r₁'.st) (hm : Run.TransformMem n kT kF r r₁)
    (hm' : Run.TransformMem n kT kF r' r₁') (hkT : kT ≤ n) (hkF : kF ≤ n)
    (hT : ∀ a, InWindow r.st.tempBase (2 ^ n) a → U a) (hF : ∀ a, InWindow r.st.frameBase (2 ^ n) a → U a) :
    State.Twin U m m' r₁.st r₁'.st := by
  have bT : r'.st.tempBase = r.st.tempBase := by rw [h.regs]
  have bF : r'.st.frameBase = r.st.frameBase := by rw [h.regs]
  have bT₁ : r₁.st.tempBase = r.st.tempBase := by rw [hr]
  have bF₁ : r₁.st.frameBase = r.st.frameBase := by rw [hr]
  have bT₁' : r₁'.st.tempBase = r.st.tempBase := by rw [hr', bT]
  have bF₁' : r₁'.st.frameBase = r.st.frameBase := by rw [hr', bF]
  have inputs : ∀ i, i < 2 ^ n → r'.st.temp i = r.st.temp i := fun i hi => h.temp_eq hT hi
  refine h.step (State.TransformEnd.regs h hr hr')
    (W := fun a => InWindow r.st.tempBase (2 ^ n) a ∨ InWindow r.st.frameBase (2 ^ n) a)
    (fun a ha => ha.elim (hT a) (hF a)) ?_ ?_ ?_
  · rintro a (ha | ha) <;> obtain ⟨j, hj, rfl⟩ := ha.exists_offset
    · have e := (hm'.temp j hj).trans ((afterStages_congr hkT inputs hj).trans (hm.temp j hj).symm)
      unfold State.temp State.tempAddr at e
      rwa [bT₁', bT₁] at e
    · have e := (hm'.frame j hj).trans ((afterStages_congr hkF inputs hj).trans (hm.frame j hj).symm)
      unfold State.frame State.frameAddr at e
      rwa [bF₁', bF₁] at e
  · intro a ha
    obtain ⟨h1, h2⟩ := not_or.1 ha
    exact hm.other a h1 h2
  · intro a ha
    obtain ⟨h1, h2⟩ := not_or.1 ha
    exact hm'.other a (by rwa [bT]) (by rwa [bF])

section
variable {U : Nat → Prop} {m m' : Memory} {r r' : Run}

/-- `do_XFS()` on twins; a frame of one symbol leaves `FRAME` alone (R133, R134). -/
theorem doXfs_twin (h : State.Twin U m m' r.st r'.st) (hl : r.st.SizeLegal)
    (room : r.StageRoom r.st.frameLength) (hT : ∀ a, InWindow r.st.tempBase r.st.frameLength a → U a)
    (hF : r.st.frameLength ≠ 1 → ∀ a, InWindow r.st.frameBase r.st.frameLength a → U a) :
    TwinEnds U m m' (doXfs r) (doXfs r') := by
  obtain ⟨n, hn, hN⟩ := hl
  rw [hN] at room hT hF
  obtain ⟨r₁, hb, hst, hv, h0, ho, -⟩ := xfs_run hn hN room
  obtain ⟨r₁', hb', hst', hv', h0', ho', -⟩ := xfs_run hn (h.frameLength.trans hN) (h.stageRoom room)
  refine TwinEnds.of_ok hb hb' ?_
  rcases Nat.eq_zero_or_pos n with hz | hpos
  · exact h.step (State.TransformEnd.regs h hst hst') (W := fun _ => False) nofun nofun
      (fun a _ => h0 hz a) fun a _ => h0' hz a
  · have hone : 2 ^ n ≠ 1 := by
      rw [ne_eq, Nat.pow_eq_one]
      omega
    refine Run.TransformMem.twin (kT := n) (kF := n) h hst hst' ⟨fun j hj => ?_, fun j hj => ?_, ho⟩
      ⟨fun j hj => ?_, fun j hj => ?_, ho'⟩ le_rfl le_rfl hT (hF hone)
    · exact (hv hpos j hj).2.trans (hv hpos j hj).1
    · exact (hv hpos j hj).1
    · exact (hv' hpos j hj).2.trans (hv' hpos j hj).1
    · exact (hv' hpos j hj).1

/-- `do_XFV(aln)` on twins (R180). -/
theorem doXfv_twin {aln : Bool} (h : State.Twin U m m' r.st r'.st) (hl : r.st.SizeLegal)
    (h16 : 16 ≤ r.st.frameLength) (room : r.StageRoom r.st.frameLength)
    (hT : ∀ a, InWindow r.st.tempBase r.st.frameLength a → U a)
    (hF : ∀ a, InWindow r.st.frameBase r.st.frameLength a → U a) :
    TwinEnds U m m' (doXfv aln r) (doXfv aln r') := by
  obtain ⟨n, hn, hN⟩ := hl
  rw [hN] at h16 room hT hF
  have h4 := four_le_of_sixteen_le h16
  obtain ⟨r₁, hb, hst, hv, ho, -⟩ := xfv_run (aln := aln) h4 hn hN room
  obtain ⟨r₁', hb', hst', hv', ho', -⟩ :=
    xfv_run (aln := aln) h4 hn (h.frameLength.trans hN) (h.stageRoom room)
  exact TwinEnds.of_ok hb hb' <| Run.TransformMem.twin (kT := n - 4) (kF := n) h hst hst'
    ⟨fun j hj => (hv j hj).2, fun j hj => (hv j hj).1, ho⟩
    ⟨fun j hj => (hv' j hj).2, fun j hj => (hv' j hj).1, ho'⟩ (Nat.sub_le _ _) le_rfl hT hF

end

/-! ### The interleaver on twins -/

/-- The frozen values counted up to a later position: at least those before, at most one more for each
position between (R126). -/
theorem frozenBefore_between (s : State) {i j : Nat} (h : i ≤ j) :
    s.frozenBefore i ≤ s.frozenBefore j ∧ s.frozenBefore j ≤ s.frozenBefore i + (j - i) := by
  induction j, h using Nat.le_induction with
  | base => omega
  | succ j hij ih =>
    rw [frozenBefore_succ]
    split <;> omega

/-- The bytes an interleaving command uses but `TEMP`: `MASK`, `FROZEN` and `INFO` (R65, R61). -/
structure Interleaves (U : Nat → Prop) (s : State) : Prop where
  temp : ∀ a, InWindow s.tempBase s.frameLength a → U a
  mask : ∀ a, InWindow s.maskBase s.frameLength a → U a
  frozen : ∀ a, InWindow s.frozenBase s.frozenWindow a → U a
  info : ∀ a, InWindow s.infoBase s.infoWindow a → U a

theorem maskApart_iff (s : State) :
    s.maskApart = true ↔ Apart s.tempBase s.frameLength s.maskBase s.frameLength := by
  simp [State.maskApart, Apart, or_comm]

/-- The value of each position lies in the window of `FROZEN` or `INFO` (R61, R121, R126). -/
theorem Interleaves.source {U : Nat → Prop} {s : State} {k f : Nat} {m : Nat → Byte} (hU : Interleaves U s)
    (hk : k < s.frameLength) (hw : s.walk k = some (m, f)) : U (s.sourceAddr m f k) := by
  have hfk := (walk_bounds hw).1
  by_cases hap : s.maskApart = true
  · have hMA := (maskApart_iff s).1 hap
    have hf := walk_mask_apart hk.le hMA hw
    have hm := (walk_source hk hMA hw hf).1
    have hsucc := frozenBefore_succ s k
    obtain ⟨hlo, hhi⟩ := frozenBefore_between s (show k + 1 ≤ s.frameLength from hk)
    unfold State.sourceAddr
    rw [hm]
    split
    · rename_i hz
      rw [if_pos hz] at hsucc
      refine hU.frozen _ ⟨Nat.le_add_right _ _, Nat.add_lt_add_left ?_ _⟩
      rw [State.frozenWindow, if_pos hap, State.frozenCount]
      omega
    · rename_i hz
      rw [if_neg hz] at hsucc
      refine hU.info _ ⟨Nat.le_add_right _ _, Nat.add_lt_add_left ?_ _⟩
      rw [State.infoWindow, if_pos hap, State.infoCount, State.frozenCount]
      omega
  · unfold State.sourceAddr
    split
    · refine hU.frozen _ ⟨Nat.le_add_right _ _, Nat.add_lt_add_left ?_ _⟩
      rw [State.frozenWindow, if_neg hap]
      omega
    · refine hU.info _ ⟨Nat.le_add_right _ _, Nat.add_lt_add_left ?_ _⟩
      rw [State.infoWindow, if_neg hap]
      omega

section
variable {U : Nat → Prop} {m m' : Memory} {s t : State}

theorem State.Twin.sourceAddr {n n' : Nat → Byte} {f k : Nat} (h : State.Twin U m m' s t)
    (hm : n' (s.maskAddr k) = n (s.maskAddr k)) : t.sourceAddr n' f k = s.sourceAddr n f k := by
  rw [h.regs]
  exact if_congr (by rw [← hm]; rfl) rfl rfl

/-- The walk of R121 on twins: the same frozen count, and the same contents where the command looks. -/
theorem State.Twin.walk (h : State.Twin U m m' s t) (hU : Interleaves U s) {k f : Nat} {n : Nat → Byte}
    (hk : k ≤ s.frameLength) (hw : s.walk k = some (n, f)) :
    ∃ n', t.walk k = some (n', f) ∧ ∀ a, U a → n' a = n a := by
  induction k generalizing n f with
  | zero =>
    cases hw
    exact ⟨_, rfl, h.used⟩
  | succ k ih =>
    obtain ⟨⟨n₀, f₀⟩, hw₀⟩ := walk_earlier hw (Nat.le_succ k)
    obtain ⟨n₀', hw₀', hn₀⟩ := ih (by omega) hw₀
    have hmask : n₀' (s.maskAddr k) = n₀ (s.maskAddr k) :=
      hn₀ _ (hU.mask _ ⟨Nat.le_add_right _ _, Nat.add_lt_add_left hk _⟩)
    have hsrc := h.sourceAddr (f := f₀) hmask
    have hsize : t.memSize = s.memSize := by rw [h.regs]; rfl
    have hmaskAddr : t.maskAddr k = s.maskAddr k := by rw [h.regs]; rfl
    have htempAddr : t.tempAddr k = s.tempAddr k := by rw [h.regs]; rfl
    have hstep := walk_succ hw₀
    rw [hw] at hstep
    split at hstep
    · rename_i hin
      simp only [Option.some.injEq, Prod.mk.injEq] at hstep
      obtain ⟨rfl, rfl⟩ := hstep
      refine ⟨_, by rw [walk_succ hw₀', hsrc, hsize, if_pos hin, hmaskAddr, hmask], fun a ha => ?_⟩
      simp only [htempAddr, hn₀ a ha, hn₀ _ (hU.source hk hw₀)]
    · cases hstep

/-- Runs that got equally far in the walks of twins are twins. -/
theorem Run.Walked.twin {r r' : Run} {k f : Nat} {n n' : Nat → Byte} (h : State.Twin U m m' s t)
    (hU : Interleaves U s) (hk : k ≤ s.frameLength) (hw : s.walk k = some (n, f))
    (hw' : t.walk k = some (n', f)) (hn : ∀ a, U a → n' a = n a) (hr : Run.Walked s k f n r)
    (hr' : Run.Walked t k f n' r') : State.Twin U m m' r.st r'.st := by
  have hb : t.tempBase = s.tempBase := by rw [h.regs]
  have hT : ∀ a, InWindow s.tempBase k a → U a := fun a ha => hU.temp a ⟨ha.1, by have := ha.2; omega⟩
  refine h.step (W := InWindow s.tempBase k) ?_ hT ?_ ?_ ?_
  · rw [hr'.regs, hr.regs, h.regs]
  · intro a ha
    rw [hr'.mem, hr.mem, hn a (hT a ha)]
  · intro a ha
    rw [hr.mem, (walk_bounds hw).2 a ha]
  · intro a ha
    rw [hr'.mem, (walk_bounds hw').2 a (by rwa [hb])]

/-- `do_ILV()` on twins: both end, or both stop at the same value (R121, R123). -/
theorem doIlv_twin {r r' : Run} (h : State.Twin U m m' r.st r'.st) (hU : Interleaves U r.st)
    (hl : r.log = []) (hl' : r'.log = []) (hT : r.st.Fits r.st.tempBase) (hM : r.st.Fits r.st.maskBase) :
    TwinEnds U m m' (doIlv r) (doIlv r') := by
  have hT' : r'.st.Fits r'.st.tempBase := by rw [h.regs]; exact hT
  have hM' : r'.st.Fits r'.st.maskBase := by rw [h.regs]; exact hM
  refine (doIlv_ends hl hT hM).mono ?_ ?_
  · rintro r₁ ⟨f, n, hw, hr⟩
    obtain ⟨n', hw', hn⟩ := h.walk hU le_rfl hw
    obtain ⟨r₁', hb', hr'⟩ := doIlv_ok hl' hT' hM' (by rw [h.frameLength]; exact hw')
    rw [h.frameLength] at hr'
    exact ⟨r₁', hb', hr.twin h hU le_rfl hw hw' hn hr'⟩
  · rintro _ ⟨k, f, n, r₀, hk, hw, hout, hr, rfl⟩
    obtain ⟨n', hw', hn⟩ := h.walk hU hk.le hw
    have hsrc : r'.st.sourceAddr n' f k = r.st.sourceAddr n f k :=
      h.sourceAddr (hn _ (hU.mask _ ⟨Nat.le_add_right _ _, Nat.add_lt_add_left hk _⟩))
    have hsize : r'.st.memSize = r.st.memSize := by rw [h.regs]; rfl
    obtain ⟨r₀', hb', hr'⟩ := doIlv_broken hl' (by rw [h.frameLength]; exact hk) hT' hM' hw'
      (by rw [hsrc, hsize]; exact hout)
    refine ⟨_, hb', ?_⟩
    rw [hsrc]
    exact (hr.twin h hU hk.le hw hw' hn hr').raise _ _

end

/-! ### Every command on twins -/

theorem Used.temp {i : Instr} {s : State} (h : usesTemp i = true) :
    ∀ a, InWindow s.tempBase s.frameLength a → Used i s a := fun _ ha => .inl ⟨h, ha⟩

theorem Used.frame {i : Instr} {s : State} (h : usesFrame i = true)
    (h1 : ¬ (s.frameLength = 1 ∧ (i = .xfs ∨ i = .ens))) :
    ∀ a, InWindow s.frameBase s.frameLength a → Used i s a := fun _ ha => .inr (.inl ⟨h, h1, ha⟩)

theorem Used.interleaves {i : Instr} {s : State} (h : usesMask i = true) : Interleaves (Used i s) s where
  temp := Used.temp (usesTemp_of_usesMask h)
  mask _ ha := .inr (.inr ⟨h, .inl ha⟩)
  frozen _ ha := .inr (.inr ⟨h, .inr (.inl ha)⟩)
  info _ ha := .inr (.inr ⟨h, .inr (.inr ha)⟩)

/-- Every body whose checks passed ends alike on twins that agree where the command looks (R65). -/
theorem bodyOf_twin {m m' : Memory} {i : Instr} {r r' : Run}
    (h : State.Twin (Used i r.st) m m' r.st r'.st) (hl : r.log = []) (hl' : r'.log = [])
    (hp : r.st.StageParams) (hc : PassesChecks i r.st) :
    TwinEnds (Used i r.st) m m' (bodyOf i r) (bodyOf i r') := by
  have hilv : usesMask i = true → TwinEnds (Used i r.st) m m' (doIlv r) (doIlv r') := fun hm =>
    doIlv_twin h (Used.interleaves hm) hl hl' (hc.fitsMask hm).1 (hc.fitsMask hm).2
  have operands : Ends (doIlv r) (fun r₁ => SameOperands r.st r₁.st) fun _ => True :=
    (doIlv_lawful r).mono (fun _ hw => hw.operands) fun _ _ => trivial
  cases i with
  | lg2 => exact TwinEnds.of_ok rfl rfl h.deriveStages
  | ilv => exact hilv rfl
  | bfs => exact doBfs_twin h hp hc (Used.temp rfl) (Used.frame rfl (by simp))
  | cpb => exact doCpb_twin h (hc.room rfl rfl) (Used.temp rfl) (Used.frame rfl (by simp))
  | upd => exact TwinEnds.of_ok rfl rfl h.updateStages
  | mac aln => exact doMac_twin h hp hc (Used.temp rfl) (Used.frame rfl (by simp))
  | mic aln => exact doMic_twin h hp hc (Used.temp rfl) (Used.frame rfl (by simp))
  | xfs =>
    exact doXfs_twin h (hc.sizeLegal nofun) (hc.room rfl rfl) (Used.temp rfl) fun h1 =>
      Used.frame rfl (by simp [h1])
  | xfv aln =>
    exact doXfv_twin h (hc.sizeLegal nofun) (hc.minimum rfl) (hc.room rfl rfl) (Used.temp rfl)
      (Used.frame rfl (by simp))
  | ens =>
    refine (hilv rfl).bind operands fun r₁ r₁' ho ht => ?_
    have hN := ho.frameLength
    refine doXfs_twin ht (ho.sizeLegal (hc.sizeLegal nofun)) (ho.room (hc.room rfl rfl)) ?_ ?_
    · rw [ho.tempBase, hN]
      exact Used.temp rfl
    · rw [ho.frameBase, hN]
      exact fun h1 => Used.frame rfl (by simp [h1])
  | env aln =>
    refine (hilv rfl).bind operands fun r₁ r₁' ho ht => ?_
    have hN := ho.frameLength
    refine doXfv_twin ht (ho.sizeLegal (hc.sizeLegal nofun)) (hN ▸ hc.minimum rfl)
      (ho.room (hc.room rfl rfl)) ?_ ?_
    · rw [ho.tempBase, hN]
      exact Used.temp rfl
    · rw [ho.frameBase, hN]
      exact Used.frame rfl (by simp)

/-- A command run on twins leaves twins, whether a check fails, a value is outside `M` or it completes. -/
theorem exec_twin {m m' : Memory} {i : Instr} {s t : State} (h : State.Twin (Used i s) m m' s.accept t.accept)
    (hp : s.StageParams) :
    ∃ u v, exec i s = .next u ∧ exec i t = .next v ∧ State.Twin (Used i s) m m' u v := by
  refine ⟨_, _, exec_eq i s, exec_eq i t, ?_⟩
  have hcheck : checkPhase (checksOf i) t.accept = checkPhase (checksOf i) s.accept := by
    rw [h.regs]
    rfl
  unfold runCommand
  rw [hcheck]
  cases hc : checkPhase (checksOf i) s.accept with
  | some f => exact h.raise f.1 f.2
  | none =>
    have hb : TwinEnds (Used i s) m m' (bodyOf i ⟨s.accept, []⟩) (bodyOf i ⟨t.accept, []⟩) :=
      bodyOf_twin h rfl rfl hp ((checkPhase_passes i s.accept).1 hc)
    cases hx : bodyOf i ⟨s.accept, []⟩ with
    | ok r =>
      rw [hx] at hb
      obtain ⟨r', hy, ht⟩ := hb
      rw [hy]
      exact ht.complete.forgetInternal
    | error r =>
      rw [hx] at hb
      obtain ⟨r', hy, ht⟩ := hb
      rw [hy]
      exact ht.forgetInternal

/-- Twins show the host the same registers. -/
theorem State.Twin.sameRegisters {U : Nat → Prop} {m m' : Memory} {s t : State} (h : State.Twin U m m' s t) :
    SameRegisters s t := by
  intro r
  rw [h.regs]
  cases r <;> rfl

/-! ### The host's accesses while the command runs -/

theorem hostWrites_cons (x : HostAccess) (l : List HostAccess) (m : Memory) :
    hostWrites (x :: l) m = hostWrites l (hostWrites [x] m) := by cases x <;> rfl

/-- Permitted accesses all complete, and change `M` by the host's own writes only (R75, R244). -/
theorem hostAccesses_permitted {i : Instr} {s : State} {c : Running} {during : List HostAccess} {m : Memory}
    {d : Nat} {l : List Shown} {st : Status} (hb : st.busy = true) (hc : c.use = buffersOf i s.frameLength)
    (hm : ∀ a, Used i s a → Memory.read m a = Memory.read s.mem a) (hx : ∀ x ∈ during, Permitted i s x) :
    ∃ d' l', hostAccesses c during { s with status := st, mem := m, draws := d, listing := l }
      = .next { s with status := st, mem := hostWrites during m, draws := d', listing := l' } := by
  induction during generalizing c m d l with
  | nil => exact ⟨d, l, rfl⟩
  | cons x rest ih =>
    have hx₀ := hx x List.mem_cons_self
    obtain ⟨d₁, l₁, h₁⟩ := hostAccess_permitted (d := d) (l := l) hb hc hm hx₀
    have hm₁ : ∀ a, Used i s a → Memory.read (hostWrites [x] m) a = Memory.read s.mem a := fun a ha =>
      (permitted_keeps_used hx₀ ha m).trans (hm a ha)
    obtain ⟨d₂, l₂, h₂⟩ := ih (c := c.later) hc hm₁ (d := d₁) (l := l₁)
      fun y hy => hx y (List.mem_cons_of_mem _ hy)
    refine ⟨d₂, l₂, ?_⟩
    rw [hostAccesses, h₁, hostWrites_cons x rest m]
    exact h₂

/-- The host writes no byte the command uses (R75). -/
theorem not_used_of_hostWrote {i : Instr} {s : State} {during : List HostAccess} {a : Nat}
    (hx : ∀ x ∈ during, Permitted i s x) (ha : HostWrote during a) : ¬ Used i s a := by
  obtain ⟨addr, bytes, hmem, hlo, hhi⟩ := ha
  have := (hx _ hmem).2 (a - addr) (by omega)
  rwa [show addr + (a - addr) = a by omega] at this

/-- Settles O17: the host's accesses leave a twin of the accepted state, and the command keeps twins. -/
theorem commandUnderHostAccesses : Obligations.CommandUnderHostAccesses := by
  intro s w i during hr hp hd hx
  obtain ⟨d, l, hh⟩ := hostAccesses_permitted (st := s.accept.status) (m := s.mem) (d := s.draws)
    (l := s.listing) rfl (runningCommand_use hd s.accept) (fun _ _ => rfl) hx
  have kept : ∀ a, ¬ HostWrote during a → Memory.read (hostWrites during s.mem) a = Memory.read s.mem a :=
    fun a ha => read_hostWrites ha s.mem
  have twin : State.Twin (Used i s) s.mem (hostWrites during s.mem) s.accept
      ({ s with
        status := s.accept.status, mem := hostWrites during s.mem, draws := d, listing := l } : State).accept :=
    ⟨rfl, fun a ha => kept a fun hw => not_used_of_hostWrote hx hw ha, fun _ _ => rfl, fun _ _ => rfl⟩
  obtain ⟨u, t, hu, ht, huv⟩ := exec_twin twin hp
  refine ⟨t, u, ?_, hu, huv.sameRegisters, by rw [huv.regs], by rw [huv.regs],
    fun a => ⟨fun ha => ?_, fun ha => ?_⟩⟩
  · unfold commandDuring
    rw [if_pos hr]
    refine Eq.trans (congrArg (fun o => andThen o _) hh) ?_
    exact (acceptWord_legal hd _).trans ht
  · exact huv.right a (not_used_of_hostWrote hx ha)
  · by_cases hU : Used i s a
    · exact huv.used a hU
    · rw [huv.right a hU, huv.left a hU, kept a ha]

end Sys2Proof.Machine
end

section
/-! SUPPORT. The proofs of the memory family: the flag `ALN` on aligned bases, which bytes a command may write,
and what the host's accesses to `M` do, idle and while a command runs. -/

namespace Sys2Proof.Machine

/-! ### The flag `ALN` on aligned bases (R68) -/

/-- The two loads differ in their precondition only (R141). -/
theorem vload_aligned_eq : Run.vload true = Run.vload false := rfl

/-- The two stores differ in their precondition only (R142). -/
theorem vstore_aligned_eq : Run.vstore true = Run.vstore false := rfl

theorem doMac_aligned_eq : doMac true = doMac false := by
  have chunk : macroChunk true = macroChunk false := by
    funext fh tp fp r
    simp only [macroChunk, vload_aligned_eq, vstore_aligned_eq]
  have branch : macroBranch true = macroBranch false := by
    funext fh g r
    simp only [macroBranch, chunk]
  funext r
  simp only [doMac, branch]

theorem doMic_aligned_eq : doMic true = doMic false := by
  have chunk : microChunk true = microChunk false := by
    funext g r
    simp only [microChunk, vload_aligned_eq, vstore_aligned_eq]
  funext r
  simp only [doMic, chunk]

theorem doXfv_aligned_eq : doXfv true = doXfv false := by
  have round : macroRound true = macroRound false := by
    funext r
    simp only [macroRound, doMac_aligned_eq]
  funext r
  simp only [doXfv, round, doMic_aligned_eq]

theorem doEnv_aligned_eq : doEnv true = doEnv false := by
  funext r
  simp only [doEnv, doXfv_aligned_eq]

/-- On aligned bases the check of R208 never fails, so a row without it reports the same. -/
theorem checkPhase_of_aligned {s : State} (hT : s.tempBase.toNat % 16 = 0)
    (hF : s.frameBase.toNat % 16 = 0) (c : Checks) :
    checkPhase { c with aligned := false } s = checkPhase c s := by
  have dropped : ∀ {base : Word}, base.toNat % 16 = 0 →
      onlyIf c.aligned (checkAligned base) = onlyIf false (checkAligned base) := fun hb => by
    rw [(checkAligned_none _).2 hb]
    cases c.aligned <;> rfl
  simp only [checkPhase, dropped hT, dropped hF]

/-- Two commands with the same body, whose rows of R212 differ by the alignment check only, have the same
outcome on aligned bases. -/
theorem exec_eq_of_aligned (i j : Instr) (hbody : bodyOf i = bodyOf j)
    (hrow : checksOf j = { checksOf i with aligned := false }) {s : State}
    (hT : s.tempBase.toNat % 16 = 0) (hF : s.frameBase.toNat % 16 = 0) : exec i s = exec j s := by
  have hcheck : checkPhase (checksOf j) s.accept = checkPhase (checksOf i) s.accept := by
    rw [hrow]
    exact checkPhase_of_aligned (s := s.accept) hT hF _
  rw [exec_eq, exec_eq]
  unfold runCommand
  rw [hcheck, hbody]

/-- Settles O39: each pair has one body, and the alignment check passes. -/
theorem alignedEqualsUnaligned : Obligations.AlignedEqualsUnaligned := fun _ hT hF =>
  ⟨exec_eq_of_aligned (.mac true) (.mac false) doMac_aligned_eq rfl hT hF,
    exec_eq_of_aligned (.mic true) (.mic false) doMic_aligned_eq rfl hT hF,
    exec_eq_of_aligned (.xfv true) (.xfv false) doXfv_aligned_eq rfl hT hF,
    exec_eq_of_aligned (.env true) (.env false) doEnv_aligned_eq rfl hT hF⟩

/-! ### The bytes a command may write (R62, R65) -/

/-- The addresses R65 lets a command write. -/
def Writable (i : Instr) (s : State) (a : Nat) : Prop :=
  (writesTemp i = true ∧ InWindow s.tempBase s.frameLength a)
    ∨ (writesFrame i = true ∧ InWindow s.frameBase s.frameLength a)

theorem Writable.temp {i : Instr} {s : State} (h : writesTemp i = true) :
    ∀ a, InWindow s.tempBase s.frameLength a → Writable i s a := fun _ ha => .inl ⟨h, ha⟩

theorem Writable.frame {i : Instr} {s : State} (h : writesFrame i = true) :
    ∀ a, InWindow s.frameBase s.frameLength a → Writable i s a := fun _ ha => .inr ⟨h, ha⟩

/-- From s to t only bytes at the addresses `W` may have changed. -/
def State.SameOutside (W : Nat → Prop) (s t : State) : Prop :=
  ∀ a, ¬ W a → Memory.read t.mem a = Memory.read s.mem a

theorem State.SameOutside.trans {W : Nat → Prop} {s t u : State} (h : s.SameOutside W t)
    (k : t.SameOutside W u) : s.SameOutside W u := fun a ha => (k a ha).trans (h a ha)

theorem State.SameOutside.mono {W V : Nat → Prop} {s t : State} (h : s.SameOutside W t)
    (hWV : ∀ a, W a → V a) : s.SameOutside V t := fun a ha => h a fun hw => ha (hWV a hw)

/-- A loop of stores to the offsets below n stays in the window of n bytes. -/
theorem Run.Wrote.sameOutside {r r' : Run} {base : Word} {n : Nat} {out : Nat → Byte}
    (h : Run.Wrote r r' base.toNat (fun j => j < n) out) : r.st.SameOutside (InWindow base n) r'.st :=
  fun a ha => h.other a fun j hj he => ha ⟨by omega, by omega⟩

/-- The walk of the interleaver stays in `TEMP` (R121). -/
theorem Run.Walked.sameOutside {s : State} {k f : Nat} {m : Nat → Byte} {r : Run}
    (hr : Run.Walked s k f m r) (hw : s.walk k = some (m, f)) (hk : k ≤ s.frameLength) :
    s.SameOutside (InWindow s.tempBase s.frameLength) r.st := fun a ha => by
  rw [hr.mem, (walk_bounds hw).2 a fun h => ha ⟨h.1, by have := h.2; omega⟩]

theorem doIlv_sameOutside {r : Run} (hl : r.log = []) (hT : r.st.Fits r.st.tempBase)
    (hM : r.st.Fits r.st.maskBase) :
    Ends (doIlv r)
      (fun r' => r.st.SameOutside (InWindow r.st.tempBase r.st.frameLength) r'.st
        ∧ SameOperands r.st r'.st)
      fun r' => r.st.SameOutside (InWindow r.st.tempBase r.st.frameLength) r'.st := by
  refine (doIlv_ends hl hT hM).mono ?_ ?_
  · rintro r' ⟨f, m, hw, hr⟩
    refine ⟨hr.sameOutside hw le_rfl, ?_⟩
    rw [hr.regs]
    exact SameOperands.refl _
  · rintro _ ⟨k, f, m, r₀, hk, hw, -, hr, rfl⟩
    exact hr.sameOutside hw hk.le

/-- The two windows a whole transform works in. -/
abbrev State.InBoth (s : State) (a : Nat) : Prop :=
  InWindow s.tempBase s.frameLength a ∨ InWindow s.frameBase s.frameLength a

theorem doXfs_sameOutside {r : Run} (hl : r.st.SizeLegal) (room : r.StageRoom r.st.frameLength) :
    ∃ r', doXfs r = .ok r' ∧ r.st.SameOutside r.st.InBoth r'.st := by
  obtain ⟨n, hn, hN⟩ := hl
  obtain ⟨r', hb, -, -, -, ho, -⟩ := xfs_run hn hN (hN ▸ room)
  rw [← hN] at ho
  exact ⟨r', hb, fun a ha => ho a (not_or.1 ha).1 (not_or.1 ha).2⟩

theorem doXfv_sameOutside {r : Run} {aln : Bool} (hl : r.st.SizeLegal) (h16 : 16 ≤ r.st.frameLength)
    (room : r.StageRoom r.st.frameLength) :
    ∃ r', doXfv aln r = .ok r' ∧ r.st.SameOutside r.st.InBoth r'.st := by
  obtain ⟨n, hn, hN⟩ := hl
  obtain ⟨r', hb, -, -, ho, -⟩ :=
    xfv_run (aln := aln) (four_le_of_sixteen_le (hN ▸ h16)) hn hN (hN ▸ room)
  rw [← hN] at ho
  exact ⟨r', hb, fun a ha => ho a (not_or.1 ha).1 (not_or.1 ha).2⟩

/-- A body that ends well and changes bytes at W only, as a law of both of its ends. -/
theorem Ends.of_sameOutside {W V : Nat → Prop} {s : State} {x : Except Run Run}
    (h : ∃ r', x = .ok r' ∧ s.SameOutside W r'.st) (hWV : ∀ a, W a → V a) :
    Ends x (fun r' => s.SameOutside V r'.st) fun r' => s.SameOutside V r'.st := by
  obtain ⟨r', rfl, hr⟩ := h
  exact hr.mono hWV

/-- Every body whose checks passed writes only where R65 lets it, whether it goes on or breaks. -/
theorem bodyOf_sameOutside {i : Instr} {r : Run} (hl : r.log = []) (hp : r.st.StageParams)
    (hc : PassesChecks i r.st) :
    Ends (bodyOf i r) (fun r' => r.st.SameOutside (Writable i r.st) r'.st)
      fun r' => r.st.SameOutside (Writable i r.st) r'.st := by
  have hilv : usesMask i = true → writesTemp i = true →
      Ends (doIlv r)
        (fun r' => r.st.SameOutside (Writable i r.st) r'.st ∧ SameOperands r.st r'.st)
        fun r' => r.st.SameOutside (Writable i r.st) r'.st := fun hm hw =>
    (doIlv_sameOutside hl (hc.fitsMask hm).1 (hc.fitsMask hm).2).mono
      (fun _ h => ⟨h.1.mono (Writable.temp hw), h.2⟩) fun _ h => h.mono (Writable.temp hw)
  have both : ∀ {s : State}, SameOperands r.st s → writesTemp i = true → writesFrame i = true →
      ∀ a, s.InBoth a → Writable i r.st a := fun ho hT hF a ha => by
    rw [State.InBoth, ho.tempBase, ho.frameBase, ho.frameLength] at ha
    exact ha.elim (Writable.temp hT a) (Writable.frame hF a)
  cases i with
  | lg2 => exact fun _ _ => rfl
  | ilv => exact (hilv rfl rfl).mono (fun _ h => h.1) fun _ h => h
  | bfs =>
    obtain ⟨r', hb, hw⟩ := doBfs_wrote hp hc
    exact Ends.of_sameOutside ⟨r', hb, hw.sameOutside⟩ (Writable.frame rfl)
  | cpb =>
    obtain ⟨r', hb, hw⟩ := doCpb_ok (hc.room rfl rfl)
    exact Ends.of_sameOutside ⟨r', hb, hw.sameOutside⟩ (Writable.temp rfl)
  | upd => exact fun _ _ => rfl
  | mac aln =>
    obtain ⟨r', hb, hw⟩ := doMac_wrote hp hc
    exact Ends.of_sameOutside ⟨r', hb, hw.sameOutside⟩ (Writable.frame rfl)
  | mic aln =>
    obtain ⟨r', hb, hw⟩ := doMic_wrote hp hc
    exact Ends.of_sameOutside ⟨_, hb, hw.sameOutside⟩ (Writable.frame rfl)
  | xfs =>
    exact Ends.of_sameOutside (doXfs_sameOutside (hc.sizeLegal nofun) (hc.room rfl rfl))
      (both (SameOperands.refl _) rfl rfl)
  | xfv aln =>
    exact Ends.of_sameOutside
      (doXfv_sameOutside (hc.sizeLegal nofun) (hc.minimum rfl) (hc.room rfl rfl))
      (both (SameOperands.refl _) rfl rfl)
  | ens =>
    refine Ends.bind (hilv rfl rfl) fun r₁ ⟨h₁, ho⟩ => ?_
    have h₂ := doXfs_sameOutside (ho.sizeLegal (hc.sizeLegal nofun)) (ho.room (hc.room rfl rfl))
    exact (Ends.of_sameOutside h₂ (both ho rfl rfl)).mono (fun _ h => h₁.trans h) fun _ h => h₁.trans h
  | env aln =>
    refine Ends.bind (hilv rfl rfl) fun r₁ ⟨h₁, ho⟩ => ?_
    have h₂ := doXfv_sameOutside (aln := aln) (ho.sizeLegal (hc.sizeLegal nofun))
      (ho.frameLength ▸ hc.minimum rfl) (ho.room (hc.room rfl rfl))
    exact (Ends.of_sameOutside h₂ (both ho rfl rfl)).mono (fun _ h => h₁.trans h) fun _ h => h₁.trans h

/-- Settles O53: a failing check writes nothing, and a body only where R65 lets it, a fault included. -/
theorem writesStayInWindows : Obligations.WritesStayInWindows := by
  intro i s t _ hp ht a hT hF
  have outside : ¬ Writable i s a := fun h => h.elim (fun ⟨hw, ha⟩ => hT hw ha) fun ⟨hw, ha⟩ => hF hw ha
  rw [exec_eq] at ht
  cases ht
  have body : checkPhase (checksOf i) s.accept = none → _ := fun hc =>
    bodyOf_sameOutside (r := ⟨s.accept, []⟩) rfl hp ((checkPhase_passes i s.accept).1 hc)
  rcases runCommand_st (checksOf i) (bodyOf i) s with
    ⟨f, -, ht⟩ | ⟨hc, r, hb, ht⟩ | ⟨hc, r, hb, ht⟩ <;> rw [ht]
  · rfl
  all_goals
    have hr := body hc
    rw [hb] at hr
    exact hr a outside

/-! ### The host's accesses to `M` (R60, R75, R97) -/

section
variable {s : State} {c : Running} {addr : Nat} {bytes : List Byte}

theorem hostMemWrite_outside (h : s.memSize < addr + bytes.length) :
    hostMemWrite c addr bytes s = .fault (.hostOutsideMemory addr) := if_pos h

theorem hostMemRead_outside (h : s.memSize ≤ addr) :
    hostMemRead addr s = .fault (.hostOutsideMemory addr) := if_pos h

/-- A write inside `M` that touches no window of a running command lands. -/
theorem hostMemWrite_lands (hin : addr + bytes.length ≤ s.memSize)
    (h : s.status.busy = true → ∀ k, k < bytes.length → s.writeRaces c.use (addr + k) ≠ true) :
    hostMemWrite c addr bytes s = .next { s with mem := Memory.writeBytes s.mem addr bytes } := by
  unfold hostMemWrite
  rw [if_neg (by omega), if_neg]
  simpa using h

/-- A write inside `M` to a window of the running command is refused. -/
theorem hostMemWrite_race {k : Nat} (hin : addr + bytes.length ≤ s.memSize) (hb : s.status.busy = true)
    (hk : k < bytes.length) (h : s.writeRaces c.use (addr + k) = true) :
    hostMemWrite c addr bytes s = .refused (.windowRace addr) := by
  unfold hostMemWrite
  rw [if_neg (by omega), if_pos]
  rw [hb, Bool.true_and, List.any_eq_true]
  exact ⟨k, List.mem_range.2 hk, h⟩

/-- A read inside `M` that touches neither `TEMP` nor `FRAME` of a running command shows the byte. -/
theorem hostMemRead_shows (hin : addr < s.memSize)
    (h : s.status.busy = true → s.readRaces addr ≠ true) :
    hostMemRead addr s
      = .next { s with listing := .byte addr (Memory.read s.mem addr) :: s.listing } := by
  unfold hostMemRead
  rw [if_neg (by omega), if_neg]
  · rfl
  · simpa using h

/-- A read of `TEMP` or `FRAME` while a command runs is refused. -/
theorem hostMemRead_race (hin : addr < s.memSize) (hb : s.status.busy = true)
    (h : s.readRaces addr = true) : hostMemRead addr s = .refused (.windowRace addr) := by
  unfold hostMemRead
  rw [if_neg (by omega), if_pos (by rw [hb, h]; rfl)]

end

/-- Settles O56: an idle engine refuses no access inside `M`, and the write is `Memory.writeBytes`. -/
theorem hostMemoryAccess : Obligations.HostMemoryAccess := by
  intro s c addr bytes hb
  have idle : s.status.busy ≠ true := by rw [hb]; exact Bool.false_ne_true
  refine ⟨fun hin => ?_, hostMemWrite_outside, fun hin => hostMemRead_shows hin fun h => absurd h idle,
    hostMemRead_outside⟩
  refine ⟨_, hostMemWrite_lands hin fun h => absurd h idle, rfl, fun k hk => ?_, fun a ha => ?_⟩
  · rw [Memory.read_writeBytes, if_pos ⟨by omega, by omega⟩, Nat.add_sub_cancel_left,
      List.getD_eq_getElem _ _ hk]
  · rw [Memory.read_writeBytes, if_neg (by omega)]

/-- Where the interleaver cannot overwrite its mask, `FROZEN` and `INFO` are as long as the mask asks (R61). -/
theorem windows_of_apart {s : State} (h : Apart s.maskBase s.frameLength s.tempBase s.frameLength) :
    s.frozenWindow = s.frozenCount ∧ s.infoWindow = s.infoCount := by
  have apart : s.maskApart = true := (maskApart_iff s).2 h.symm
  exact ⟨if_pos apart, if_pos apart⟩

/-- Settles O57: the races are the windows the running command uses, for a read `TEMP` and `FRAME`. -/
theorem windowRacesRefused : Obligations.WindowRacesRefused := by
  intro w i s t a b hd hb ha hN c
  have races : s.writeRaces c.use a = true ↔ Used i s a := by
    have hlen : t.frameLength = s.frameLength := congrArg BitVec.toNat hN
    rw [runningCommand_use hd, hlen, writeRaces_iff]
  refine ⟨fun h => hostMemRead_race ha hb ((readRaces_iff s a).2 h),
    fun h => hostMemWrite_race (k := 0) ha hb Nat.one_pos (races.2 h),
    fun hT hF => hostMemRead_shows ha fun _ h => ((readRaces_iff s a).1 h).elim hT hF,
    fun h => hostMemWrite_lands ha fun _ k hk hr => h ?_, windows_of_apart⟩
  obtain rfl : k = 0 := Nat.lt_one_iff.1 hk
  exact races.1 hr

end Sys2Proof.Machine
end

section
/-! SUPPORT. The proofs of the encoding family: the decoder by the fields of a word. -/

namespace Sys2Proof

/-! ### The fields of a word (R90) -/

theorem opField_eq (w : Word) : (w.extractLsb' 0 4).toNat = opField w := by
  simp [opField]

theorem alnField_eq (w : Word) : w.getLsbD 4 = alnField w := by
  simp [alnField, BitVec.getLsbD, Nat.testBit_eq_decide_div_mod_eq, beq_eq_decide]

theorem zeroField_eq_zero (w : Word) : w.extractLsb' 5 27 = 0 ↔ zeroField w = 0 := by
  have hlt : w.toNat < 2 ^ 32 := w.isLt
  rw [← BitVec.toNat_inj, BitVec.extractLsb'_toNat, Nat.shiftRight_eq_div_pow]
  simp only [zeroField, BitVec.ofNat_eq_ofNat, BitVec.toNat_ofNat]
  omega

/-- A word with nothing above bit 4 is its two fields put together. -/
theorem toNat_of_zeroField {w : Word} (h : zeroField w = 0) :
    w.toNat = opField w + if alnField w then 16 else 0 := by
  simp only [zeroField, opField, alnField, beq_iff_eq] at h ⊢
  split <;> omega

/-! ### The decoder by fields (R91, R94, R95) -/

theorem formatS_eq_ok {aln : Bool} {i j : Instr} : formatS aln i = .ok j ↔ aln = false ∧ i = j := by
  cases aln <;> simp [formatS]

/-- `decode` answers a command exactly when the word's fields are that command's. -/
theorem decode_eq_ok_iff (w : Word) (i : Instr) :
    decode w = .ok i ↔ zeroField w = 0 ∧ opField w = i.op ∧ alnField w = i.flag := by
  constructor
  · intro h
    unfold decode at h
    split at h
    · cases h
    · rename_i hz
      refine ⟨not_not.1 hz, ?_⟩
      split at h
      -- the four operations of format V, the reserved ones, and those of format S
      case h_6 hop | h_7 hop | h_9 hop | h_11 hop => cases h; exact ⟨hop, rfl⟩
      case h_12 => cases h
      all_goals
        rename_i hop
        obtain ⟨haln, rfl⟩ := formatS_eq_ok.1 h
        exact ⟨hop, haln⟩
  · rintro ⟨hz, hop, haln⟩
    cases i <;> simp_all [decode, Instr.op, Instr.flag, formatS]

theorem encoding_statement (i : Instr) : Laws.Encoding.Statement i := by
  cases i with
  | lg2 => exact Laws.Encoding.lg2
  | ilv => exact Laws.Encoding.ilv
  | bfs => exact Laws.Encoding.bfs
  | cpb => exact Laws.Encoding.cpb
  | upd => exact Laws.Encoding.upd
  | mac aln => exact Laws.Encoding.mac aln
  | mic aln => exact Laws.Encoding.mic aln
  | xfs => exact Laws.Encoding.xfs
  | xfv aln => exact Laws.Encoding.xfv aln
  | ens => exact Laws.Encoding.ens
  | env aln => exact Laws.Encoding.env aln

theorem decode_encode (i : Instr) : decode (encode i) = .ok i := by
  obtain ⟨hop, haln, hz, -⟩ := encoding_statement i
  exact (decode_eq_ok_iff _ i).2 ⟨hz, hop, haln⟩

/-- A command is written out by its word: bits 31:5 are 0 and the two fields are its own. -/
theorem encode_of_decode {w : Word} {i : Instr} (h : decode w = .ok i) : encode i = w := by
  obtain ⟨hz, hop, haln⟩ := (decode_eq_ok_iff w i).1 h
  rw [encode, ← hop, ← haln, ← toNat_of_zeroField hz, BitVec.ofNat_toNat, BitVec.setWidth_eq]

/-- `ALN` is one bit and a command of format S has none, so no command is ill formed (R92, R94). -/
theorem Instr.wellFormed (i : Instr) : i.WellFormed = true := by
  cases i <;> rfl

/-- Settles O2: the word of a command carries the fields that `decode` asks for, and no others. -/
theorem decodeEncodeAgree : Obligations.DecodeEncodeAgree :=
  ⟨fun i _ => decode_encode i, fun _ i h => ⟨encode_of_decode h, i.wellFormed⟩⟩

/-- Settles O3: `decode_eq_ok_iff`, the fields cut out of the word as bits. -/
theorem decodeReadsFields : Obligations.DecodeReadsFields := fun w i => by
  rw [zeroField_eq_zero, opField_eq, alnField_eq]
  exact decode_eq_ok_iff w i

/-! ### The legal words (R91, R94) -/

/-- The two fields of some command: an assigned `OP`, and no flag for format S (R94 (a), (c)). -/
theorem exists_command_iff (op : Nat) (aln : Bool) :
    (∃ i : Instr, op = i.op ∧ aln = i.flag) ↔
      (1 ≤ op ∧ op ≤ 0xB) ∧ (op ∈ [0x1, 0x2, 0x3, 0x4, 0x5, 0x8, 0xA] → aln = false) := by
  constructor
  · rintro ⟨i, rfl, rfl⟩
    cases i <;> simp [Instr.op, Instr.flag]
  · rintro ⟨⟨h1, h11⟩, hS⟩
    interval_cases op
    · exact ⟨.lg2, rfl, hS (by decide)⟩
    · exact ⟨.ilv, rfl, hS (by decide)⟩
    · exact ⟨.bfs, rfl, hS (by decide)⟩
    · exact ⟨.cpb, rfl, hS (by decide)⟩
    · exact ⟨.upd, rfl, hS (by decide)⟩
    · exact ⟨.mac aln, rfl, rfl⟩
    · exact ⟨.mic aln, rfl, rfl⟩
    · exact ⟨.xfs, rfl, hS (by decide)⟩
    · exact ⟨.xfv aln, rfl, rfl⟩
    · exact ⟨.ens, rfl, hS (by decide)⟩
    · exact ⟨.env aln, rfl, rfl⟩

/-- Settles O4: the fields of a legal word are those of some command; any other word faults on acceptance. -/
theorem legalWordsExactly : Obligations.LegalWordsExactly := by
  intro w legal
  have hlegal : (∃ i, decode w = .ok i) ↔ legal := by
    show _ ↔ _ ∧ _ ∧ _
    rw [zeroField_eq_zero, opField_eq, alnField_eq, and_left_comm, ← exists_command_iff]
    simp only [decode_eq_ok_iff, exists_and_left]
  refine ⟨hlegal, fun s hr hn => ?_⟩
  rw [Machine.submit_ready hr, Machine.acceptWord_illegal fun i hi => hn (hlegal.1 ⟨i, hi⟩)]

/-- Settles O1: each word is the `encode` of its command, and no command has a reserved `OP`. -/
theorem exactCommandWords : Obligations.ExactCommandWords := by
  refine ⟨⟨decode_encode .lg2, decode_encode .ilv, decode_encode .bfs, decode_encode .cpb, decode_encode .upd,
    decode_encode (.mac false), decode_encode (.mac true), decode_encode (.mic false),
    decode_encode (.mic true), decode_encode .xfs, decode_encode (.xfv false), decode_encode (.xfv true),
    decode_encode .ens, decode_encode (.env false), decode_encode (.env true)⟩, fun w i hop h => ?_⟩
  have hw : w.toNat % 16 = i.op := ((decode_eq_ok_iff w i).1 h).2.1
  have hi := ((exists_command_iff i.op i.flag).1 ⟨i, rfl, rfl⟩).1
  omega

end Sys2Proof
end

section
/-! SUPPORT. The host script as steps of the machine (R97, R98). -/

namespace Sys2Proof.Machine

/-! ### Steps of the host script (R97, R98) -/

theorem run_succ (k : Nat) (s : State) :
    Sys2Proof.core.run (k + 1) s = andThen (step s) (Sys2Proof.core.run k) := by
  have hstep : Sys2Proof.core.step s = step s := rfl
  cases h : step s <;> simp only [Host.Core.run, andThen, hstep, h] <;> rfl

/-- A step that goes on is the first of a run. -/
theorem run_of_step {s t : State} {k : Nat} {o : Host.Outcome State Fault Refusal} (h : step s = .next t)
    (ho : Sys2Proof.core.run k t = o) : Sys2Proof.core.run (k + 1) s = o := by
  rw [run_succ, h]
  exact ho

theorem run_one (s : State) : Sys2Proof.core.run 1 s = step s := by
  rw [run_succ]
  cases step s <;> rfl

/-- A step takes the next move off the script. -/
theorem step_move {s : State} {m : HostMove} {rest : List HostMove} (hs : s.script = m :: rest) :
    step s = hostMove m { s with script := rest } := by
  unfold step nextMove
  rw [hs]

/-- The step that takes a register write off the script (R97). -/
theorem step_wr {s : State} {r : Reg} {w : Word} {rest : List HostMove} (hs : s.script = wr r w :: rest)
    (hb : s.status.busy = false) (hr : r ≠ .cmd) :
    step s = .next (writeReg r w { s with script := rest }) :=
  (step_move hs).trans (portWrite_reg (s := { s with script := rest }) hb hr w)

/-- The step that takes a command statement off the script of a ready engine (R97). -/
theorem step_command {s : State} {i : Instr} {rest : List HostMove} (hs : s.script = command i :: rest)
    (hr : s.ready = true) : step s = exec i { s with script := rest } :=
  step_cmd hs hr (decode_encode i)

/-- Register writes, one after the other. -/
def writeRegs (ws : List (Reg × Word)) (s : State) : State := ws.foldl (fun s p => writeReg p.1 p.2 s) s

/-- What a register write does to the host's script: nothing; and it does not look at it. -/
theorem writeReg_withScript (r : Reg) (w : Word) (s : State) (script : List HostMove) :
    writeReg r w { s with script := script } = { writeReg r w s with script := script } := by
  cases r with
  | status => simp only [writeReg, State.writeStatus]; split <;> rfl
  | ctrl => simp only [writeReg, State.writeCtrl]; split <;> rfl
  | _ => rfl

theorem writeReg_busy {s : State} (hb : s.status.busy = false) (r : Reg) (w : Word) :
    (writeReg r w s).status.busy = false := by
  cases r with
  | status => simp only [writeReg, State.writeStatus]; split <;> exact hb
  | ctrl =>
    simp only [writeReg, State.writeCtrl]
    split
    · rfl
    · exact hb
  | _ => exact hb

/-- As many steps as there are register writes at the head of the script are these writes (R97). -/
theorem run_writes {ws : List (Reg × Word)} {s : State} {rest : List HostMove} {k : Nat}
    {o : Host.Outcome State Fault Refusal} (hs : s.script = ws.map (fun p => wr p.1 p.2) ++ rest)
    (hb : s.status.busy = false) (hr : ∀ p ∈ ws, p.1 ≠ .cmd)
    (ho : Sys2Proof.core.run k (writeRegs ws { s with script := rest }) = o) :
    Sys2Proof.core.run (k + ws.length) s = o := by
  induction ws generalizing s with
  | nil =>
    have same : { s with script := rest } = s := by rw [← show s.script = rest from hs]
    rwa [same] at ho
  | cons p ws ih =>
    obtain ⟨hp, hws⟩ := List.forall_mem_cons.1 hr
    refine run_of_step (step_wr hs hb hp) ?_
    rw [writeReg_withScript]
    refine ih rfl (writeReg_busy hb p.1 p.2) hws ?_
    rwa [writeRegs, List.foldl_cons, writeReg_withScript] at ho

/-- The six register writes of an `encode` pseudo-instruction (R98). -/
def encodeWrites (frame temp mask frozen info n : Word) : List (Reg × Word) :=
  [(.frameBase, frame), (.tempBase, temp), (.maskBase, mask), (.frozenBase, frozen), (.infoBase, info),
    (.frameSize, n)]

theorem writeRegs_encodeWrites (frame temp mask frozen info n : Word) (s : State) :
    writeRegs (encodeWrites frame temp mask frozen info n) s = { s with
      frameBase := frame, tempBase := temp, maskBase := mask, frozenBase := frozen, infoBase := info,
      frameSize := n, status := { s.status with pv := false } } := rfl

/-- Settles O58: the pseudo-instruction, its six register writes, and the command. -/
theorem encodeScript : Obligations.EncodeScript := by
  intro s variant frame temp mask frozen info n rest hr hs
  obtain ⟨hb, he⟩ := (ready_iff s).1 hr
  refine run_of_step (step_move hs) ?_
  refine run_writes (ws := encodeWrites frame temp mask frozen info n) (k := 1)
    (rest := command (encodeCommand variant) :: rest) rfl hb (by simp [encodeWrites]) ?_
  rw [run_one, writeRegs_encodeWrites, step_command rfl]
  · cases variant <;> rfl
  · exact (ready_iff _).2 ⟨hb, he⟩

/-! ### A run of the machine that gets from one state to another -/

/-- Some number of steps leads from s to t. -/
def State.Reaches (s t : State) : Prop := ∃ k, Sys2Proof.core.run k s = .next t

theorem State.Reaches.refl (s : State) : s.Reaches s := ⟨0, rfl⟩

theorem State.Reaches.head {s t u : State} (h : step s = .next t) (hu : t.Reaches u) : s.Reaches u := by
  obtain ⟨k, hk⟩ := hu
  exact ⟨k + 1, run_of_step h hk⟩

theorem State.Reaches.trans {s t u : State} (h : s.Reaches t) (hu : t.Reaches u) : s.Reaches u := by
  obtain ⟨k, hk⟩ := h
  induction k generalizing s with
  | zero => cases hk; exact hu
  | succ k ih =>
    obtain ⟨s', hs', hk'⟩ := andThen_eq_next ((run_succ k s).symm.trans hk)
    exact .head hs' (ih hk')

end Sys2Proof.Machine
end

section
/-! SUPPORT. The host loops of R98 beside the whole transforms: the engine under the script is, after every
command, where the run of the one command would be if it ended there. -/

namespace Sys2Proof.Machine

/-! ### States a command does not tell apart -/

/-- s and t are equal but for the internal registers, the counter of draws, the host's script and listing and
the way `M` is held. -/
structure State.Alike (s t : State) : Prop where
  regs : t = { s with
    internal := t.internal, mem := t.mem, draws := t.draws, script := t.script, listing := t.listing }
  mem : SameMemory s t

theorem State.Alike.refl (s : State) : s.Alike s := ⟨rfl, fun _ => rfl⟩

section
variable {s t : State} (h : s.Alike t)
include h

theorem State.Alike.trans {u : State} (k : t.Alike u) : s.Alike u :=
  ⟨by rw [k.regs, h.regs], fun a => (k.mem a).trans (h.mem a)⟩

theorem State.Alike.accept : s.accept.Alike t.accept := ⟨congrArg State.accept h.regs, h.mem⟩

theorem State.Alike.complete : s.complete.Alike t.complete := ⟨congrArg State.complete h.regs, h.mem⟩

theorem State.Alike.updateStages : s.updateStages.Alike t.updateStages :=
  ⟨congrArg State.updateStages h.regs, h.mem⟩

theorem State.Alike.finishStages : s.finishStages.Alike t.finishStages :=
  ⟨congrArg State.finishStages h.regs, h.mem⟩

theorem State.Alike.passesChecks {i : Instr} (hc : PassesChecks i s) : PassesChecks i t := by
  rw [h.regs]
  exact hc

theorem State.Alike.stageParams (hp : s.StageParams) : t.StageParams := by
  rw [h.regs]
  exact hp

theorem State.Alike.frameLength : t.frameLength = s.frameLength := by rw [h.regs]; rfl

theorem State.Alike.frameHalf : t.frameHalf = s.frameHalf := by rw [h.regs]

theorem State.Alike.tempBase : t.tempBase = s.tempBase := by rw [h.regs]

theorem State.Alike.frameBase : t.frameBase = s.frameBase := by rw [h.regs]

theorem State.Alike.temp : t.temp = s.temp := by
  funext i
  unfold State.temp State.tempAddr
  rw [h.tempBase, h.mem]

theorem State.Alike.frame : t.frame = s.frame := by
  funext i
  unfold State.frame State.frameAddr
  rw [h.frameBase, h.mem]

end

/-- The same loop of stores on both sides. -/
theorem State.Alike.wrote {r r' r₁ r₁' : Run} {base : Nat} {W : Nat → Prop} {out : Nat → Byte}
    (h : r.st.Alike r'.st) (hw : Run.Wrote r r₁ base W out) (hw' : Run.Wrote r' r₁' base W out) :
    r₁.st.Alike r₁'.st where
  regs := by rw [hw'.onlyMem, hw.onlyMem, h.regs]
  mem a := by
    by_cases ha : ∃ j, W j ∧ a = base + j
    · obtain ⟨j, hj, rfl⟩ := ha
      rw [hw.value j hj, hw'.value j hj]
    · have hout : ∀ j, W j → a ≠ base + j := fun j hj he => ha ⟨j, hj, he⟩
      rw [hw'.other a hout, hw.other a hout, h.mem]

/-- On every run alike to r the body ends well, in a run alike to r₁. -/
def EndsAlike (f : Run → Except Run Run) (r r₁ : Run) : Prop :=
  ∀ r', r.st.Alike r'.st → ∃ r₁', f r' = .ok r₁' ∧ r₁.st.Alike r₁'.st

/-- A body of which a loop of stores is known, from whatever run alike to r it starts. -/
theorem endsAlike_of_wrote {f : Run → Except Run Run} {r : Run} {base : Nat} {W : Nat → Prop}
    {out : Nat → Byte}
    (hf : ∀ r', r.st.Alike r'.st → ∃ r₁', f r' = .ok r₁' ∧ Run.Wrote r' r₁' base W out) :
    ∃ r₁, f r = .ok r₁ ∧ EndsAlike f r r₁ ∧ r₁.st = { r.st with mem := r₁.st.mem } := by
  obtain ⟨r₁, hb, hw⟩ := hf r (.refl _)
  refine ⟨r₁, hb, fun r' h => ?_, hw.onlyMem⟩
  obtain ⟨r₁', hb', hw'⟩ := hf r' h
  exact ⟨r₁', hb', h.wrote hw hw'⟩

/-- A command whose body computes one stage over the whole frame: `BFS` and `MAC` (R131, R161). -/
def ComputesStage (i : Instr) : Prop :=
  ∀ {r : Run}, r.st.StageParams → PassesChecks i r.st →
    ∃ r', bodyOf i r = .ok r' ∧ r.StageDone r' r.st.frameHalf.toNat r.st.frameLength

theorem ComputesStage.endsAlike {i : Instr} {r : Run} (hi : ComputesStage i) (hp : r.st.StageParams)
    (hc : PassesChecks i r.st) :
    ∃ r₁, bodyOf i r = .ok r₁ ∧ EndsAlike (bodyOf i) r r₁ ∧ r₁.st = { r.st with mem := r₁.st.mem } :=
  endsAlike_of_wrote fun r' h => by
    have hw := hi (h.stageParams hp) (h.passesChecks hc)
    simp only [Run.StageDone, h.frameBase, h.frameHalf, h.frameLength, h.temp] at hw
    exact hw

theorem doCpb_endsAlike {r : Run} (hc : PassesChecks .cpb r.st) :
    ∃ r₁, doCpb r = .ok r₁ ∧ EndsAlike doCpb r r₁ ∧ r₁.st = { r.st with mem := r₁.st.mem } :=
  endsAlike_of_wrote fun r' h => by
    have hw := doCpb_ok ((h.passesChecks hc).room rfl rfl)
    rwa [h.tempBase, h.frameLength, h.frame] at hw

theorem doUpd_endsAlike (r : Run) : EndsAlike doUpd r { r with st := r.st.updateStages } :=
  fun _ h => ⟨_, rfl, h.updateStages⟩

theorem doMic_endsAlike {r : Run} {aln : Bool} (hp : r.st.StageParams) (hc : PassesChecks (.mic aln) r.st) :
    ∃ r₁, doMic aln r = .ok r₁ ∧ EndsAlike (doMic aln) r r₁ := by
  obtain ⟨r₁, hb, hw⟩ := doMic_wrote hp hc
  refine ⟨_, hb, fun r' h => ?_⟩
  obtain ⟨r₁', hb', hw'⟩ := doMic_wrote (h.stageParams hp) (h.passesChecks hc)
  rw [h.frameBase, h.frameLength, h.temp] at hw'
  exact ⟨_, hb', (h.wrote hw hw').finishStages⟩

/-! ### The host's script follows a command in progress (R98) -/

/-- The host's engine is where the run would be if its command ended here. -/
structure Run.Follows (r : Run) (s : State) : Prop where
  alike : r.st.complete.Alike s
  busy : r.st.status.busy = true
  notDone : r.st.status.done = false
  noError : r.st.status.err = false

/-- Acceptance takes back completion (R200). -/
theorem State.accept_complete {s : State} (hb : s.status.busy = true) (hd : s.status.done = false) :
    s.complete.accept = s := by
  obtain ⟨⟨busy, done, err, pv⟩⟩ := s
  cases hb
  cases hd
  rfl

section
variable {r : Run} {s : State} (h : r.Follows s)
include h

theorem Run.Follows.status : s.status = r.st.complete.status := by rw [h.alike.regs]

theorem Run.Follows.ready : s.ready = true :=
  (ready_iff s).2 ⟨by rw [h.status]; rfl, by rw [h.status]; exact h.noError⟩

/-- When the host's next command is accepted, the two are alike. -/
theorem Run.Follows.accepted : r.st.Alike s.accept :=
  State.accept_complete h.busy h.notDone ▸ h.alike.accept

/-- What the host is shown and what it still has to do is no matter. -/
theorem Run.Follows.withHost (script : List HostMove) (listing : List Shown) :
    r.Follows { s with script := script, listing := listing } :=
  ⟨h.alike.trans ⟨rfl, fun _ => rfl⟩, h.busy, h.notDone, h.noError⟩

/-- One command statement of the script is one more body of the run. -/
theorem Run.Follows.command {i : Instr} {r₁ : Run} {rest : List HostMove}
    (hs : s.script = Machine.command i :: rest) (hc : PassesChecks i r.st) (hb : bodyOf i r = .ok r₁)
    (he : EndsAlike (bodyOf i) r r₁) : ∃ t, step s = .next t ∧ r₁.Follows t ∧ t.script = rest := by
  have halike : r.st.Alike ({ s with script := rest } : State).accept := (h.withHost rest s.listing).accepted
  obtain ⟨r₂, hb₂, h₂⟩ := he ⟨({ s with script := rest } : State).accept, []⟩ halike
  have went := bodyOf_lawful i r
  have went₂ := bodyOf_lawful i ⟨({ s with script := rest } : State).accept, []⟩
  rw [hb] at went
  rw [hb₂] at went₂
  refine ⟨_, (step_command hs h.ready).trans (exec_ok (halike.passesChecks hc) hb₂), ⟨?_, ?_, ?_, ?_⟩, ?_⟩
  · exact h₂.complete.trans ⟨rfl, fun _ => rfl⟩
  · exact went.busy.trans h.busy
  · exact went.done.trans h.notDone
  · exact went.err.trans h.noError
  · obtain ⟨-, -, -, -, -, -, -, -, hscript, -⟩ := went₂.operands
    exact hscript

end

/-! ### The checks of the commands a whole transform is made of (R212) -/

/-- The checks of a transform cover those of its parts but for the minimum size and the stage. -/
theorem PassesChecks.part {i j : Instr} {s : State} (h : PassesChecks i s) (hi : i ≠ .upd)
    (hT : usesTemp i = true) (hF : usesFrame i = true) (hM : usesMask j = false) (haln : j.flag = false)
    (hmin : opTakesFlag j.op = true → 16 ≤ s.frameLength) (hst : StagePasses j s) : PassesChecks j s := by
  obtain ⟨hsize, -, -, -, ⟨htemp, hframe, -⟩, hover⟩ := h
  refine ⟨fun _ => hsize hi, hmin, hst, fun ha => ?_, ⟨fun _ => htemp hT, fun _ => hframe hF, fun hm => ?_⟩,
    fun _ _ => hover hT hF⟩
  · rw [haln] at ha; cases ha
  · rw [hM] at hm; cases hm

/-- A frame with four stages to come has at least sixteen symbols (R38). -/
theorem State.StageParams.sixteen_le {s : State} (h : s.StageParams) (hp : s.status.pv = true)
    (hs : 4 ≤ s.stage.toNat) : 16 ≤ s.frameLength := by
  obtain ⟨-, hN, hle, -⟩ := h hp
  rw [hN]
  exact Nat.pow_le_pow_right (n := 2) (i := 4) (by omega) (by omega)

/-- The stage parameters alone decide how `UPD` moves them (R113, R114). -/
theorem State.StageParams.updateStages {s : State} (h : s.StageParams) (hp : s.status.pv = true)
    (hs : 1 ≤ s.stage.toNat) : s.updateStages.StageParams := by
  obtain ⟨h31, -, hle, -⟩ := h hp
  have counted : ({ s with frozenIdx := 0, infoIdx := 0 } : State).Counted :=
    ⟨h, ⟨h31, hle.trans h31⟩, by simp⟩
  exact (counted.updateStages hp hs).stageParams

/-- `LG2` makes the stage parameters those of a legal size, whatever they were (R111, R112). -/
theorem State.SizeLegal.deriveStages {s : State} (h : s.SizeLegal) : s.deriveStages.StageParams := by
  have counted : ({ s with
      frozenIdx := 0, infoIdx := 0, stageCount := 0, stage := 0,
      status := { s.status with pv := false } } : State).Counted := ⟨nofun, by simp, by simp⟩
  exact (counted.deriveStages h).stageParams

/-- What holds at the head of a host loop of R98 that ends at stage `least`. -/
structure State.InLoop (least : Nat) (s : State) : Prop where
  passes : PassesChecks .cpb s
  pv : s.status.pv = true
  params : s.StageParams
  atLeast : least ≤ s.stage.toNat

/-! ### The two host loops (R98) -/

/-- A host loop: the pseudo-instruction, the move that reads `STAGE`, the command of a stage, the stage at
which the loop ends and what comes then. -/
structure HostLoop where
  first : HostMove
  move : HostMove
  stage : Instr
  least : Nat
  last : List HostMove

/-- The loop of `xfs.steps`. -/
def xfsHostLoop : HostLoop := ⟨.xfsSteps, .xfsLoop, .bfs, 0, []⟩

/-- The loop of `xfv.steps`. -/
def xfvHostLoop : HostLoop := ⟨.xfvSteps, .xfvLoop, .mac false, 4, [command (.mic false)]⟩

/-- The moves the host puts on its script when it has read `STAGE`. -/
def HostLoop.next (L : HostLoop) (stage : Nat) : List HostMove :=
  if L.least < stage then [command L.stage, command .cpb, command .upd, L.move] else L.last

/-- The loop's condition, as the engine tests it in the whole transform. -/
def HostLoop.goesOn (L : HostLoop) (stage : Word) : Bool := decide (L.least < stage.toNat)

/-- The body of the same loop in the whole transform (R133, R180). -/
def HostLoop.round (L : HostLoop) (r : Run) : Except Run Run := ((bodyOf L.stage r).bind doCpb).bind doUpd

/-- What the two loops have in common. -/
structure HostLoop.Sound (L : HostLoop) : Prop where
  starts : ∀ s, hostMove L.first s = .next (s.push [command .lg2, L.move])
  reads : ∀ s, hostMove L.move s = .next (onStage L.next s)
  computes : ComputesStage L.stage
  passes : ∀ s : State, s.InLoop L.least → L.least < s.stage.toNat → PassesChecks L.stage s

theorem xfsHostLoop_sound : xfsHostLoop.Sound where
  starts _ := rfl
  reads s := by
    have hnext : (fun stage : Nat => if stage ≠ 0 then [command .bfs, command .cpb, command .upd, .xfsLoop]
        else []) = xfsHostLoop.next := by
      funext stage
      simp only [HostLoop.next, xfsHostLoop, Nat.pos_iff_ne_zero]
    rw [← hnext]
    rfl
  computes := doBfs_wrote
  passes _ h hlt := h.passes.part nofun rfl rfl rfl rfl nofun ⟨h.pv, hlt⟩

theorem xfvHostLoop_sound : xfvHostLoop.Sound where
  starts _ := rfl
  reads _ := rfl
  computes := doMac_wrote
  passes _ h hlt :=
    h.passes.part nofun rfl rfl rfl rfl (fun _ => h.params.sixteen_le h.pv h.atLeast) ⟨h.pv, hlt⟩

/-- The step of an `LG2` statement on a legal size (R111). -/
theorem step_lg2 {s : State} {rest : List HostMove} (hs : s.script = command .lg2 :: rest)
    (hr : s.ready = true) (hl : s.SizeLegal) :
    step s = .next ({ s with script := rest } : State).accept.deriveStages.complete.forgetInternal := by
  have hc : PassesChecks .lg2 { s with script := rest } :=
    ⟨fun _ => (sizeBad_iff _).2 hl, nofun, trivial, nofun, ⟨nofun, nofun, nofun⟩, nofun⟩
  rw [step_command hs hr, exec_ok hc rfl]

section
variable {L : HostLoop} (hL : L.Sound) {r : Run} {s : State} {rest : List HostMove}
include hL

/-- One pass: three commands of the script are one pass of the loop in the whole transform. -/
theorem HostLoop.Sound.round (hI : r.st.InLoop L.least) (hF : r.Follows s) (hlt : L.least < r.st.stage.toNat)
    (hs : s.script = command L.stage :: command .cpb :: command .upd :: rest) :
    ∃ r' t, L.round r = .ok r' ∧ s.Reaches t ∧ r'.Follows t ∧ t.script = rest
      ∧ r'.st.InLoop L.least ∧ r'.st.stage.toNat + 1 = r.st.stage.toNat := by
  obtain ⟨r₁, hb₁, he₁, hm₁⟩ := ComputesStage.endsAlike hL.computes hI.params (hL.passes _ hI hlt)
  have hI₁ : r₁.st.InLoop L.least := by rw [hm₁]; exact { hI with }
  have hst₁ : r₁.st.stage = r.st.stage := by rw [hm₁]
  obtain ⟨r₂, hb₂, he₂, hm₂⟩ := doCpb_endsAlike hI₁.passes
  have hI₂ : r₂.st.InLoop L.least := by rw [hm₂]; exact { hI₁ with }
  have hst₂ : r₂.st.stage = r.st.stage := by rw [hm₂, hst₁]
  have h1 : 1 ≤ r₂.st.stage.toNat := by rw [hst₂]; omega
  have hupd : PassesChecks .upd r₂.st := hI₂.passes.part nofun rfl rfl rfl rfl nofun ⟨hI₂.pv, h1⟩
  obtain ⟨s₁, hstep₁, hF₁, hs₁⟩ := hF.command hs (hL.passes _ hI hlt) hb₁ he₁
  obtain ⟨s₂, hstep₂, hF₂, hs₂⟩ := hF₁.command hs₁ hI₁.passes hb₂ he₂
  obtain ⟨s₃, hstep₃, hF₃, hs₃⟩ := hF₂.command hs₂ hupd rfl (doUpd_endsAlike r₂)
  have hstage : r₂.st.updateStages.stage.toNat = r.st.stage.toNat - 1 := by
    rw [State.updateStages_stage, hst₂, BitVec.toNat_sub_of_le (by rw [BitVec.le_def]; simp; omega)]
    rfl
  refine ⟨_, s₃, ?_, .head hstep₁ (.head hstep₂ (.head hstep₃ (.refl _))), hF₃, hs₃, ⟨?_, ?_, ?_, ?_⟩, ?_⟩
  · rw [HostLoop.round, hb₁]
    simp only [Except.bind, hb₂]
    rfl
  · exact hI₂.passes
  · exact hI₂.pv
  · exact hI₂.params.updateStages hI₂.pv h1
  · rw [hstage]; omega
  · rw [hstage]; omega

/-- The host reads `STAGE` and goes on by its value. -/
theorem HostLoop.Sound.look (hF : r.Follows s) (hs : s.script = L.move :: rest) :
    ∃ t, step s = .next t ∧ r.Follows t ∧ t.script = L.next r.st.stage.toNat ++ rest := by
  have hidle : ({ s with script := rest } : State).status.busy = false := ((ready_iff s).1 hF.ready).1
  have hstage : s.stage = r.st.stage := by rw [hF.alike.regs]; rfl
  refine ⟨_, (step_move hs).trans (hL.reads _), ?_, ?_⟩
  · rw [onStage, observeReg_idle hidle]
    exact hF.withHost _ _
  · rw [onStage, observeReg_idle hidle, ← hstage]
    rfl

/-- The whole loop: it ends at its least stage, where the loop in the whole transform ends. -/
theorem HostLoop.Sound.loop (hI : r.st.InLoop L.least) (hF : r.Follows s) (hs : s.script = L.move :: rest) :
    ∃ r' t, whileStage L.goesOn L.round r = .ok r' ∧ s.Reaches t ∧ r'.Follows t
      ∧ t.script = L.last ++ rest ∧ r'.st.InLoop L.least ∧ r'.st.stage.toNat = L.least := by
  have ends := whileStage_ends (cond := L.goesOn) (body := L.round) (E := fun _ => False) (r := r)
    (I := fun r' => r'.st.InLoop L.least ∧ ∃ t, s.Reaches t ∧ r'.Follows t ∧ t.script = L.move :: rest)
    (by simp [HostLoop.goesOn]) ?_ ⟨hI, s, .refl s, hF, hs⟩
  · obtain ⟨r', hb, ⟨hI', t, hst, hF', hs'⟩, hc⟩ := ends.exists_ok
    have hle : ¬ L.least < r'.st.stage.toNat := by simpa [HostLoop.goesOn] using hc
    obtain ⟨u, hstep, hFu, hsu⟩ := hL.look hF' hs'
    rw [HostLoop.next, if_neg hle] at hsu
    have hge := hI'.atLeast
    exact ⟨r', u, hb, hst.trans (.head hstep (.refl u)), hFu, hsu, hI', by omega⟩
  · rintro r' ⟨hI', t, hst, hF', hs'⟩ hc
    have hlt : L.least < r'.st.stage.toNat := by simpa [HostLoop.goesOn] using hc
    obtain ⟨u, hstep, hFu, hsu⟩ := hL.look hF' hs'
    rw [HostLoop.next, if_pos hlt] at hsu
    obtain ⟨r'', v, hb, huv, hFv, hsv, hIv, hdown⟩ := hL.round hI' hFu hlt hsu
    rw [hb]
    exact ⟨⟨hIv, v, hst.trans (.head hstep huv), hFv, hsv⟩, hdown⟩

/-- A whole script up to the end of its loop, beside the whole transform from its own `LG2` on. -/
theorem HostLoop.Sound.script (hr : s.ready = true) (hc : PassesChecks .cpb s)
    (hleast : L.least ≤ s.deriveStages.stage.toNat) (hs : s.script = L.first :: rest) :
    ∃ r t, whileStage L.goesOn L.round ⟨s.accept.deriveStages, []⟩ = .ok r ∧ s.Reaches t ∧ r.Follows t
      ∧ t.script = L.last ++ rest ∧ r.st.InLoop L.least ∧ r.st.stage.toNat = L.least := by
  have hl : s.SizeLegal := hc.sizeLegal nofun
  have hpush := (step_move hs).trans (hL.starts _)
  have hstep := step_lg2 (s := State.push [command .lg2, L.move] { s with script := rest }) rfl hr hl
  have hF : Run.Follows ⟨s.accept.deriveStages, []⟩
      ({ s with script := L.move :: rest } : State).accept.deriveStages.complete.forgetInternal :=
    ⟨⟨rfl, fun _ => rfl⟩, rfl, rfl, ((ready_iff s).1 hr).2⟩
  have hI : s.accept.deriveStages.InLoop L.least := ⟨hc, rfl, hl.deriveStages, hleast⟩
  obtain ⟨r, t, hb, hreach, hrest⟩ := hL.loop hI hF rfl
  exact ⟨r, t, hb, .head hpush (.head hstep hreach), hrest⟩

end

/-! ### The scripts and the whole transforms -/

/-- What the host finds at the end of its script, beside what the one command leaves. -/
theorem Run.Follows.sameEffect {r : Run} {t : State} (h : r.Follows t) :
    SameMemory r.st.complete.forgetInternal t ∧ SameStages r.st.complete.forgetInternal t
      ∧ t.status = r.st.complete.forgetInternal.status :=
  ⟨h.alike.mem, by rw [h.alike.regs]; exact ⟨rfl, rfl, rfl, rfl, rfl⟩, h.status⟩

theorem doXfs_eq (r : Run) :
    doXfs r = whileStage xfsHostLoop.goesOn xfsHostLoop.round { r with st := r.st.deriveStages } := by
  have hcond : (fun stage : Word => stage != 0) = xfsHostLoop.goesOn := by
    funext stage
    rw [Bool.eq_iff_iff]
    simp [HostLoop.goesOn, xfsHostLoop, Nat.pos_iff_ne_zero, ← BitVec.toNat_inj]
  rw [← hcond]
  rfl

theorem doXfv_eq (r : Run) :
    doXfv false r
      = (whileStage xfvHostLoop.goesOn xfvHostLoop.round { r with st := r.st.deriveStages }).bind (doMic false) :=
  rfl

/-- Settles O59: `LG2` and the loop are the body of `XFS`, one command of the script after the other. -/
theorem xfsStepsScript : Obligations.XfsStepsScript := by
  intro s rest hr hc hs
  have hcpb : PassesChecks .cpb s := hc.part nofun rfl rfl rfl rfl nofun trivial
  obtain ⟨r, t, hb, ⟨k, hk⟩, hF, hrest, -⟩ := xfsHostLoop_sound.script hr hcpb (Nat.zero_le _) hs
  exact ⟨k, t, _, hk, exec_ok hc ((doXfs_eq _).trans hb), hrest, hF.sameEffect⟩

/-- A frame of at least sixteen symbols starts at stage 4 or above (R112, R206). -/
theorem four_le_stage {s : State} (hl : s.SizeLegal) (h16 : 16 ≤ s.frameLength) :
    4 ≤ s.deriveStages.stage.toNat := by
  obtain ⟨-, hN, -⟩ := hl.deriveStages rfl
  exact four_le_of_sixteen_le (hN ▸ h16)

/-- Settles O60: as for `XFS`; the loop ends at stage 4, and `MIC` is the last command of both. -/
theorem xfvStepsScript : Obligations.XfvStepsScript := by
  intro s rest hr hc hs
  have hcpb : PassesChecks .cpb s := hc.part nofun rfl rfl rfl rfl nofun trivial
  obtain ⟨r, t, hb, hreach, hF, hst, hI, hstage⟩ :=
    xfvHostLoop_sound.script hr hcpb (four_le_stage (hc.sizeLegal nofun) (hc.minimum rfl)) hs
  have hmic : PassesChecks (.mic false) r.st := hI.passes.part nofun rfl rfl rfl rfl
    (fun _ => hI.params.sixteen_le hI.pv hI.atLeast) ⟨hI.pv, hstage⟩
  obtain ⟨r₁, hb₁, he₁⟩ := doMic_endsAlike hI.params hmic
  obtain ⟨u, hstep, hFu, hrest⟩ := hF.command hst hmic hb₁ he₁
  have hbody : doXfv false ⟨s.accept, []⟩ = .ok r₁ := by
    rw [doXfv_eq, hb]
    exact hb₁
  obtain ⟨k, hk⟩ := hreach.trans (.head hstep (.refl u))
  exact ⟨k, u, _, hk, exec_ok hc hbody, hrest, hFu.sameEffect⟩

end Sys2Proof.Machine
end

section
/-! SUPPORT. The proofs of the stage-count family: what one `LG2` and one `UPD` leave, and the course of the
stage parameters through a sequence of them (R111 to R114). -/

namespace Sys2Proof.Machine

/-! ### One `LG2`, one `UPD` -/

/-- From s to t commands ended well and changed no register but the stage parameters and `STATUS`, and no byte
of `M`. -/
structure State.StagesOnly (s t : State) : Prop where
  ended : EndedWell s t
  operands : SameOperands s t
  indices : SameIndices s t
  memory : SameMemory s t

theorem State.StagesOnly.trans {s t u : State} (h : s.StagesOnly t) (k : t.StagesOnly u) : s.StagesOnly u := by
  obtain ⟨-, -, -, hcause, hfinfo⟩ := h.ended
  obtain ⟨kbusy, kdone, kerr, kcause, kfinfo⟩ := k.ended
  obtain ⟨hfrozen, hinfo⟩ := h.indices
  obtain ⟨kfrozen, kinfo⟩ := k.indices
  exact ⟨⟨kbusy, kdone, kerr, kcause.trans hcause, kfinfo.trans hfinfo⟩, h.operands.trans k.operands,
    ⟨kfrozen.trans hfrozen, kinfo.trans hinfo⟩, fun a => (k.memory a).trans (h.memory a)⟩

/-- An engine whose command ended well takes the next one (R21). -/
theorem State.StagesOnly.ready {s t : State} (h : s.StagesOnly t) : t.ready = true := by
  obtain ⟨hbusy, -, herr, -⟩ := h.ended
  exact (ready_iff t).2 ⟨hbusy, herr⟩

/-- `LG2` asks for a legal size only (R212). -/
theorem exec_lg2 {s : State} (hl : s.SizeLegal) :
    exec .lg2 s = .next s.accept.deriveStages.complete.forgetInternal :=
  have hc : PassesChecks .lg2 s :=
    ⟨fun _ => (sizeBad_iff s).2 hl, nofun, trivial, nofun, ⟨nofun, nofun, nofun⟩, nofun⟩
  exec_ok hc rfl

theorem stagesOnly_lg2 {s : State} (hr : s.ready = true) :
    s.StagesOnly s.accept.deriveStages.complete.forgetInternal :=
  ⟨⟨rfl, rfl, ((ready_iff s).1 hr).2, rfl, rfl⟩, SameOperands.refl s, ⟨rfl, rfl⟩, fun _ => rfl⟩

/-- `UPD` asks for stage parameters with a stage to come only (R212). -/
theorem exec_upd {s : State} (hp : s.status.pv = true) (hs : 1 ≤ s.stage.toNat) :
    exec .upd s = .next s.accept.updateStages.complete.forgetInternal :=
  have hc : PassesChecks .upd s :=
    ⟨fun h => absurd rfl h, nofun, ⟨hp, hs⟩, nofun, ⟨nofun, nofun, nofun⟩, nofun⟩
  exec_ok hc rfl

theorem stagesOnly_upd {s : State} (hr : s.ready = true) :
    s.StagesOnly s.accept.updateStages.complete.forgetInternal :=
  ⟨⟨rfl, rfl, ((ready_iff s).1 hr).2, rfl, rfl⟩, SameOperands.refl s, ⟨rfl, rfl⟩, fun _ => rfl⟩

/-- `UPD` lowers `STAGE` by one (R113). -/
theorem updateStages_stage_toNat {s : State} (hs : 1 ≤ s.stage.toNat) :
    s.updateStages.stage.toNat + 1 = s.stage.toNat := by
  have hle : (1 : Word) ≤ s.stage := BitVec.le_def.2 hs
  rw [State.updateStages_stage, BitVec.toNat_sub_of_le hle]
  exact Nat.sub_add_cancel hs

/-- Settles O30: the checks of `UPD` pass, and its body is `State.updateStages`. -/
theorem updateStageParameters : Obligations.UpdateStageParameters := by
  intro s hr hp hs
  have hframe := stagesOnly_upd hr
  exact ⟨_, exec_upd hp hs, hframe.ended, rfl, rfl, updateStages_stage_toNat (s := s) hs, rfl, hp,
    hframe.operands, hframe.indices, hframe.memory⟩

/-! ### The course of the stage parameters (R112, R114) -/

/-- What an `LG2` on 2^p symbols and then k `UPD`s make of s: the stage parameters of 2^p symbols, k stages done,
and nothing else changed. -/
structure State.OnCourse (p k : Nat) (s t : State) : Prop where
  stagesOnly : s.StagesOnly t
  pv : t.status.pv = true
  params : t.StageParams
  count : t.stageCount.toNat = p
  stage : t.stage.toNat = p - k

/-- `LG2` starts the course. -/
theorem onCourse_lg2 {s : State} {p : Nat} (hr : s.ready = true) (hp : p ≤ 31) (hN : s.frameLength = 2 ^ p) :
    ∃ t, exec .lg2 s = .next t ∧ s.OnCourse p 0 t := by
  have hl : s.SizeLegal := ⟨p, hp, hN⟩
  have hlog : (log2Reduction s.frameSize).toNat = p := by
    rw [log2Reduction_two_pow hp hN, BitVec.toNat_ofNat]
    omega
  exact ⟨_, exec_lg2 hl, stagesOnly_lg2 hr, rfl, hl.deriveStages, hlog, hlog⟩

section
variable {s t : State} {p k : Nat} (h : s.OnCourse p k t)
include h

/-- `UPD` goes one stage further. -/
theorem State.OnCourse.upd (hk : k < p) : ∃ u, exec .upd t = .next u ∧ s.OnCourse p (k + 1) u := by
  have hstage := h.stage
  have hs : 1 ≤ t.stage.toNat := by omega
  have hnext := updateStages_stage_toNat hs
  exact ⟨_, exec_upd h.pv hs, h.stagesOnly.trans (stagesOnly_upd h.stagesOnly.ready), h.pv,
    h.params.updateStages h.pv hs, h.count, show t.updateStages.stage.toNat = p - (k + 1) by omega⟩

theorem State.OnCourse.numBranches (hk : k ≤ p) : t.numBranches.toNat = 2 ^ k := by
  obtain ⟨-, -, -, hb, -⟩ := h.params h.pv
  rw [hb, h.count, h.stage, Nat.sub_sub_self hk]

theorem State.OnCourse.frameHalf (hk : k < p) : t.frameHalf.toNat = 2 ^ (p - 1 - k) := by
  obtain ⟨-, -, -, -, hf⟩ := h.params h.pv
  rw [hf, h.stage, if_neg (by omega), Nat.sub_right_comm]

/-- The branches of a stage to come span the frame (R38). -/
theorem State.OnCourse.span (hk : k < p) :
    t.numBranches.toNat * t.frameHalf.toNat * 2 = t.frameLength := by
  have hstage := h.stage
  rw [← h.params.span h.pv (by omega)]
  ring

theorem State.OnCourse.frameHalf_zero (hk : k = p) : t.frameHalf = 0 := by
  obtain ⟨-, -, -, -, hf⟩ := h.params h.pv
  rw [h.stage, if_pos (by omega)] at hf
  exact BitVec.eq_of_toNat_eq hf

end

/-- The word of a command, written to `CMD` of a ready engine, runs that command (R21). -/
theorem submit_encode {s : State} (hr : s.ready = true) (i : Instr) : submit (encode i) s = exec i s :=
  (submit_ready hr _).trans (acceptWord_legal (decode_encode i) s)

theorem submitAll_cons {i : Instr} {s t : State} (hr : s.ready = true) (ht : exec i s = .next t)
    (l : List Instr) : submitAll (i :: l) s = submitAll l t := by
  rw [submitAll, submit_encode hr, ht]
  rfl

/-- j more `UPD`s, each on the state the one before leaves. -/
theorem State.OnCourse.upds {s t : State} {p k : Nat} (h : s.OnCourse p k t) (j : Nat) (hj : k + j ≤ p) :
    ∃ u, submitAll (List.replicate j .upd) t = .next u ∧ s.OnCourse p (k + j) u := by
  induction j generalizing k t with
  | zero => exact ⟨t, rfl, h⟩
  | succ j ih =>
    obtain ⟨t', ht, h'⟩ := h.upd (by omega)
    obtain ⟨u, hu, h''⟩ := ih h' (by omega)
    refine ⟨u, ?_, Nat.add_right_comm k 1 j ▸ h''⟩
    rw [List.replicate_succ, submitAll_cons h.stagesOnly.ready ht, hu]

/-- Settles O29: the state after `LG2` is the start of the course. -/
theorem stageCountIsLog2 : Obligations.StageCountIsLog2 := by
  intro s p hr hp hN
  obtain ⟨t, ht, h⟩ := onCourse_lg2 hr hp hN
  have hhalf : t.frameHalf.toNat = 2 ^ p / 2 := by
    cases p with
    | zero => rw [h.frameHalf_zero rfl]; rfl
    | succ p => rw [h.frameHalf p.succ_pos, Nat.pow_succ, Nat.mul_div_cancel _ two_pos]; rfl
  exact ⟨t, ht, h.stagesOnly.ended, h.count, h.stage, hhalf, BitVec.eq_of_toNat_eq (h.numBranches p.zero_le),
    h.pv, h.stagesOnly.operands, h.stagesOnly.indices, h.stagesOnly.memory⟩

/-- Settles O31: `LG2` starts the course, and the `UPD`s follow it by induction on their number. -/
theorem stageTrajectory : Obligations.StageTrajectory := by
  intro s p j hr hp hN hj
  obtain ⟨t, ht, h₀⟩ := onCourse_lg2 hr hp hN
  obtain ⟨u, hu, h⟩ := h₀.upds j (by omega)
  rw [Nat.zero_add] at h
  exact ⟨u, (submitAll_cons hr ht _).trans hu, h.stagesOnly.ended, h.count, h.stage, h.numBranches hj,
    fun hlt => ⟨h.frameHalf hlt, h.span hlt⟩, h.frameHalf_zero, h.pv, h.stagesOnly.operands,
    h.stagesOnly.indices, h.stagesOnly.memory⟩

end Sys2Proof.Machine
end

section
/-! SUPPORT. The proofs of the interleaver family: how a command that ended well got there, what the walk of R121
leaves of the registers, and the two encodes as the walk followed by a whole transform. -/

namespace Sys2Proof.Machine

/-! ### A command that ended well (R200) -/

/-- Checks passed and the body gone through: the command ends well, its operands as they were (R200, R62). -/
theorem exec_endedWell {i : Instr} {s : State} {r : Run} (hr : s.ready = true) (hc : PassesChecks i s)
    (hb : bodyOf i ⟨s.accept, []⟩ = .ok r) :
    ∃ t, exec i s = .next t ∧ t = r.st.complete.forgetInternal ∧ EndedWell s t ∧ SameOperands s t := by
  have hwent := bodyOf_lawful i ⟨s.accept, []⟩
  rw [hb] at hwent
  exact ⟨_, exec_ok hc hb, rfl, ⟨rfl, rfl, hwent.err.trans ((ready_iff s).1 hr).2, hwent.cause, hwent.finfo⟩,
    hwent.operands⟩

/-- Conversely, no fault at the end: the checks passed and the body went through. -/
theorem body_ok_of_exec {i : Instr} {s t : State} (ht : exec i s = .next t) (he : t.status.err = false) :
    PassesChecks i s ∧ ∃ r, bodyOf i ⟨s.accept, []⟩ = .ok r := by
  rw [exec_eq] at ht
  cases ht
  rcases runCommand_st (checksOf i) (bodyOf i) s with
    ⟨f, -, hst⟩ | ⟨hc, r, hb, -⟩ | ⟨-, r, hb, hst⟩
  · rw [hst] at he
    cases he
  · exact ⟨(checkPhase_passes i s).1 hc, r, hb⟩
  · have hlaw := bodyOf_lawful i ⟨s.accept, []⟩
    rw [hb] at hlaw
    obtain ⟨r₀, a, -, rfl⟩ := hlaw
    rw [hst] at he
    cases he

/-! ### The walk of an accepted command (R121) -/

/-- The walk reads nothing that acceptance changes. -/
theorem walk_accept (s : State) (k : Nat) : s.accept.walk k = s.walk k := by
  induction k with
  | zero => rfl
  | succ k ih =>
    simp only [State.walk, ih]
    rfl

/-- The checks of a command that interleaves leave room for `do_ILV()`. -/
theorem doIlv_of_walk {i : Instr} {s : State} {f : Nat} {m : Nat → Byte} (hm : usesMask i = true)
    (hc : PassesChecks i s) (hw : s.walk s.frameLength = some (m, f)) :
    ∃ r, doIlv ⟨s.accept, []⟩ = .ok r ∧ Run.Walked s.accept s.frameLength f m r :=
  doIlv_ok (r := ⟨s.accept, []⟩) rfl (hc.fitsMask hm).1 (hc.fitsMask hm).2 ((walk_accept s _).trans hw)

/-- An `ILV` that ended without a fault walked to the end of the frame. -/
theorem walk_of_exec_ilv {s t : State} (ht : exec .ilv s = .next t) (he : t.status.err = false) :
    PassesChecks .ilv s ∧ ∃ m f, s.walk s.frameLength = some (m, f) := by
  obtain ⟨hc, r, hb⟩ := body_ok_of_exec ht he
  have hends := doIlv_ends (r := ⟨s.accept, []⟩) rfl (hc.fitsMask rfl).1 (hc.fitsMask rfl).2
  rw [show doIlv ⟨s.accept, []⟩ = .ok r from hb] at hends
  obtain ⟨f, m, hw, -⟩ := hends
  exact ⟨hc, m, f, (walk_accept s _).symm.trans hw⟩

section
variable {s : State} {k f : Nat} {m : Nat → Byte} {r : Run} (h : Run.Walked s k f m r)
include h

theorem Run.Walked.operands : SameOperands s r.st := by
  rw [h.regs]
  exact SameOperands.refl s

theorem Run.Walked.stages : SameStages s r.st := by
  rw [h.regs]
  exact ⟨rfl, rfl, rfl, rfl, rfl⟩

/-- The indices count the positions walked, which fit a register (R36, R37, R118). -/
theorem Run.Walked.indices (hf : f ≤ k) (hk : k ≤ s.frameLength) :
    r.st.frozenIdx.toNat = f ∧ r.st.infoIdx.toNat = k - f := by
  have hlt : s.frameLength < 2 ^ 32 := s.frameSize.isLt
  rw [h.regs]
  simp only [BitVec.toNat_ofNat]
  omega

/-- The symbols a transform after the walk starts from. -/
theorem Run.Walked.temp : r.st.temp = fun i => m (s.tempAddr i) := by
  funext i
  rw [State.temp, State.tempAddr, h.operands.tempBase, h.mem, State.tempAddr]

end

/-! ### `ILV` -/

/-- Settles O32: the checks leave room for `do_ILV()`, which is the walk. -/
theorem interleaveWalk : Obligations.InterleaveWalk := by
  intro s m f hr hc hw
  obtain ⟨r, hb, hW⟩ := doIlv_of_walk rfl hc hw
  obtain ⟨t, ht, rfl, hended, hoperands⟩ := exec_endedWell hr hc hb
  obtain ⟨hfrozen, hinfo⟩ := hW.indices (walk_bounds hw).1 le_rfl
  exact ⟨_, ht, hended, hW.mem, hfrozen, hinfo, hoperands, hW.stages,
    hW.sameOutside ((walk_accept s _).trans hw) le_rfl⟩

/-- `TEMP` at the end of a walk whose inputs it does not overlap (R126). -/
theorem temp_of_walk {s t : State} {f : Nat} {m : Nat → Byte} (hw : s.walk s.frameLength = some (m, f))
    (hap : s.InputsApart s.frameLength) (hmem : ∀ a, Memory.read t.mem a = m a) (ho : SameOperands s t)
    {i : Nat} (hi : i < s.frameLength) : t.temp i = s.interleaved i := by
  rw [State.temp, hmem, State.tempAddr, ho.tempBase]
  exact walk_values le_rfl hap hw hi

/-- Settles O33: the walk reaches the end, and its closed form is the property of R126. -/
theorem interleaveProperty : Obligations.InterleaveProperty := by
  intro s hr hc hin hap
  obtain ⟨m, f, hw⟩ := walk_reaches le_rfl hap.1 hin
  obtain ⟨t, ht, hended, hmem, hfrozen, hinfo, hoperands, hstages, houtside⟩ := interleaveWalk s m f hr hc hw
  obtain rfl : f = s.frozenCount := walk_mask_apart le_rfl hap.1 hw
  exact ⟨t, ht, hended, fun i hi => temp_of_walk hw hap hmem hoperands hi, hfrozen, hinfo, hoperands, hstages,
    houtside⟩

/-- A mask of non-zero bytes counts every position (R125). -/
theorem frozenBefore_of_mask_ne_zero {s : State} {k : Nat} (h : ∀ i, i < k → s.mask i ≠ 0) :
    s.frozenBefore k = k := by
  rw [State.frozenBefore, List.countP_eq_length.2, List.length_range]
  simpa using h

/-- A mask of zeros counts none (R125). -/
theorem frozenBefore_of_mask_eq_zero {s : State} {k : Nat} (h : ∀ i, i < k → s.mask i = 0) :
    s.frozenBefore k = 0 := by
  rw [State.frozenBefore, List.countP_eq_zero]
  simpa using h

section
variable {s : State} {N : Nat}

/-- With a mask of non-zero bytes position i takes `FROZEN[i]` (R125). -/
theorem valueAddr_of_mask_ne_zero (h : ∀ i, i < N → s.mask i ≠ 0) {i : Nat} (hi : i < N) :
    s.valueAddr i = s.frozenAddr i := by
  rw [State.valueAddr, if_pos (h i hi), frozenBefore_of_mask_ne_zero fun j hj => h j (hj.trans hi)]

/-- With a mask of zeros position i takes `INFO[i]` (R125). -/
theorem valueAddr_of_mask_eq_zero (h : ∀ i, i < N → s.mask i = 0) {i : Nat} (hi : i < N) :
    s.valueAddr i = s.infoAddr i := by
  rw [State.valueAddr, if_neg (not_not.2 (h i hi)), frozenBefore_of_mask_eq_zero fun j hj => h j (hj.trans hi),
    Nat.sub_zero]

end

/-- `TEMP` is a copy of a buffer that every position takes its value from and that `TEMP` does not overlap
(R125). -/
theorem temp_copy_of_walk {s t : State} {f : Nat} {m : Nat → Byte} {base : Word}
    (hw : s.walk s.frameLength = some (m, f)) (hmem : ∀ a, Memory.read t.mem a = m a) (ho : SameOperands s t)
    (hMA : Apart s.tempBase s.frameLength s.maskBase s.frameLength)
    (hap : Apart s.tempBase s.frameLength base s.frameLength)
    (hv : ∀ i, i < s.frameLength → s.valueAddr i = base.toNat + i) {i : Nat} (hi : i < s.frameLength) :
    t.temp i = Memory.read s.mem (base.toNat + i) := by
  have hinputs : s.InputsApart s.frameLength := by
    refine ⟨hMA, fun j hj ⟨hlo, hhi⟩ => ?_⟩
    rw [hv j hj] at hlo hhi
    rcases hap with hap | hap <;> omega
  rw [temp_of_walk hw hinputs hmem ho hi, interleaved_eq, hv i hi]

/-- Settles O34: the walk consumes one value for each position, all of one buffer where the mask is extreme. -/
theorem extremeMasks : Obligations.ExtremeMasks := by
  intro s t hr ht he
  obtain ⟨hc, m, f, hw⟩ := walk_of_exec_ilv ht he
  obtain ⟨t', ht', -, hmem, hfrozen, hinfo, hoperands, -, -⟩ := interleaveWalk s m f hr hc hw
  obtain rfl : t = t' := Host.Outcome.next.inj (ht.symm.trans ht')
  have hle := (walk_bounds hw).1
  refine ⟨by omega, fun hMA => ?_⟩
  have hf : f = s.frozenBefore s.frameLength := walk_mask_apart le_rfl hMA hw
  constructor
  · intro hmask
    rw [frozenBefore_of_mask_ne_zero hmask] at hf
    refine ⟨by omega, BitVec.eq_of_toNat_eq (show t.infoIdx.toNat = 0 by omega), fun hap i hi => ?_⟩
    exact temp_copy_of_walk hw hmem hoperands hMA hap (fun _ => valueAddr_of_mask_ne_zero hmask) hi
  · intro hmask
    rw [frozenBefore_of_mask_eq_zero hmask] at hf
    refine ⟨BitVec.eq_of_toNat_eq (show t.frozenIdx.toNat = 0 by omega), by omega, fun hap i hi => ?_⟩
    exact temp_copy_of_walk hw hmem hoperands hMA hap (fun _ => valueAddr_of_mask_eq_zero hmask) hi

/-! ### The whole transforms (R133, R180) -/

/-- A body that computes n stages of 2^n symbols, leaving all of them in `FRAME` and the first kT in `TEMP`. -/
def Transforms (n kT : Nat) (body : Run → Except Run Run) : Prop :=
  ∀ r : Run, r.st.frameLength = 2 ^ n → r.StageRoom (2 ^ n) →
    ∃ r', body r = .ok r' ∧ State.TransformEnd n r.st r'.st ∧ Run.TransformMem n kT n r r'

/-- `do_XFS()` leaves all stages in both buffers, when there is one (R133, R186). -/
theorem doXfs_transforms {n : Nat} (h1 : 1 ≤ n) (hn : n ≤ 31) : Transforms n n doXfs := by
  intro r hN room
  obtain ⟨r', hb, hst, hv, -, ho, -⟩ := xfs_run hn hN room
  exact ⟨r', hb, hst, fun j hj => (hv h1 j hj).2.trans (hv h1 j hj).1, fun j hj => (hv h1 j hj).1, ho⟩

/-- `do_XFV(aln)` leaves the last four stages out of `TEMP` (R180, R186). -/
theorem doXfv_transforms {n : Nat} (h4 : 4 ≤ n) (hn : n ≤ 31) (aln : Bool) :
    Transforms n (n - 4) (doXfv aln) := by
  intro r hN room
  obtain ⟨r', hb, hst, hv, ho, -⟩ := xfv_run (aln := aln) h4 hn hN room
  exact ⟨r', hb, hst, fun j hj => (hv j hj).2, fun j hj => (hv j hj).1, ho⟩

section
variable {s t : State} {n : Nat} (h : State.TransformEnd n s t)
include h

theorem State.TransformEnd.stagesFinished (hn : n ≤ 31) : StagesFinished n t := by
  rw [h]
  exact ⟨Nat.mod_eq_of_lt (by omega), rfl, rfl, rfl, rfl⟩

theorem State.TransformEnd.sameIndices : SameIndices s t := by
  rw [h]
  exact ⟨rfl, rfl⟩

end

/-! ### The encodes (R182, R183) -/

/-- What an encode leaves of s, on which the walk consumes f frozen values and leaves m: n stages of the
interleaved symbols in `FRAME`, the first kT in `TEMP`. -/
structure State.Encoded (n kT f : Nat) (m : Nat → Byte) (s t : State) : Prop where
  ended : EndedWell s t
  frame : ∀ j, j < s.frameLength → t.frame j = afterStages n (fun i => m (s.tempAddr i)) n j
  temp : ∀ j, j < s.frameLength → t.temp j = afterStages n (fun i => m (s.tempAddr i)) kT j
  frozenIdx : t.frozenIdx.toNat = f
  infoIdx : t.infoIdx.toNat = s.frameLength - f
  stages : StagesFinished n t
  operands : SameOperands s t
  memory : SameMemoryOutsideBoth s t

/-- A command whose body is the walk and then a whole transform, whatever overlaps the inputs (R181). -/
theorem exec_encoded {i : Instr} {s : State} {n kT f : Nat} {m : Nat → Byte} {body : Run → Except Run Run}
    (hr : s.ready = true) (hc : PassesChecks i s) (hm : usesMask i = true) (hF : usesFrame i = true)
    (hbody : ∀ r, bodyOf i r = (doIlv r).bind body) (htr : Transforms n kT body) (hn : n ≤ 31)
    (hN : s.frameLength = 2 ^ n) (hw : s.walk s.frameLength = some (m, f)) :
    ∃ t, exec i s = .next t ∧ State.Encoded n kT f m s t := by
  obtain ⟨r, hilv, hW⟩ := doIlv_of_walk hm hc hw
  have ho : SameOperands s r.st := hW.operands
  have hN' : r.st.frameLength = 2 ^ n := ho.frameLength.trans hN
  have room : r.StageRoom (2 ^ n) :=
    hN' ▸ ho.room (r := ⟨s, []⟩) (PassesChecks.room (r := ⟨s, []⟩) hc (usesTemp_of_usesMask hm) hF)
  obtain ⟨r', hb, hend, hmem⟩ := htr r hN' room
  have hb' : bodyOf i ⟨s.accept, []⟩ = .ok r' := by
    rw [hbody, hilv]
    exact hb
  obtain ⟨t, ht, rfl, hended, hoperands⟩ := exec_endedWell hr hc hb'
  obtain ⟨hfrozen, hinfo⟩ := hend.sameIndices
  obtain ⟨hf, hz⟩ := hW.indices (walk_bounds hw).1 le_rfl
  have hout := hW.sameOutside ((walk_accept s _).trans hw) le_rfl
  refine ⟨_, ht, hended, fun j hj => ?_, fun j hj => ?_, (congrArg BitVec.toNat hfrozen).trans hf,
    (congrArg BitVec.toNat hinfo).trans hz, hend.stagesFinished hn, hoperands, fun a haT haF => ?_⟩
  · exact hW.temp ▸ hmem.frame j (hN ▸ hj)
  · exact hW.temp ▸ hmem.temp j (hN ▸ hj)
  · refine (hmem.other a ?_ ?_).trans (hout a haT)
    · rwa [ho.tempBase, ← hN]
    · rwa [ho.frameBase, ← hN]

/-- Settles O49: the body of `ENS` is the walk, then `do_XFS()`. -/
theorem encodeScalar : Obligations.EncodeScalar := by
  intro s n f m hr hc h1 hn hN hw
  obtain ⟨t, ht, h⟩ := exec_encoded hr hc rfl rfl (fun _ => rfl) (doXfs_transforms h1 hn) hn hN hw
  exact ⟨t, ht, h.ended, fun j hj => ⟨h.frame j hj, (h.temp j hj).trans (h.frame j hj).symm⟩, h.frozenIdx,
    h.infoIdx, h.stages, h.operands, h.memory⟩

/-- Settles O50: the body of `ENV` is the walk, then `do_XFV(aln)`; the minimum size gives n >= 4. -/
theorem encodeVector : Obligations.EncodeVector := by
  intro s aln n f m hr hc hn hN hw
  have h4 : 4 ≤ n := four_le_of_sixteen_le (hN ▸ hc.minimum rfl)
  obtain ⟨t, ht, h⟩ := exec_encoded hr hc rfl rfl (fun _ => rfl) (doXfv_transforms h4 hn aln) hn hN hw
  exact ⟨h4, t, ht, h.ended, fun j hj => ⟨h.frame j hj, h.temp j hj⟩, h.frozenIdx, h.infoIdx, h.stages,
    h.operands, h.memory⟩

end Sys2Proof.Machine
end

section
/-! SUPPORT. The proofs of the scalar butterfly family: the commands that only store to one window, the whole
transforms on the symbols `TEMP` holds, the frame of one symbol, and the sequence of step commands beside `XFS`. -/

namespace Sys2Proof.Machine

/-! ### Commands that only store to one window (R131, R132) -/

section
variable {r r' : Run} {base : Nat} {W : Nat → Prop} {out : Nat → Byte} (h : Run.Wrote r r' base W out)
include h

theorem Run.Wrote.sameStages : SameStages r.st r'.st := by
  rw [h.onlyMem]
  exact ⟨rfl, rfl, rfl, rfl, rfl⟩

theorem Run.Wrote.sameIndices : SameIndices r.st r'.st := by
  rw [h.onlyMem]
  exact ⟨rfl, rfl⟩

end

/-- A command that ended well and stored `out` to the N bytes at the base, and nothing else. -/
structure State.Stored (base : Word) (out : Nat → Byte) (s t : State) : Prop where
  ended : EndedWell s t
  value : ∀ j, j < s.frameLength → Memory.read t.mem (base.toNat + j) = out j
  operands : SameOperands s t
  stages : SameStages s t
  indices : SameIndices s t
  memory : SameMemoryOutside s t base

/-- A command whose body is a loop of stores over one window. -/
theorem exec_stored {i : Instr} {s : State} {r : Run} {base : Word} {out : Nat → Byte} (hr : s.ready = true)
    (hc : PassesChecks i s) (hb : bodyOf i ⟨s.accept, []⟩ = .ok r)
    (hw : Run.Wrote ⟨s.accept, []⟩ r base.toNat (fun j => j < s.frameLength) out) :
    ∃ t, exec i s = .next t ∧ State.Stored base out s t := by
  obtain ⟨t, ht, rfl, hended, hoperands⟩ := exec_endedWell hr hc hb
  exact ⟨_, ht, hended, hw.value, hoperands, hw.sameStages, hw.sameIndices, hw.sameOutside⟩

/-- The `FRAME` of a command that stored a stage's output there, branch by branch (R131). -/
theorem State.Stored.branch {s t : State} {u : Nat → Byte} {nb fh : Nat}
    (h : State.Stored s.frameBase (stageOutput fh u) s t) (hspan : nb * (2 * fh) = s.frameLength) {g i : Nat}
    (hg : g < nb) (hi : i < fh) :
    t.frame (g * 2 * fh + i) = u (g * 2 * fh + 2 * i) ^^^ u (g * 2 * fh + 2 * i + 1)
      ∧ t.frame (g * 2 * fh + fh + i) = u (g * 2 * fh + 2 * i + 1) := by
  have hle := branch_le (fh := fh) hg
  have frame : ∀ j, j < s.frameLength → t.frame j = stageOutput fh u j := fun j hj => by
    rw [State.frame, State.frameAddr, h.operands.frameBase, h.value j hj]
  rw [Nat.mul_assoc, frame _ (by omega), frame _ (by omega)]
  exact ⟨stageOutput_low hi, stageOutput_high hi⟩

/-- Settles O35: the body of `BFS` stores one stage over the span of its branches, which is the frame. -/
theorem scalarStage : Obligations.ScalarStage := by
  intro s hr hc hp
  obtain ⟨hpv, hst⟩ : StagePasses .bfs s := hc.stage
  have hspan := hp.span hpv hst
  obtain ⟨r, hb, hw⟩ := doBfs_wrote (r := ⟨s.accept, []⟩) hp hc
  obtain ⟨t, ht, h⟩ := exec_stored hr hc hb hw
  exact ⟨by rw [← hspan]; ring, t, ht, h.ended, fun g i hg hi => h.branch hspan hg hi, h.operands, h.stages,
    h.indices, h.memory⟩

/-- Settles O36: the body of `CPB` stores `FRAME` over the window of `TEMP`. -/
theorem copyBack : Obligations.CopyBack := by
  intro s hr hc
  obtain ⟨r, hb, hw⟩ := doCpb_ok (r := ⟨s.accept, []⟩) (PassesChecks.room (r := ⟨s.accept, []⟩) hc rfl rfl)
  obtain ⟨t, ht, h⟩ := exec_stored hr hc hb hw
  refine ⟨t, ht, h.ended, fun i hi => ?_, h.operands, h.stages, h.indices, h.memory⟩
  rw [State.temp, State.tempAddr, h.operands.tempBase]
  exact h.value i hi

/-! ### The whole transforms on the symbols in `TEMP` (R133, R186) -/

/-- What a whole transform leaves of s: n stages of the symbols in `TEMP` in `FRAME`, the first kT in `TEMP`. -/
structure State.Transformed (n kT : Nat) (s t : State) : Prop where
  ended : EndedWell s t
  frame : ∀ j, j < s.frameLength → t.frame j = afterStages n s.temp n j
  temp : ∀ j, j < s.frameLength → t.temp j = afterStages n s.temp kT j
  stages : StagesFinished n t
  operands : SameOperands s t
  indices : SameIndices s t
  memory : SameMemoryOutsideBoth s t

/-- A command whose body is a whole transform. -/
theorem exec_transformed {i : Instr} {s : State} {n kT : Nat} (hr : s.ready = true) (hc : PassesChecks i s)
    (hT : usesTemp i = true) (hF : usesFrame i = true) (htr : Transforms n kT (bodyOf i)) (hn : n ≤ 31)
    (hN : s.frameLength = 2 ^ n) : ∃ t, exec i s = .next t ∧ State.Transformed n kT s t := by
  have room : Run.StageRoom ⟨s.accept, []⟩ (2 ^ n) :=
    hN ▸ PassesChecks.room (r := ⟨s.accept, []⟩) hc hT hF
  obtain ⟨r, hb, hend, hmem⟩ := htr ⟨s.accept, []⟩ hN room
  obtain ⟨t, ht, rfl, hended, hoperands⟩ := exec_endedWell hr hc hb
  refine ⟨_, ht, hended, fun j hj => hmem.frame j (hN ▸ hj), fun j hj => hmem.temp j (hN ▸ hj),
    hend.stagesFinished hn, hoperands, hend.sameIndices, fun a haT haF => hmem.other a ?_ ?_⟩
  · rwa [← hN]
  · rwa [← hN]

/-- Settles O44: the body of `XFS` is the scalar transform. -/
theorem scalarTransform : Obligations.ScalarTransform := by
  intro s n hr hc h1 hn hN
  obtain ⟨t, ht, h⟩ := exec_transformed hr hc rfl rfl (doXfs_transforms h1 hn) hn hN
  exact ⟨t, ht, h.ended, fun j hj => ⟨h.frame j hj, (h.temp j hj).trans (h.frame j hj).symm⟩, h.stages,
    h.operands, h.indices, h.memory⟩

/-! ### The closed form is linear (R136) -/

theorem xorAll_map_xor (l : List Nat) (f g : Nat → Byte) :
    xorAll (l.map fun i => f i ^^^ g i) = xorAll (l.map f) ^^^ xorAll (l.map g) := by
  induction l with
  | nil => exact BitVec.xor_self.symm
  | cons i l ih =>
    calc xorAll ((i :: l).map fun i => f i ^^^ g i)
        = (f i ^^^ g i) ^^^ (xorAll (l.map f) ^^^ xorAll (l.map g)) := by rw [← ih]; rfl
      _ = (f i ^^^ xorAll (l.map f)) ^^^ (g i ^^^ xorAll (l.map g)) := by ac_rfl

theorem transformed_xor (n j : Nat) (u v : Nat → Byte) :
    transformed n (fun i => u i ^^^ v i) j = transformed n u j ^^^ transformed n v j :=
  xorAll_map_xor _ u v

/-- A linear map takes zero, the sum of zero with itself, to zero. -/
theorem transformed_zero (n j : Nat) : transformed n (fun _ => 0) j = 0 := by
  calc transformed n (fun _ => 0) j
      = transformed n (fun _ => 0) j ^^^ transformed n (fun _ => 0) j :=
        transformed_xor n j (fun _ => 0) fun _ => 0
    _ = 0 := BitVec.xor_self

/-- Settles O46: the n stages that `XFS` leaves in `FRAME` are the closed form. -/
theorem transformClosedForm : Obligations.TransformClosedForm := by
  refine ⟨fun s n hr hc h1 hn hN => ?_, transformed_xor, transformed_zero⟩
  obtain ⟨t, ht, h⟩ := exec_transformed hr hc rfl rfl (doXfs_transforms h1 hn) hn hN
  exact ⟨t, ht, h.ended, fun j hj => (h.frame j hj).trans (afterStages_eq_transformed _ (hN ▸ hj))⟩

/-! ### The frame of one symbol (R134) -/

/-- On one symbol `do_XFS()` runs no round: it leaves the stage parameters of a finished frame and `M` as it was. -/
theorem doXfs_oneSymbol {r : Run} (hN : r.st.frameLength = 2 ^ 0) (room : r.StageRoom (2 ^ 0)) :
    ∃ r', doXfs r = .ok r' ∧ State.TransformEnd 0 r.st r'.st ∧ SameMemory r.st r'.st := by
  obtain ⟨r', hb, hend, -, hmem, -⟩ := xfs_run (Nat.zero_le 31) hN room
  exact ⟨r', hb, hend, hmem rfl⟩

/-- Position 0 of the walk takes the value its mask byte selects, whatever overlaps. -/
theorem walk_one {s : State} (hin : s.ValuesInside 1) :
    ∃ m f, s.walk 1 = some (m, f) ∧ m (s.tempAddr 0) = if s.mask 0 ≠ 0 then s.frozen 0 else s.info 0 := by
  have hsource : s.sourceAddr (Memory.read s.mem) 0 0 = s.valueAddr 0 := rfl
  have hvalue : Memory.read s.mem (s.valueAddr 0) = if s.mask 0 ≠ 0 then s.frozen 0 else s.info 0 :=
    (interleaved_eq s 0).symm
  refine ⟨_, _, (walk_succ rfl).trans (if_pos (hsource ▸ hin 0 one_pos)), ?_⟩
  rw [if_pos rfl, hsource, hvalue]

/-- `do_ENS()` on one symbol is the walk and the stage parameters of a finished frame (R134, R182). -/
theorem doEns_oneSymbol {s : State} {m : Nat → Byte} {f : Nat} (hc : PassesChecks .ens s)
    (hN : s.frameLength = 2 ^ 0) (hw : s.walk s.frameLength = some (m, f)) :
    ∃ r, doEns ⟨s.accept, []⟩ = .ok r ∧ StagesFinished 0 r.st ∧ (∀ a, Memory.read r.st.mem a = m a)
      ∧ r.st.frozenIdx.toNat = f ∧ r.st.infoIdx.toNat = s.frameLength - f := by
  obtain ⟨r, hilv, hW⟩ := doIlv_of_walk rfl hc hw
  have ho : SameOperands s r.st := hW.operands
  have hN' : r.st.frameLength = 2 ^ 0 := ho.frameLength.trans hN
  have room := ho.room (r := ⟨s, []⟩) (PassesChecks.room (r := ⟨s, []⟩) hc rfl rfl)
  obtain ⟨r', hxfs, hend, hmem⟩ := doXfs_oneSymbol hN' (hN' ▸ room)
  obtain ⟨hfrozen, hinfo⟩ := hend.sameIndices
  obtain ⟨hf, hz⟩ := hW.indices (walk_bounds hw).1 le_rfl
  refine ⟨r', ?_, hend.stagesFinished (Nat.zero_le 31), fun a => (hmem a).trans (hW.mem a),
    (congrArg BitVec.toNat hfrozen).trans hf, (congrArg BitVec.toNat hinfo).trans hz⟩
  rw [doEns, hilv]
  exact hxfs

/-- No byte of `FRAME` lies in `TEMP` (R63). -/
theorem State.TempFrameApart.frameAddr_not_temp {s : State} (h : s.TempFrameApart) {i : Nat}
    (hi : i < s.frameLength) : ¬ InWindow s.tempBase s.frameLength (s.frameAddr i) := by
  rintro ⟨hlo, hhi⟩
  unfold State.frameAddr at hlo hhi
  rcases h with h | h <;> omega

/-- Settles O45: `XFS` on one symbol runs no round; `ENS` is then the walk of one position. -/
theorem oneSymbolFrame : Obligations.OneSymbolFrame := by
  intro s hr hone
  have hN : s.frameLength = 2 ^ 0 := congrArg BitVec.toNat hone
  constructor
  · intro hc
    obtain ⟨r, hb, hend, hmem⟩ := doXfs_oneSymbol (r := ⟨s.accept, []⟩) hN
      (hN ▸ PassesChecks.room (r := ⟨s.accept, []⟩) hc rfl rfl)
    obtain ⟨t, ht, rfl, hended, hoperands⟩ := exec_endedWell hr hc hb
    have hst : StagesFinished 0 r.st := hend.stagesFinished (Nat.zero_le 31)
    exact ⟨_, ht, hended, BitVec.eq_of_toNat_eq hst.1, hst, hoperands, hend.sameIndices, hmem⟩
  · intro hc hin
    obtain ⟨m, f, hw, hvalue⟩ := walk_one hin
    rw [show 1 = s.frameLength from hN.symm] at hw
    obtain ⟨hle, hwalk⟩ := walk_bounds hw
    obtain ⟨r, hb, hst, hmem, hf, hz⟩ := doEns_oneSymbol hc hN hw
    obtain ⟨t, ht, rfl, hended, hoperands⟩ := exec_endedWell hr hc hb
    have apart : s.TempFrameApart := (PassesChecks.room (r := ⟨s, []⟩) hc rfl rfl).apart
    have hout : SameMemoryOutside s r.st s.tempBase := fun a ha => (hmem a).trans (hwalk a ha)
    refine ⟨_, ht, hended, BitVec.eq_of_toNat_eq hst.1, hst, ?_, ?_, ?_, hoperands, hout⟩
    · rw [State.temp, State.tempAddr, hoperands.tempBase, ← hvalue]
      exact hmem _
    · rw [State.frame, State.frameAddr, hoperands.frameBase]
      exact hout _ (apart.frameAddr_not_temp (hN ▸ one_pos))
    · show r.st.frozenIdx.toNat + r.st.infoIdx.toNat = 1
      omega

end Sys2Proof.Machine
end

section
/-! SUPPORT. The sequence of step commands beside `XFS` (R135): after every command the engine is where the run of
`XFS` would be if it ended there. -/

namespace Sys2Proof.Machine

/-! ### The host's commands follow a command in progress, one `CMD` write at a time (R97) -/

theorem SameOperands.symm {s t : State} (h : SameOperands s t) : SameOperands t s := by
  obtain ⟨hN, hF, hT, hM, hZ, hI, hctrl, htop, hscript, hlisting⟩ := h
  exact ⟨hN.symm, hF.symm, hT.symm, hM.symm, hZ.symm, hI.symm, hctrl.symm, htop.symm, hscript.symm,
    hlisting.symm⟩

/-- States that only the internals and the host's script and listing could tell apart. -/
theorem State.Alike.hostEqual {s t : State} (h : s.Alike t) (ho : SameOperands s t) : HostEqual s t := by
  have hmem := h.mem
  rw [h.regs] at ho hmem ⊢
  exact ⟨rfl, rfl, rfl, rfl, rfl, rfl, rfl, ho, ⟨rfl, rfl⟩, hmem⟩

/-- A command run on the host's engine is one more body of the run. -/
theorem Run.Follows.exec_body {i : Instr} {r r₁ : Run} {s : State} (h : r.Follows s) (hc : PassesChecks i r.st)
    (hb : bodyOf i r = .ok r₁) (he : EndsAlike (bodyOf i) r r₁) :
    ∃ t, exec i s = .next t ∧ r₁.Follows t ∧ SameOperands s t := by
  obtain ⟨t, hstep, hF, -⟩ := (h.withHost (Machine.command i :: s.script) s.listing).command rfl hc hb he
  have hexec : exec i s = .next t := by
    rw [← hstep, step_command rfl (h.withHost _ s.listing).ready]
  obtain ⟨r₂, hb₂, -⟩ := he ⟨s.accept, []⟩ h.accepted
  obtain ⟨t', ht', -, -, ho⟩ := exec_endedWell h.ready (h.accepted.passesChecks hc) hb₂
  obtain rfl : t = t' := Host.Outcome.next.inj (hexec.symm.trans ht')
  exact ⟨t, hexec, hF, ho⟩

/-- From r to r'' the bodies of the commands, one after the other, each with its checks passed. -/
def Run.Through : List Instr → Run → Run → Prop
  | [], r, r'' => r = r''
  | i :: l, r, r'' => ∃ r', PassesChecks i r.st ∧ bodyOf i r = .ok r' ∧ EndsAlike (bodyOf i) r r'
      ∧ Run.Through l r' r''

theorem Run.Through.append {l l' : List Instr} {r r' r'' : Run} (h : Run.Through l r r')
    (k : Run.Through l' r' r'') : Run.Through (l ++ l') r r'' := by
  induction l generalizing r with
  | nil => exact (show r = r' from h) ▸ k
  | cons i l ih =>
    obtain ⟨r₁, hc, hb, he, h₁⟩ := h
    exact ⟨r₁, hc, hb, he, ih h₁⟩

/-- The host's engine goes where the bodies go. -/
theorem Run.Follows.submit_through {l : List Instr} {r r' : Run} {s : State} (h : r.Follows s)
    (hl : Run.Through l r r') : ∃ t, submitAll l s = .next t ∧ r'.Follows t ∧ SameOperands s t := by
  induction l generalizing r s with
  | nil => exact ⟨s, rfl, (show r = r' from hl) ▸ h, SameOperands.refl s⟩
  | cons i l ih =>
    obtain ⟨r₁, hc, hb, he, h₁⟩ := hl
    obtain ⟨s₁, hs₁, hF₁, ho₁⟩ := h.exec_body hc hb he
    obtain ⟨t, ht, hF, ho⟩ := ih hF₁ h₁
    exact ⟨t, (submitAll_cons h.ready hs₁ l).trans ht, hF, ho₁.trans ho⟩

/-! ### The rounds of `do_XFS()` as commands (R133, R135) -/

/-- One pass of the loop is the bodies of `BFS`, `CPB`, `UPD`. -/
theorem scalarRound_through {r : Run} (h : r.st.InLoop 0) (hlt : 0 < r.st.stage.toNat) :
    ∃ r', scalarRound r = .ok r' ∧ Run.Through scalarRoundCommands r r' ∧ r'.st.InLoop 0
      ∧ r'.st.stage.toNat + 1 = r.st.stage.toNat := by
  have hbfs : PassesChecks .bfs r.st := xfsHostLoop_sound.passes _ h hlt
  obtain ⟨r₁, hb₁, he₁, hm₁⟩ := ComputesStage.endsAlike (i := .bfs) doBfs_wrote h.params hbfs
  have h₁ : r₁.st.InLoop 0 := by rw [hm₁]; exact { h with }
  obtain ⟨r₂, hb₂, he₂, hm₂⟩ := doCpb_endsAlike h₁.passes
  have h₂ : r₂.st.InLoop 0 := by rw [hm₂]; exact { h₁ with }
  have hstage : r₂.st.stage = r.st.stage := by rw [hm₂, hm₁]
  rw [← hstage] at hlt ⊢
  have hupd : PassesChecks .upd r₂.st := h₂.passes.part nofun rfl rfl rfl rfl nofun ⟨h₂.pv, hlt⟩
  have hthrough : Run.Through scalarRoundCommands r { r₂ with st := r₂.st.updateStages } :=
    ⟨r₁, hbfs, hb₁, he₁, r₂, h₁.passes, hb₂, he₂, _, hupd, rfl, doUpd_endsAlike r₂, rfl⟩
  refine ⟨_, ?_, hthrough, ⟨h₂.passes, h₂.pv, h₂.params.updateStages h₂.pv hlt, Nat.zero_le _⟩,
    updateStages_stage_toNat hlt⟩
  rw [scalarRound, show doBfs r = .ok r₁ from hb₁]
  simp only [Except.bind, hb₂]
  rfl

/-- The condition of the loop of `do_XFS()` (R133). -/
abbrev stageLeft (stage : Word) : Bool := stage != 0

/-- A pass that lowers `STAGE` by one leaves the rest of the loop to do. -/
theorem whileStage_pass {body : Run → Except Run Run} {r r' : Run} (hb : body r = .ok r')
    (hstage : r'.st.stage.toNat + 1 = r.st.stage.toNat) :
    whileStage stageLeft body r = whileStage stageLeft body r' := by
  have hleft : stageLeft r.st.stage = true := by
    rw [bne_iff_ne]
    intro h0
    rw [h0] at hstage
    cases hstage
  rw [whileStage, ← hstage, whileFuel, if_pos hleft, hb]
  rfl

/-- j rounds of the step commands are j passes of the loop. -/
theorem rounds_through {r : Run} (h : r.st.InLoop 0) {j k : Nat} (hstage : r.st.stage.toNat = j + k) :
    ∃ r', whileStage stageLeft scalarRound r = whileStage stageLeft scalarRound r'
      ∧ Run.Through (repeated j scalarRoundCommands) r r' ∧ r'.st.stage.toNat = k := by
  induction j generalizing r with
  | zero => exact ⟨r, rfl, rfl, hstage.trans (Nat.zero_add k)⟩
  | succ j ih =>
    obtain ⟨r₁, hb, hthrough₁, h₁, hdown⟩ := scalarRound_through h (by omega)
    obtain ⟨r', hwhile, hthrough, hk⟩ := ih h₁ (by omega)
    exact ⟨r', (whileStage_pass hb hdown).trans hwhile, hthrough₁.append hthrough, hk⟩

/-- `LG2` and j rounds on a frame of 2^n symbols, beside the run of `XFS` after j passes of its loop. -/
theorem lg2_rounds {s : State} {n j : Nat} (hr : s.ready = true) (hc : PassesChecks .xfs s) (hn : n ≤ 31)
    (hN : s.frameLength = 2 ^ n) (hj : j ≤ n) :
    ∃ r u, doXfs ⟨s.accept, []⟩ = whileStage stageLeft scalarRound r
      ∧ submitAll (.lg2 :: repeated j scalarRoundCommands) s = .next u ∧ r.Follows u ∧ SameOperands s u
      ∧ r.st.stage.toNat = n - j := by
  have hl : s.SizeLegal := hc.sizeLegal nofun
  have hcpb : PassesChecks .cpb s := hc.part nofun rfl rfl rfl rfl nofun trivial
  have hI : s.accept.deriveStages.InLoop 0 := ⟨hcpb, rfl, hl.deriveStages, Nat.zero_le _⟩
  have hF : Run.Follows ⟨s.accept.deriveStages, []⟩ s.accept.deriveStages.complete.forgetInternal :=
    ⟨⟨rfl, fun _ => rfl⟩, rfl, rfl, ((ready_iff s).1 hr).2⟩
  have hstage : s.accept.deriveStages.stage.toNat = j + (n - j) := by
    rw [State.deriveStages_stage, State.accept_frameSize, log2Reduction_two_pow hn hN, BitVec.toNat_ofNat]
    omega
  obtain ⟨r, hwhile, hthrough, hleft⟩ := rounds_through (r := ⟨s.accept.deriveStages, []⟩) hI hstage
  obtain ⟨u, hu, hFu, ho⟩ := hF.submit_through hthrough
  exact ⟨r, u, hwhile, (submitAll_cons hr (exec_lg2 hl) _).trans hu, hFu,
    (stagesOnly_lg2 hr).operands.trans ho, hleft⟩

/-- Settles O47: after n rounds the loop of `XFS` is at its end, and after j < n it is not. -/
theorem stepEquivalence : Obligations.StepEquivalence := by
  intro s n hr hc hn hN
  constructor
  · obtain ⟨r, u, hb, hu, hF, ho, hstage⟩ := lg2_rounds hr hc hn hN le_rfl
    have hend : bodyOf .xfs ⟨s.accept, []⟩ = .ok r := by
      rw [Nat.sub_self] at hstage
      rw [show bodyOf .xfs ⟨s.accept, []⟩ = _ from hb, whileStage, hstage, whileFuel]
    obtain ⟨t, ht, rfl, -, ho'⟩ := exec_endedWell hr hc hend
    have halike : r.st.complete.forgetInternal.Alike u := ⟨hF.alike.regs, hF.alike.mem⟩
    exact ⟨_, u, ht, hu, halike.hostEqual (ho'.symm.trans ho)⟩
  · intro j hj
    obtain ⟨r, u, -, hu, hF, -, hstage⟩ := lg2_rounds hr hc hn hN hj
    have hsame : u.stage = r.st.stage := by rw [hF.alike.regs]; rfl
    refine ⟨u, hu, ?_⟩
    rw [hsame, ← BitVec.toNat_ne_iff_ne, hstage]
    show n - j ≠ 0 ↔ j < n
    omega

end Sys2Proof.Machine
end

section
/-! SUPPORT. The proofs of the vector datapath family: what each lane primitive leaves in a lane, the entries of
the two permutation tables, and the butterfly of one register. -/

namespace Sys2Proof.Machine

/-! ### The lanes of the primitives and of the masks (R143 to R148) -/

theorem lane_vshr (v : Vec) (d : Nat) {i : Nat} (hi : i < 16) :
    lane (vshr v d) i = if i + d ≤ 15 then lane v (i + d) else 0 :=
  lane_ofFn _ i hi

theorem lane_vand (a b : Vec) {i : Nat} (hi : i < 16) :
    lane (vand a b) i = lane a i &&& lane b i :=
  lane_ofFn _ i hi

theorem lane_vxor (a b : Vec) {i : Nat} (hi : i < 16) :
    lane (vxor a b) i = lane a i ^^^ lane b i :=
  lane_ofFn _ i hi

theorem lane_vperm (v : Vec) (table : List Nat) {j : Nat} (hj : j < 16) :
    lane (vperm v table) j = lane v (table.getD j 0) :=
  lane_ofFn _ j hj

theorem lane_laneMask (d : Nat) {i : Nat} (hi : i < 16) :
    lane (laneMask d) i = if i &&& d = 0 then 0xFF else 0x00 :=
  lane_ofFn _ i hi

/-- R147: each result takes one half of each operand, that of a in lanes 0 to 7 and that of b in lanes 8 to 15. -/
theorem lane_vcat_halves (a b : Vec) {i : Nat} (hi : i < 8) :
    lane (vcatlo a b) i = lane a i ∧ lane (vcatlo a b) (8 + i) = lane b i
      ∧ lane (vcathi a b) i = lane a (8 + i) ∧ lane (vcathi a b) (8 + i) = lane b (8 + i) := by
  have hlow : i < 16 := by omega
  have hhigh : 8 + i < 16 := by omega
  have hupper : ¬ 8 + i < 8 := by omega
  rw [lane_vcatlo a b hlow, lane_vcatlo a b hhigh, lane_vcathi a b hlow, lane_vcathi a b hhigh,
    if_pos hi, if_pos hi, if_neg hupper, if_neg hupper, Nat.add_sub_cancel_left, Nat.add_comm i 8]
  exact ⟨rfl, rfl, rfl, rfl⟩

/-! ### The permutation tables (R149, R150) -/

theorem sepTable_halves : ∀ i < 8, sepTable.getD i 0 = 2 * i ∧ sepTable.getD (8 + i) 0 = 2 * i + 1 := by
  decide

theorem revTable_getD : ∀ i < 16, revTable.getD i 0 = reverseBits 4 i := by decide

theorem reverseBits_four_involutive : ∀ i < 16, reverseBits 4 (reverseBits 4 i) = i := by decide

/-- R149: `SEP` gathers the even lanes into the low half and the odd lanes into the high half. -/
theorem lane_vperm_sepTable (v : Vec) {i : Nat} (hi : i < 8) :
    lane (vperm v sepTable) i = lane v (2 * i) ∧ lane (vperm v sepTable) (8 + i) = lane v (2 * i + 1) := by
  obtain ⟨heven, hodd⟩ := sepTable_halves i hi
  rw [lane_vperm v _ (by omega), lane_vperm v _ (by omega), heven, hodd]
  exact ⟨rfl, rfl⟩

theorem lane_vperm_revTable (v : Vec) {i : Nat} (hi : i < 16) :
    lane (vperm v revTable) i = lane v (reverseBits 4 i) := by
  rw [lane_vperm v _ hi, revTable_getD i hi]

/-- R150: `REV` undoes itself. -/
theorem vperm_revTable_involutive (v : Vec) : vperm (vperm v revTable) revTable = v := by
  refine vec_ext fun i hi => ?_
  rw [lane_vperm_revTable _ hi, lane_vperm_revTable v (reverseBits_lt 4 i),
    reverseBits_four_involutive i hi]

/-! ### The masked shift-XOR step (R151) -/

/-- The partner of an absorbing lane is a lane of the vector, so the zero fill of `VSHR` never shows. -/
theorem absorbed_partner_lt : ∀ d ∈ [1, 2, 4, 8], ∀ i < 16, i &&& d = 0 → i + d < 16 := by decide

/-- Settles O38: the partner of an absorbing lane is in range, and `SEP` after `XSTEP(v, 1)` is the butterfly of
one register. -/
theorem laneButterfly : Obligations.LaneButterfly := by
  intro v
  constructor
  · intro d i hd hi
    exact ⟨rfl, lane_xstep v hi (absorbed_partner_lt d hd i hi)⟩
  · intro k hk
    exact ⟨lane_registerButterfly_low v hk, lane_registerButterfly_high v hk⟩

/-- Settles O37, clause by clause from the lanes of each primitive. -/
theorem lanePrimitives : Obligations.LanePrimitives := fun a b _ hi =>
  ⟨fun d _ => ⟨lane_vshr a d hi, lane_laneMask d hi⟩,
    lane_vand a b hi,
    lane_vxor a b hi,
    fun P => lane_vperm a P hi,
    fun hlow => lane_vcat_halves a b hlow,
    fun hlow => lane_vperm_sepTable a hlow,
    lane_vperm_revTable a hi,
    vperm_revTable_involutive a⟩

end Sys2Proof.Machine
end

section
/-! SUPPORT. The proofs of the macro stage family: `MAC` and `BFS` as the same stores over `FRAME`, and two runs of
the same stores as the host sees them. -/

namespace Sys2Proof.Machine

/-! ### Two commands that store the same -/

/-- `STATUS` holds its four flags and nothing else (R22). -/
theorem Status.eq_of_flags {x y : Status} (hbusy : x.busy = y.busy) (hdone : x.done = y.done)
    (herr : x.err = y.err) (hpv : x.pv = y.pv) : x = y :=
  (Status.mk.injEq ..).mpr ⟨hbusy, hdone, herr, hpv⟩

/-- Commands that end well with the same stores leave states the host cannot tell apart. -/
theorem State.Stored.hostEqual {base : Word} {out : Nat → Byte} {s t u : State} (ht : State.Stored base out s t)
    (hu : State.Stored base out s u) : HostEqual t u := by
  obtain ⟨htBusy, htDone, htErr, htCause, htFinfo⟩ := ht.ended
  obtain ⟨huBusy, huDone, huErr, huCause, huFinfo⟩ := hu.ended
  obtain ⟨htCount, htStage, htHalf, htBranches, htPv⟩ := ht.stages
  obtain ⟨huCount, huStage, huHalf, huBranches, huPv⟩ := hu.stages
  obtain ⟨htFrozen, htInfo⟩ := ht.indices
  obtain ⟨huFrozen, huInfo⟩ := hu.indices
  have hstatus : u.status = t.status := Status.eq_of_flags (huBusy.trans htBusy.symm)
    (huDone.trans htDone.symm) (huErr.trans htErr.symm) (huPv.trans htPv.symm)
  refine ⟨hstatus, huCause.trans htCause.symm, huFinfo.trans htFinfo.symm, huCount.trans htCount.symm,
    huStage.trans htStage.symm, huHalf.trans htHalf.symm, huBranches.trans htBranches.symm,
    ht.operands.symm.trans hu.operands, ⟨huFrozen.trans htFrozen.symm, huInfo.trans htInfo.symm⟩, fun a => ?_⟩
  by_cases ha : InWindow base s.frameLength a
  · obtain ⟨j, rfl⟩ := Nat.exists_eq_add_of_le ha.1
    have hj : j < s.frameLength := Nat.lt_of_add_lt_add_left ha.2
    rw [hu.value j hj, ht.value j hj]
  · rw [hu.memory a ha, ht.memory a ha]

/-- What the host sees of `FRAME` in states it cannot tell apart. -/
theorem HostEqual.frame {t u : State} (h : HostEqual t u) (i : Nat) : t.frame i = u.frame i := by
  obtain ⟨-, -, -, -, -, -, -, ho, -, hmem⟩ := h
  rw [State.frame, State.frame, State.frameAddr, State.frameAddr, ho.frameBase, hmem]

/-! ### `BFS` and `MAC` store the same stage (R131, R161) -/

/-- `BFS` stores one stage of the symbols in `TEMP`. -/
theorem exec_bfs_stored {s : State} (hr : s.ready = true) (hc : PassesChecks .bfs s) (hp : s.StageParams) :
    ∃ t, exec .bfs s = .next t
      ∧ State.Stored s.frameBase (stageOutput s.frameHalf.toNat s.temp) s t := by
  obtain ⟨r, hb, hw⟩ := doBfs_wrote (r := ⟨s.accept, []⟩) hp hc
  exact exec_stored hr hc hb hw

/-- `MAC` stores the same stage, with either `ALN`. -/
theorem exec_mac_stored {s : State} {aln : Bool} (hr : s.ready = true) (hc : PassesChecks (.mac aln) s)
    (hp : s.StageParams) : ∃ t, exec (.mac aln) s = .next t
      ∧ State.Stored s.frameBase (stageOutput s.frameHalf.toNat s.temp) s t := by
  obtain ⟨r, hb, hw⟩ := doMac_wrote (r := ⟨s.accept, []⟩) hp hc
  exact exec_stored hr hc hb hw

/-- The checks of `MAC` are those of `BFS` and more (R212). -/
theorem PassesChecks.bfs_of_mac {s : State} {aln : Bool} (hc : PassesChecks (.mac aln) s) :
    PassesChecks .bfs s := by
  obtain ⟨hsize, -, ⟨hpv, hstage⟩, -, hrange, hoverlap⟩ := hc
  exact ⟨fun _ => hsize nofun, nofun, ⟨hpv, by omega⟩, nofun, hrange, hoverlap⟩

/-- Where `MAC` runs, a half branch is at least one chunk of sixteen and the frame at least one branch (R160). -/
theorem macro_spans {s : State} {aln : Bool} (hc : PassesChecks (.mac aln) s) (hp : s.StageParams) :
    16 ≤ s.frameHalf.toNat ∧ s.frameHalf.toNat % 16 = 0 ∧ 32 ≤ s.frameLength
      ∧ s.numBranches.toNat * (2 * s.frameHalf.toNat) = s.frameLength := by
  obtain ⟨hpv, hstage⟩ : StagePasses (.mac aln) s := hc.stage
  have hmin : 16 ≤ s.frameLength := hc.minimum rfl
  have hspan := hp.span hpv (by omega)
  obtain ⟨q, hq⟩ := hp.frameHalf_chunks hpv hstage
  have hwhole : s.frameLength = 32 * (s.numBranches.toNat * q) := by rw [← hspan, hq]; ring
  have hpos : q ≠ 0 := by
    rintro rfl
    omega
  exact ⟨by omega, by omega, by omega, hspan⟩

/-! ### The obligations -/

/-- Settles O40: the stage that `MAC` stores, read branch by branch over the span of the branches. -/
theorem macroStage : Obligations.MacroStage := by
  intro s aln hr hc hp
  obtain ⟨hhalf, hmod, hlength, hspan⟩ := macro_spans hc hp
  obtain ⟨t, ht, h⟩ := exec_mac_stored hr hc hp
  exact ⟨⟨hhalf, hmod, hlength, by rw [← hspan]; ring⟩, t, ht, h.ended,
    fun g i hg hi => h.branch hspan hg hi, h.operands, h.stages, h.indices, h.memory⟩

/-- Settles O41: where `MAC` passes its checks `BFS` does too, and both store the same stage. -/
theorem macEqualsBfs : Obligations.MacEqualsBfs := by
  intro s aln hr hc hp
  obtain ⟨t, ht, h⟩ := exec_mac_stored hr hc hp
  obtain ⟨u, hu, k⟩ := exec_bfs_stored hr hc.bfs_of_mac hp
  have heq := h.hostEqual k
  exact ⟨t, u, ht, hu, h.ended, fun i _ => heq.frame i, heq, h.operands, h.stages, h.indices, h.memory,
    k.operands, k.stages, k.indices, k.memory⟩

end Sys2Proof.Machine
end

section
/-! SUPPORT. The proofs of the micro stage family: `MIC` and the last rounds of the scalar path as the same stages
of the symbols in `TEMP`, which only the scalar rounds copy back. -/

namespace Sys2Proof.Machine

/-! ### The last stages of a frame (R172) -/

/-- The last n stages of a frame made of whole spans of 2^n read only the frame. -/
theorem afterStages_congr_spans {nb n k j : Nat} {u v : Nat → Byte} (hk : k ≤ n)
    (h : ∀ i, i < nb * 2 ^ n → u i = v i) (hj : j < nb * 2 ^ n) :
    afterStages n u k j = afterStages n v k j := by
  induction k generalizing j with
  | zero => exact h j hj
  | succ k ih =>
    have hspan : nb * 2 ^ k * (2 * 2 ^ (n - 1 - k)) = nb * 2 ^ n := by
      rw [Nat.mul_assoc, show n - 1 - k = n - k - 1 by omega, branches_span hk]
    exact stageOutput_congr (fun i hi => ih (by omega) (hspan ▸ hi)) (hspan ▸ hj)

/-- The last n + 1 stages are the stage of half span 2^n and then the last n. -/
theorem afterStages_succ_first (n k : Nat) (u : Nat → Byte) :
    afterStages (n + 1) u (k + 1) = afterStages n (stageOutput (2 ^ n) u) k := by
  induction k with
  | zero => rfl
  | succ k ih =>
    rw [afterStages, ih, show n + 1 - 1 - (k + 1) = n - 1 - k by omega]
    rfl

/-- The closed form of one chunk of the micro stage (R136, R172). -/
theorem microOutput_chunk (u : Nat → Byte) (g : Nat) {j : Nat} (hj : j < 16) :
    microOutput u (16 * g + j) = transformed 4 (fun i => u (16 * g + i)) j := by
  rw [microOutput, show (16 * g + j) / 16 = g by omega, show (16 * g + j) % 16 = j by omega,
    fusedStages_eq (fun i => u (16 * g + i)) hj]
  exact afterStages_eq_transformed (n := 4) _ hj

/-- The stages of the frame still to come: a span of 2^STAGE for every branch (R34, R35, R38). -/
theorem State.StageParams.spans {s : State} (h : s.StageParams) (hp : s.status.pv = true) :
    s.numBranches.toNat * 2 ^ s.stage.toNat = s.frameLength := by
  obtain ⟨-, hN, hle, hb, -⟩ := h hp
  rw [hb, hN, ← Nat.pow_add, Nat.sub_add_cancel hle]

/-- With no stage to come the stage parameters are those of a finished frame (R34, R35, R38). -/
theorem State.StageParams.finished {s : State} (h : s.StageParams) (hp : s.status.pv = true)
    (hs : s.stage.toNat = 0) : s = s.finishStages := by
  have hspans := h.spans hp
  obtain ⟨-, -, -, -, hf⟩ := h hp
  rw [hs, Nat.pow_zero, Nat.mul_one] at hspans
  rw [if_pos hs] at hf
  have hstage : s.stage = 0 := BitVec.eq_of_toNat_eq hs
  have hhalf : s.frameHalf = 0 := BitVec.eq_of_toNat_eq hf
  have hbranches : s.numBranches = s.frameSize := BitVec.eq_of_toNat_eq hspans
  cases s
  cases hstage
  cases hhalf
  cases hbranches
  rfl

/-- From r to r' the last k stages were done: `FRAME` holds them of the symbols r had in `TEMP`, the stage
parameters are those of a finished frame, and nothing else changed but `TEMP`. -/
structure Run.StagesDone (k : Nat) (r r' : Run) : Prop where
  regs : r'.st = { r.st.finishStages with mem := r'.st.mem }
  frame : ∀ j, j < r.st.frameLength → r'.st.frame j = afterStages k r.st.temp k j
  other : SameMemoryOutsideBoth r.st r'.st

section
variable {k : Nat} {r r' : Run} (h : Run.StagesDone k r r')
include h

theorem Run.StagesDone.operands : SameOperands r.st r'.st := by
  rw [h.regs]
  exact SameOperands.refl r.st

theorem Run.StagesDone.indices : SameIndices r.st r'.st := by
  rw [h.regs]
  exact ⟨rfl, rfl⟩

theorem Run.StagesDone.stages : r'.st.stage = 0 ∧ r'.st.frameHalf = 0 ∧ r'.st.numBranches = r.st.frameSize
    ∧ r'.st.stageCount = r.st.stageCount ∧ r'.st.status.pv = r.st.status.pv := by
  rw [h.regs]
  exact ⟨rfl, rfl, rfl, rfl, rfl⟩

end

theorem Run.Wrote.sameOperands {r r' : Run} {base : Nat} {W : Nat → Prop} {out : Nat → Byte}
    (h : Run.Wrote r r' base W out) : SameOperands r.st r'.st := by
  rw [h.onlyMem]
  exact SameOperands.refl _

/-- `MIC` does the last four stages, and stores to `FRAME` only (R171, R173). -/
theorem doMic_stagesDone {r : Run} {aln : Bool} (hp : r.st.StageParams) (hc : PassesChecks (.mic aln) r.st) :
    ∃ r', doMic aln r = .ok r' ∧ Run.StagesDone 4 r r' ∧ SameMemoryOutside r.st r'.st r.st.frameBase := by
  obtain ⟨r', hb, hw⟩ := doMic_wrote hp hc
  refine ⟨_, hb, ⟨congrArg State.finishStages hw.onlyMem, fun j hj => ?_, fun a _ ha => hw.sameOutside a ha⟩,
    hw.sameOutside⟩
  rw [State.frame, State.frameAddr, State.finishStages_frameBase, hw.sameOperands.frameBase]
  exact (hw.value j hj).trans (microOutput_eq _ j)

/-! ### The last rounds of the scalar path (R133) -/

/-- A stage stored to `FRAME` and then copied back is in both buffers (R131, R132). -/
theorem Run.StageDone.copied {r r₁ r₂ : Run} {fh : Nat} (room : r.StageRoom r.st.frameLength)
    (hw₁ : r.StageDone r₁ fh r.st.frameLength)
    (hw₂ : Run.Wrote r₁ r₂ r₁.st.tempBase.toNat (fun j => j < r₁.st.frameLength) r₁.st.frame) :
    (∀ j, j < r.st.frameLength →
        r₂.st.temp j = stageOutput fh r.st.temp j ∧ r₂.st.frame j = r₂.st.temp j)
      ∧ SameMemoryOutsideBoth r.st r₂.st := by
  have ho₁ := hw₁.sameOperands
  have ho₂ := hw₁.sameOperands.trans hw₂.sameOperands
  rw [ho₁.tempBase, ho₁.frameLength] at hw₂
  refine ⟨fun j hj => ?_, fun a haT haF => (hw₂.sameOutside a haT).trans (hw₁.sameOutside a haF)⟩
  have hstored : r₁.st.frame j = stageOutput fh r.st.temp j := by
    rw [State.frame, State.frameAddr, ho₁.frameBase]
    exact hw₁.value j hj
  have htemp : r₂.st.temp j = r₁.st.frame j := by
    rw [State.temp, State.tempAddr, ho₂.tempBase]
    exact hw₂.value j hj
  have hframe : r₂.st.frame j = r₁.st.frame j := by
    rw [State.frame, State.frame, State.frameAddr, State.frameAddr, ho₁.frameBase, ho₂.frameBase]
    exact hw₂.sameOutside _ (State.TempFrameApart.frameAddr_not_temp room.apart hj)
  exact ⟨htemp.trans hstored, hframe.trans htemp.symm⟩

/-- From r to r' one round of the scalar path with k stages to come after it: the stage of half span 2^k is in
both buffers, the stage parameters are updated, and nothing else changed. -/
structure Run.RoundDone (k : Nat) (r r' : Run) : Prop where
  through : Run.Through scalarRoundCommands r r'
  inLoop : r'.st.InLoop 0
  stage : r'.st.stage.toNat = k
  regs : r'.st = { r.st.updateStages with mem := r'.st.mem }
  buffers : ∀ j, j < r.st.frameLength →
    r'.st.temp j = stageOutput (2 ^ k) r.st.temp j ∧ r'.st.frame j = r'.st.temp j
  other : SameMemoryOutsideBoth r.st r'.st

theorem scalarRound_done {r : Run} {k : Nat} (h : r.st.InLoop 0) (hstage : r.st.stage.toNat = k + 1) :
    ∃ r', Run.RoundDone k r r' := by
  have hlt : 0 < r.st.stage.toNat := by omega
  obtain ⟨r', hb, hthrough, hI, hdown⟩ := scalarRound_through h hlt
  obtain ⟨-, -, -, -, hhalf⟩ := h.params h.pv
  rw [hstage, if_neg k.succ_ne_zero, Nat.add_sub_cancel] at hhalf
  have room := h.passes.room rfl rfl
  obtain ⟨r₁, hb₁, hw₁⟩ := doBfs_wrote h.params (xfsHostLoop_sound.passes _ h hlt)
  obtain ⟨r₂, hb₂, hw₂⟩ := doCpb_ok (hw₁.sameOperands.room room)
  have hend : scalarRound r = .ok { r₂ with st := r₂.st.updateStages } := by
    rw [scalarRound, hb₁]
    simp only [Except.bind, hb₂]
    rfl
  obtain rfl : r' = { r₂ with st := r₂.st.updateStages } := Except.ok.inj (hb.symm.trans hend)
  rw [hhalf] at hw₁
  obtain ⟨hbuffers, hother⟩ := Run.StageDone.copied room hw₁ hw₂
  refine ⟨_, hthrough, hI, by omega, ?_, hbuffers, hother⟩
  show r₂.st.updateStages = { r.st.updateStages with mem := r₂.st.mem }
  rw [hw₂.onlyMem, hw₁.onlyMem]
  rfl

/-- The rounds of the scalar path to the end of the frame, when there is one: they do the stages to come, and leave
them in `TEMP` too. -/
theorem lastRounds_through {r : Run} {k : Nat} (h : r.st.InLoop 0) (hstage : r.st.stage.toNat = k + 1) :
    ∃ r', Run.Through (repeated (k + 1) scalarRoundCommands) r r' ∧ Run.StagesDone (k + 1) r r'
      ∧ ∀ j, j < r.st.frameLength → r'.st.temp j = r'.st.frame j := by
  induction k generalizing r with
  | zero =>
    obtain ⟨r₁, h₁⟩ := scalarRound_done h hstage
    have hfin : r₁.st = r₁.st.finishStages := h₁.inLoop.params.finished h₁.inLoop.pv h₁.stage
    refine ⟨r₁, h₁.through, ⟨?_, fun j hj => ?_, h₁.other⟩, fun j hj => (h₁.buffers j hj).2.symm⟩
    · rw [hfin, h₁.regs]
      rfl
    · obtain ⟨htemp, hframe⟩ := h₁.buffers j hj
      exact hframe.trans htemp
  | succ k ih =>
    obtain ⟨r₁, h₁⟩ := scalarRound_done h hstage
    obtain ⟨r', hthrough, hdone, htemp⟩ := ih h₁.inLoop h₁.stage
    have ho₁ : SameOperands r.st r₁.st := by
      rw [h₁.regs]
      exact SameOperands.refl r.st
    have hspans := h₁.inLoop.params.spans h₁.inLoop.pv
    rw [h₁.stage, ho₁.frameLength] at hspans
    have hother := hdone.other
    have hframe := hdone.frame
    rw [SameMemoryOutsideBoth, ho₁.tempBase, ho₁.frameBase, ho₁.frameLength] at hother
    rw [ho₁.frameLength] at hframe htemp
    refine ⟨r', h₁.through.append hthrough, ⟨?_, fun j hj => ?_, fun a haT haF => ?_⟩, htemp⟩
    · rw [hdone.regs, h₁.regs]
      rfl
    · rw [hframe j hj, afterStages_succ_first (k + 1)]
      rw [← hspans] at hj
      exact afterStages_congr_spans le_rfl (fun i hi => (h₁.buffers i (hspans ▸ hi)).1) hj
    · exact (hother a haT haF).trans (h₁.other a haT haF)

/-! ### The micro stage and the four rounds as the host sees them (R172) -/

/-- No byte of `TEMP` lies in `FRAME` (R63). -/
theorem State.TempFrameApart.tempAddr_not_frame {s : State} (h : s.TempFrameApart) {i : Nat}
    (hi : i < s.frameLength) : ¬ InWindow s.frameBase s.frameLength (s.tempAddr i) := by
  rintro ⟨hlo, hhi⟩
  unfold State.tempAddr at hlo hhi
  rcases h with h | h <;> omega

/-- Where `MIC` passes its checks the scalar rounds can begin (R212). -/
theorem inLoop_of_mic {s : State} {aln : Bool} (hc : PassesChecks (.mic aln) s) (hp : s.StageParams) :
    s.InLoop 0 := by
  obtain ⟨hpv, -⟩ : StagePasses (.mic aln) s := hc.stage
  exact ⟨hc.part nofun rfl rfl rfl rfl nofun trivial, hpv, hp, Nat.zero_le _⟩

/-- The commands of a list with at least one, submitted to a ready engine, go where their bodies go (R21, R97). -/
theorem submit_through {i : Instr} {l : List Instr} {s : State} {r : Run} (hr : s.ready = true)
    (hl : Run.Through (i :: l) ⟨s.accept, []⟩ r) :
    ∃ u, submitAll (i :: l) s = .next u ∧ r.Follows u ∧ SameOperands s u := by
  have hF : Run.Follows ⟨s.accept, []⟩ s.accept.complete := ⟨.refl _, rfl, rfl, ((ready_iff s).1 hr).2⟩
  have hexec : exec i s = exec i s.accept.complete := by
    rw [exec_eq, exec_eq, runCommand, runCommand, State.accept_complete rfl rfl]
  obtain ⟨u, hu, hFu, ho⟩ := hF.submit_through hl
  refine ⟨u, ?_, hFu, ho⟩
  rw [← hu, submitAll, submitAll, submit_encode hr, submit_encode hF.ready, hexec]

section
variable {k : Nat} {r r₁ r₂ : Run} (h₁ : Run.StagesDone k r r₁)
include h₁

/-- Two runs that did the same stages of the same symbols differ in `TEMP` only. -/
theorem Run.StagesDone.sameMemory (h₂ : Run.StagesDone k r r₂) :
    SameMemoryOutside r₁.st r₂.st r₁.st.tempBase := by
  have ho₁ := h₁.operands
  have ho₂ := h₂.operands
  rw [SameMemoryOutside, ho₁.tempBase, ho₁.frameLength]
  intro a haT
  by_cases haF : InWindow r.st.frameBase r.st.frameLength a
  · obtain ⟨j, rfl⟩ := Nat.exists_eq_add_of_le haF.1
    have hj : j < r.st.frameLength := Nat.lt_of_add_lt_add_left haF.2
    have hframe : r₂.st.frame j = r₁.st.frame j := (h₂.frame j hj).trans (h₁.frame j hj).symm
    rwa [State.frame, State.frame, State.frameAddr, State.frameAddr, ho₁.frameBase, ho₂.frameBase] at hframe
  · exact (h₂.other a haT haF).trans (h₁.other a haT haF).symm

/-- So do the states in which the host sees them, when their commands have ended. -/
theorem Run.StagesDone.equalButTemp {t u : State} (h₂ : Run.StagesDone k r r₂) (ht : r₁.st.complete.Alike t)
    (hu : r₂.st.complete.Alike u) (ho : SameOperands t u) : EqualButTemp t u := by
  have hregs : u = { t with
      internal := u.internal, mem := u.mem, draws := u.draws, script := u.script, listing := u.listing } := by
    rw [hu.regs, ht.regs, h₂.regs, h₁.regs]
    rfl
  have hmem : SameMemoryOutside t u t.tempBase := by
    rw [SameMemoryOutside, ht.frameLength, ht.tempBase]
    exact fun a ha => (hu.mem a).trans ((h₁.sameMemory h₂ a ha).trans (ht.mem a).symm)
  rw [hregs] at ho hmem ⊢
  exact ⟨rfl, rfl, rfl, rfl, rfl, rfl, rfl, ho, ⟨rfl, rfl⟩, hmem⟩

end

/-! ### The obligations -/

/-- Settles O42: `MIC` does the last four stages, which are the closed form on each chunk of sixteen. -/
theorem microStage : Obligations.MicroStage := by
  intro s aln hr hc hp
  obtain ⟨hpv, hstage⟩ : StagePasses (.mic aln) s := hc.stage
  have hspan := hp.span_micro hpv hstage
  have hhalf : s.frameHalf.toNat = 8 := by
    obtain ⟨-, -, -, -, hhalf⟩ := hp hpv
    rw [hhalf, hstage]
    rfl
  obtain ⟨r, hb, hdone, hout⟩ := doMic_stagesDone (r := ⟨s.accept, []⟩) hp hc
  obtain ⟨t, ht, rfl, hended, hoperands⟩ := exec_endedWell hr hc hb
  obtain ⟨hend, hhalfEnd, hbranches, hcount, hpvEnd⟩ := hdone.stages
  refine ⟨⟨hhalf, by omega⟩, _, ht, hended, fun g j hg hj => ?_, hend, hhalfEnd, hbranches, hcount,
    hpvEnd.trans hpv, hoperands, hdone.indices, hout⟩
  have hframe := hdone.frame (16 * g + j) (show 16 * g + j < s.frameLength by omega)
  exact hframe.trans ((microOutput_eq _ _).symm.trans (microOutput_chunk s.temp g hj))

/-- Settles O43: from the same run `MIC` and the four rounds do the last four stages; `MIC` stores to `FRAME` only,
the rounds leave `TEMP` equal to it. -/
theorem micEqualsFourScalarRounds : Obligations.MicEqualsFourScalarRounds := by
  intro s aln hr hc hp
  obtain ⟨-, hstage⟩ : StagePasses (.mic aln) s := hc.stage
  have apart : s.TempFrameApart := (PassesChecks.room (r := ⟨s, []⟩) hc rfl rfl).apart
  obtain ⟨r₁, hb, h₁, hout⟩ := doMic_stagesDone (r := ⟨s.accept, []⟩) hp hc
  obtain ⟨t, ht, rfl, -, hot⟩ := exec_endedWell hr hc hb
  obtain ⟨r₂, hthrough, h₂, htemp⟩ := lastRounds_through (r := ⟨s.accept, []⟩) (inLoop_of_mic hc hp) hstage
  obtain ⟨u, hu, hF, hou⟩ := submit_through hr hthrough
  have halike : r₁.st.complete.Alike r₁.st.complete.forgetInternal := ⟨rfl, fun _ => rfl⟩
  have hframe : u.frame = r₂.st.frame := hF.alike.frame
  have hutemp : u.temp = r₂.st.temp := hF.alike.temp
  refine ⟨_, u, ht, hu, fun i hi => ?_, h₁.equalButTemp h₂ halike hF.alike (hot.symm.trans hou),
    fun i hi => ⟨?_, ?_⟩⟩
  · rw [hframe]
    exact (h₁.frame i hi).trans (h₂.frame i hi).symm
  · rw [State.temp, State.tempAddr, hot.tempBase]
    exact hout _ (apart.tempAddr_not_frame hi)
  · rw [hframe, hutemp]
    exact htemp i hi

end Sys2Proof.Machine
end

section
/-! SUPPORT. The proofs of the transform and encode family: how a command ends, and two commands that leave the
same stages in `FRAME` as the host sees them. -/

namespace Sys2Proof.Machine

/-! ### The end of a command (R200, R201) -/

/-- The flags and the cause of a command that ended by a fault: `BUSY` 0, `DONE` 0, `ERR` 1, a cause (R201). -/
def EndedByFault (t : State) : Prop :=
  t.status.busy = false ∧ t.status.done = false ∧ t.status.err = true ∧ t.cause ≠ .none

/-- Every command a ready engine accepts ends well or by a fault, its operands as they were (R200, R187, R62): a check
fails, or the body goes through, or it breaks by `BUS_ERROR`. -/
theorem exec_ends (i : Instr) {s : State} (hr : s.ready = true) :
    ∃ t, exec i s = .next t ∧ SameOperands s t ∧ (EndedWell s t ∨ EndedByFault t) := by
  refine ⟨_, exec_eq i s, ?_⟩
  rcases runCommand_cases (c := checksOf i) (bodyOf_lawful i) s with
    ⟨f, hf, hst⟩ | ⟨r, -, hwent, hst⟩ | ⟨r, a, hwent, hst⟩ <;> rw [hst]
  · exact ⟨SameOperands.refl s, .inr ⟨rfl, rfl, rfl, (checkPhase_cause hf).1⟩⟩
  · exact ⟨hwent.operands,
      .inl ⟨rfl, rfl, hwent.err.trans ((ready_iff s).1 hr).2, hwent.cause, hwent.finfo⟩⟩
  · exact ⟨hwent.operands, .inr ⟨rfl, hwent.done, rfl, nofun⟩⟩

/-- Settles O19: a good end and an end by a fault each set one of `DONE` and `ERR`. -/
theorem commandEndsDoneOrErr : Obligations.CommandEndsDoneOrErr := by
  intro i s hr
  obtain ⟨t, ht, hoperands, hend⟩ := exec_ends i hr
  refine ⟨t, ht, ?_⟩
  rcases hend with ⟨hbusy, hdone, herr, hcause, hfinfo⟩ | ⟨hbusy, hdone, herr, hcause⟩
  · exact ⟨hbusy, by simp [hdone, herr], fun _ => ⟨hcause, hfinfo⟩, by simp [herr], hoperands⟩
  · exact ⟨hbusy, by simp [hdone, herr], by simp [herr], fun _ => hcause, hoperands⟩

/-! ### The vector transform (R180, R186) -/

/-- The minimum-size check of a command of format V asks for at least four stages (R206). -/
theorem PassesChecks.four_le {i : Instr} {s : State} {n : Nat} (hc : PassesChecks i s)
    (hi : opTakesFlag i.op = true) (hN : s.frameLength = 2 ^ n) : 4 ≤ n :=
  four_le_of_sixteen_le (hN ▸ hc.minimum hi)

/-- Settles O48: the body of `XFV` is the vector transform, which copies all stages but the last four back. -/
theorem vectorTransform : Obligations.VectorTransform := by
  intro s aln n hr hc hn hN
  have h4 : 4 ≤ n := hc.four_le rfl hN
  obtain ⟨t, ht, h⟩ := exec_transformed hr hc rfl rfl (doXfv_transforms h4 hn aln) hn hN
  exact ⟨h4, t, ht, h.ended, fun j hj => ⟨h.frame j hj, h.temp j hj⟩, h.stages, h.operands, h.indices, h.memory⟩

/-! ### Commands that leave the same stages in `FRAME` (R185) -/

/-- What a transform or an encode leaves of s but for `TEMP` and the indices: x in `FRAME`, the stage parameters of
a finished frame, and the rest of `M` as it was. -/
structure State.FrameDone (n : Nat) (x : Nat → Byte) (s t : State) : Prop where
  ended : EndedWell s t
  frame : ∀ j, j < s.frameLength → t.frame j = x j
  stages : StagesFinished n t
  operands : SameOperands s t
  memory : SameMemoryOutsideBoth s t

theorem State.Transformed.frameDone {s t : State} {n kT : Nat} (h : State.Transformed n kT s t) :
    State.FrameDone n (afterStages n s.temp n) s t := { h with }

theorem State.Encoded.frameDone {s t : State} {n kT f : Nat} {m : Nat → Byte} (h : State.Encoded n kT f m s t) :
    State.FrameDone n (afterStages n (fun i => m (s.tempAddr i)) n) s t := { h with }

section
variable {n : Nat} {x : Nat → Byte} {s t u : State} (ht : State.FrameDone n x s t) (hu : State.FrameDone n x s u)
include ht hu

theorem State.FrameDone.frame_eq {i : Nat} (hi : i < s.frameLength) : t.frame i = u.frame i :=
  (ht.frame i hi).trans (hu.frame i hi).symm

/-- Outside `TEMP` the two ends differ neither in `FRAME` nor elsewhere. -/
theorem State.FrameDone.sameMemory : SameMemoryOutside t u t.tempBase := by
  rw [SameMemoryOutside, ht.operands.tempBase, ht.operands.frameLength]
  intro a haT
  by_cases haF : InWindow s.frameBase s.frameLength a
  · obtain ⟨j, rfl⟩ := Nat.exists_eq_add_of_le haF.1
    have hframe := hu.frame_eq ht (Nat.lt_of_add_lt_add_left haF.2)
    rwa [State.frame, State.frame, State.frameAddr, State.frameAddr, ht.operands.frameBase,
      hu.operands.frameBase] at hframe
  · exact (hu.memory a haT haF).trans (ht.memory a haT haF).symm

/-- The two ends differ in `TEMP` only, when the indices agree. -/
theorem State.FrameDone.equalButTemp (hi : SameIndices t u) : EqualButTemp t u := by
  obtain ⟨htBusy, htDone, htErr, htCause, htFinfo⟩ := ht.ended
  obtain ⟨huBusy, huDone, huErr, huCause, huFinfo⟩ := hu.ended
  obtain ⟨htCount, htStage, htHalf, htBranches, htPv⟩ := ht.stages
  obtain ⟨huCount, huStage, huHalf, huBranches, huPv⟩ := hu.stages
  have ho : SameOperands t u := ht.operands.symm.trans hu.operands
  have hsize : u.frameSize = t.frameSize := ho.1
  exact ⟨Status.eq_of_flags (huBusy.trans htBusy.symm) (huDone.trans htDone.symm) (huErr.trans htErr.symm)
      (huPv.trans htPv.symm),
    huCause.trans htCause.symm, huFinfo.trans htFinfo.symm, BitVec.eq_of_toNat_eq (huCount.trans htCount.symm),
    huStage.trans htStage.symm, huHalf.trans htHalf.symm, huBranches.trans (hsize.trans htBranches.symm), ho, hi,
    ht.sameMemory hu⟩

end

theorem EqualButTemp.refl (s : State) : EqualButTemp s s :=
  ⟨rfl, rfl, rfl, rfl, rfl, rfl, rfl, SameOperands.refl s, ⟨rfl, rfl⟩, fun _ _ => rfl⟩

/-! ### The scalar and the vector variant (R185) -/

/-- Two commands end with equal `FRAME[0..N-1]` and equal but for `TEMP` (R185). -/
def AgreeButTemp (i j : Instr) (s : State) : Prop :=
  ∃ t u, exec i s = .next t ∧ exec j s = .next u ∧ EqualButTemp t u
    ∧ ∀ k, k < s.frameLength → t.frame k = u.frame k

/-- The checks of `ENV` are those of `ENS` and more (R212). -/
theorem PassesChecks.ens_of_env {s : State} {aln : Bool} (hc : PassesChecks (.env aln) s) :
    PassesChecks .ens s := by
  obtain ⟨hsize, -, -, -, hrange, hoverlap⟩ := hc
  exact ⟨fun _ => hsize nofun, nofun, trivial, nofun, hrange, hoverlap⟩

/-- The checks of `XFV` are those of `XFS` and more (R212). -/
theorem PassesChecks.xfs_of_xfv {s : State} {aln : Bool} (hc : PassesChecks (.xfv aln) s) :
    PassesChecks .xfs s := hc.part nofun rfl rfl rfl rfl nofun trivial

/-- The two transforms leave the same stages in `FRAME`. -/
theorem xfs_xfv_agree {s : State} {aln : Bool} (hr : s.ready = true) (hc : PassesChecks (.xfv aln) s) :
    AgreeButTemp .xfs (.xfv aln) s := by
  obtain ⟨n, hn, hN⟩ := hc.sizeLegal nofun
  have h4 : 4 ≤ n := hc.four_le rfl hN
  obtain ⟨t, ht, h⟩ := exec_transformed hr hc.xfs_of_xfv rfl rfl (doXfs_transforms (by omega) hn) hn hN
  obtain ⟨u, hu, k⟩ := exec_transformed hr hc rfl rfl (doXfv_transforms h4 hn aln) hn hN
  obtain ⟨htFrozen, htInfo⟩ := h.indices
  obtain ⟨huFrozen, huInfo⟩ := k.indices
  exact ⟨t, u, ht, hu,
    h.frameDone.equalButTemp k.frameDone ⟨huFrozen.trans htFrozen.symm, huInfo.trans htInfo.symm⟩,
    fun _ => h.frameDone.frame_eq k.frameDone⟩

/-- Where the walk gets to the end of the frame, so do the two encodes. -/
theorem ens_env_agree_of_walk {s : State} {aln : Bool} {m : Nat → Byte} {f : Nat} (hr : s.ready = true)
    (hc : PassesChecks (.env aln) s) (hw : s.walk s.frameLength = some (m, f)) :
    AgreeButTemp .ens (.env aln) s := by
  obtain ⟨n, hn, hN⟩ := hc.sizeLegal nofun
  have h4 : 4 ≤ n := hc.four_le rfl hN
  obtain ⟨t, ht, h⟩ := exec_encoded hr hc.ens_of_env rfl rfl (fun _ => rfl) (doXfs_transforms (by omega) hn) hn
    hN hw
  obtain ⟨u, hu, k⟩ := exec_encoded hr hc rfl rfl (fun _ => rfl) (doXfv_transforms h4 hn aln) hn hN hw
  exact ⟨t, u, ht, hu,
    h.frameDone.equalButTemp k.frameDone ⟨BitVec.eq_of_toNat_eq (k.frozenIdx.trans h.frozenIdx.symm),
      BitVec.eq_of_toNat_eq (k.infoIdx.trans h.infoIdx.symm)⟩,
    fun _ => h.frameDone.frame_eq k.frameDone⟩

/-- Where `do_ILV()` breaks, both encodes end there, before any stage (R123, R182, R183). -/
theorem ens_env_agree_of_broken {s : State} {aln : Bool} {r : Run} (hc : PassesChecks (.env aln) s)
    (hb : doIlv ⟨s.accept, []⟩ = .error r) : AgreeButTemp .ens (.env aln) s := by
  have hens : bodyOf .ens ⟨s.accept, []⟩ = .error r := by
    rw [bodyOf, doEns, hb]
    rfl
  have henv : bodyOf (.env aln) ⟨s.accept, []⟩ = .error r := by
    rw [bodyOf, doEnv, hb]
    rfl
  exact ⟨_, _, exec_broken hc.ens_of_env hens, exec_broken hc henv, EqualButTemp.refl _, fun _ _ => rfl⟩

/-- Settles O51: both encodes interleave alike, to the end of the frame or to the same `BUS_ERROR`, and the two
transforms leave the same stages in `FRAME`. -/
theorem variantsAgree : Obligations.VariantsAgree := by
  refine fun s aln hr => ⟨fun hc => ?_, xfs_xfv_agree hr⟩
  have hends := doIlv_ends (r := ⟨s.accept, []⟩) rfl (hc.fitsMask rfl).1 (hc.fitsMask rfl).2
  cases hb : doIlv ⟨s.accept, []⟩ with
  | ok r =>
    rw [hb] at hends
    obtain ⟨f, m, hw, -⟩ := hends
    exact ens_env_agree_of_walk hr hc ((walk_accept s _).symm.trans hw)
  | error r => exact ens_env_agree_of_broken hc hb

end Sys2Proof.Machine
end

section
/-! SUPPORT. The proofs of the exceptions family: which check fails first and what it reports, the three ways a
command ends, where a body can break, and the interrupt output. -/

namespace Sys2Proof.Machine

/-! ### The rows of R212 in the terms of the statements -/

theorem checksOf_frameSize (i : Instr) : (checksOf i).frameSize = true ↔ i ≠ .upd := by
  cases i <;> simp [checksOf]

theorem checksOf_minSize (i : Instr) : (checksOf i).minSize = opTakesFlag i.op := by
  cases i <;> rfl

theorem checksOf_aligned (i : Instr) : (checksOf i).aligned = i.flag := by
  cases i <;> rfl

theorem checksOf_temp (i : Instr) : (checksOf i).temp = usesTemp i := by
  cases i <;> rfl

theorem checksOf_frame (i : Instr) : (checksOf i).frame = usesFrame i := by
  cases i <;> rfl

theorem checksOf_mask (i : Instr) : (checksOf i).mask = usesMask i := by
  cases i <;> rfl

theorem checksOf_overlap (i : Instr) : (checksOf i).overlap = (usesTemp i && usesFrame i) := by
  cases i <;> rfl

theorem stagePasses_iff (i : Instr) (s : State) :
    StagePasses i s ↔ ((checksOf i).stage ≠ .notUsed →
      s.status.pv = true ∧ stageMeets (checksOf i).stage s.stage = true) := by
  cases i <;> simp [StagePasses, checksOf, stageMeets]

/-! ### What a failing check reports (R205 to R210) -/

theorem onlyIf_applied {b : Bool} (h : b = true) (o : Option Failure) : onlyIf b o = o := if_pos h

theorem checkFrameSize_some {s : State} (h : s.SizeBad) :
    checkFrameSize s = some (.badFrameSize, s.frameSize.toNat) :=
  if_neg fun hl => (sizeBad_iff s).2 ((legalFrameSize_iff s).1 hl) h

theorem checkMinSize_some {s : State} (h : s.frameLength < 16) :
    checkMinSize s = some (.frameTooSmall, s.frameSize.toNat) := if_pos h

theorem checkStage_some {need : StageNeed} {s : State}
    (h : ¬ (s.status.pv = true ∧ stageMeets need s.stage = true)) :
    checkStage need s = some (.badStage, s.stage.toNat) := if_neg (by rwa [Bool.and_eq_true])

theorem checkAligned_some {base : Word} (h : base.toNat % 16 ≠ 0) :
    checkAligned base = some (.misaligned, base.toNat) := if_neg h

theorem checkWindow_some {base : Word} {s : State} (h : s.memSize < base.toNat + s.frameLength) :
    checkWindow base s = some (.outOfRange, base.toNat) := if_neg (Nat.not_le.2 h)

theorem checkOverlap_some {s : State} (h : ¬ s.TempFrameApart) :
    checkOverlap s = some (.overlap, s.tempBase.toNat) := if_neg (by rwa [disjoint_iff])

/-! ### The checks a command passes, in their order (R203) -/

/-- A window the command does not use, or that lies in `M`, is not reported (R209). -/
theorem windowCheck_none {b : Bool} {base : Word} {s : State} (h : b = true → s.Fits base) :
    onlyIf b (checkWindow base s) = none :=
  (onlyIf_none _ _).2 fun hb => (checkWindow_none base s).2 (h hb)

section
variable {i : Instr} {s : State}

theorem SizePasses.check_none (h : SizePasses i s) :
    onlyIf (checksOf i).frameSize (checkFrameSize s) = none :=
  (onlyIf_none _ _).2 fun hi => (checkFrameSize_none s).2 ((sizeBad_iff s).1 (h ((checksOf_frameSize i).1 hi)))

theorem MinimumPasses.check_none (h : MinimumPasses i s) :
    onlyIf (checksOf i).minSize (checkMinSize s) = none :=
  (onlyIf_none _ _).2 fun hi => (checkMinSize_none s).2 (h ((checksOf_minSize i).symm.trans hi))

theorem StagePasses.check_none (h : StagePasses i s) :
    onlyIf ((checksOf i).stage != .notUsed) (checkStage (checksOf i).stage s) = none :=
  (onlyIf_none _ _).2 fun hi => (checkStage_none _ s).2 ((stagePasses_iff i s).1 h (bne_iff_ne.1 hi))

theorem State.AlignedIf.check_none {aln : Bool} (h : s.AlignedIf aln) :
    onlyIf aln (checkAligned s.tempBase) = none ∧ onlyIf aln (checkAligned s.frameBase) = none :=
  ⟨(onlyIf_none _ _).2 fun ha => (checkAligned_none _).2 (h ha).1,
    (onlyIf_none _ _).2 fun ha => (checkAligned_none _).2 (h ha).2⟩

/-- The check phase once the size and the stage are accepted. -/
theorem checkPhase_of_stagePasses (hsize : SizePasses i s) (hmin : MinimumPasses i s) (hst : StagePasses i s) :
    checkPhase (checksOf i) s = firstFailing
      [ onlyIf i.flag (checkAligned s.tempBase),
        onlyIf i.flag (checkAligned s.frameBase),
        onlyIf (usesTemp i) (checkWindow s.tempBase s),
        onlyIf (usesFrame i) (checkWindow s.frameBase s),
        onlyIf (usesMask i) (checkWindow s.maskBase s),
        onlyIf (usesTemp i && usesFrame i) (checkOverlap s) ] := by
  rw [checkPhase, hsize.check_none, hmin.check_none, hst.check_none, checksOf_aligned, checksOf_temp,
    checksOf_frame, checksOf_mask, checksOf_overlap]
  rfl

/-- The check phase once the alignment is accepted too. -/
theorem checkPhase_of_alignedIf (hsize : SizePasses i s) (hmin : MinimumPasses i s) (hst : StagePasses i s)
    (haln : s.AlignedIf i.flag) :
    checkPhase (checksOf i) s = firstFailing
      [ onlyIf (usesTemp i) (checkWindow s.tempBase s),
        onlyIf (usesFrame i) (checkWindow s.frameBase s),
        onlyIf (usesMask i) (checkWindow s.maskBase s),
        onlyIf (usesTemp i && usesFrame i) (checkOverlap s) ] := by
  rw [checkPhase_of_stagePasses hsize hmin hst, haln.check_none.1, haln.check_none.2]
  rfl

/-- A failing check whose information word is a register (R201, R223). -/
theorem exec_faulted {c : Cause} {info : Word} (h : checkPhase (checksOf i) s = some (c, info.toNat)) :
    exec i s = .next (s.faulted c info) := by
  rw [exec_failed h, BitVec.ofNat_toNat, BitVec.setWidth_eq]

/-- The stage check fails, the earlier ones having passed (R207). -/
theorem exec_badStage (hsize : SizePasses i s) (hmin : MinimumPasses i s) (hst : ¬ StagePasses i s) :
    exec i s = .next (s.faulted .badStage s.stage) := by
  rw [stagePasses_iff, Classical.not_imp] at hst
  obtain ⟨hneed, hfails⟩ := hst
  refine exec_faulted ?_
  rw [checkPhase, hsize.check_none, hmin.check_none, onlyIf_applied (bne_iff_ne.2 hneed),
    checkStage_some hfails]
  rfl

end

/-- A legal size passes the size check of every command (R205). -/
theorem State.SizeLegal.sizePasses {s : State} (h : s.SizeLegal) (i : Instr) : SizePasses i s :=
  fun _ => (sizeBad_iff s).2 h

/-! ### Each check of the check phase -/

/-- Settles O20: the size check is the first. -/
theorem badFrameSizeFault : Obligations.BadFrameSizeFault := by
  intro i s _ hi hbad
  refine exec_faulted ?_
  rw [checkPhase, onlyIf_applied ((checksOf_frameSize i).2 hi), checkFrameSize_some hbad, firstFailing_some]

/-- Settles O21: the size check passes, and the minimum-size check is the next. -/
theorem frameTooSmallFault : Obligations.FrameTooSmallFault := by
  intro i s _ hi hl hlt
  refine exec_faulted ?_
  rw [checkPhase, (hl.sizePasses i).check_none, onlyIf_applied ((checksOf_minSize i).trans hi),
    checkMinSize_some hlt]
  rfl

/-- Settles O22: each of the four step commands on `PV` = 0 or a `STAGE` it does not accept. -/
theorem badStageFault : Obligations.BadStageFault := by
  intro s aln _
  have fails : ∀ {P : Prop}, s.status.pv = false ∨ ¬ P → ¬ (s.status.pv = true ∧ P) := by
    rintro P (hpv | hP) ⟨hpv', hP'⟩
    · exact Bool.false_ne_true (hpv.symm.trans hpv')
    · exact hP hP'
  refine ⟨fun hbad => ?_, fun hl h16 => ⟨fun hbad => ?_, fun hbad => ?_⟩⟩
  · have hst := fails (hbad.imp_right Nat.not_le.2)
    exact ⟨exec_badStage (i := .upd) (absurd rfl) nofun hst,
      fun hl => exec_badStage (hl.sizePasses .bfs) nofun hst⟩
  · exact exec_badStage (hl.sizePasses _) (fun _ => h16) (fails (hbad.imp_right Nat.not_le.2))
  · exact exec_badStage (hl.sizePasses _) (fun _ => h16) (fails hbad)

/-- Settles O24: the windows are checked in the order `TEMP`, `FRAME`, `MASK`. -/
theorem outOfRangeFault : Obligations.OutOfRangeFault := by
  intro i s _ hsize hmin hst haln
  have hphase := checkPhase_of_alignedIf hsize hmin hst haln
  refine ⟨fun hT hout => ?_, fun hF hfitT hout => ?_, fun hM hfitT hfitF hout => ?_⟩ <;>
    refine exec_faulted (hphase.trans ?_)
  · rw [onlyIf_applied hT, checkWindow_some hout, firstFailing_some]
  · rw [windowCheck_none fun _ => hfitT, onlyIf_applied hF, checkWindow_some hout]
    rfl
  · rw [windowCheck_none fun _ => hfitT, windowCheck_none hfitF, onlyIf_applied hM, checkWindow_some hout]
    rfl

/-- Settles O25: the overlap check is the last. -/
theorem overlapFault : Obligations.OverlapFault := by
  intro i s _ hT hF hsize hmin hst haln ⟨hfitT, hfitF, hfitM⟩ hoverlap
  have hboth : (usesTemp i && usesFrame i) = true := by rw [hT, hF]; rfl
  refine exec_faulted ((checkPhase_of_alignedIf hsize hmin hst haln).trans ?_)
  rw [windowCheck_none hfitT, windowCheck_none hfitF, windowCheck_none hfitM, onlyIf_applied hboth,
    checkOverlap_some hoverlap]
  rfl

/-! ### The ways a command ends (R200, R201, R223) -/

/-- What a body leaves that broke by `BUS_ERROR`: the flags of a fault, and the operands as they were (R201, R223). -/
theorem bodyOf_broken {i : Instr} {s : State} {r : Run} (hb : bodyOf i ⟨s.accept, []⟩ = .error r) :
    SameOperands s r.st ∧ r.st.status.busy = false ∧ r.st.status.done = false ∧ r.st.status.err = true
      ∧ r.st.cause = .busError := by
  have hlaw := bodyOf_lawful i ⟨s.accept, []⟩
  rw [hb] at hlaw
  obtain ⟨r₀, a, hwent, rfl⟩ := hlaw
  exact ⟨hwent.operands, rfl, hwent.done, rfl, rfl⟩

/-- Every end of a command a ready engine accepts: well, by a failing check, or by a body that broke. -/
theorem exec_cases {i : Instr} {s t : State} (hr : s.ready = true) (ht : exec i s = .next t) :
    EndedWell s t
      ∨ (∃ f, checkPhase (checksOf i) s = some f ∧ t = s.faulted f.1 (BitVec.ofNat 32 f.2))
      ∨ (PassesChecks i s ∧ ∃ r, bodyOf i ⟨s.accept, []⟩ = .error r ∧ t = r.st.forgetInternal) := by
  cases hphase : checkPhase (checksOf i) s with
  | some f => exact .inr (.inl ⟨f, rfl, Host.Outcome.next.inj (ht.symm.trans (exec_failed hphase))⟩)
  | none =>
    have hc := (checkPhase_passes i s).1 hphase
    cases hb : bodyOf i ⟨s.accept, []⟩ with
    | ok r =>
      obtain ⟨t', ht', -, hended, -⟩ := exec_endedWell hr hc hb
      cases ht.symm.trans ht'
      exact .inl hended
    | error r => exact .inr (.inr ⟨hc, r, rfl, Host.Outcome.next.inj (ht.symm.trans (exec_broken hc hb))⟩)

/-- Settles O26: with every check passed the body goes through, or breaks by `BUS_ERROR`. -/
theorem passedChecksRaiseNothing : Obligations.PassedChecksRaiseNothing := by
  intro i s hr hc
  refine ⟨_, exec_eq i s, ?_⟩
  rcases exec_cases hr (exec_eq i s) with hended | ⟨f, hf, -⟩ | ⟨-, r, hb, ht⟩
  · exact .inl hended
  · rw [(checkPhase_passes i s).2 hc] at hf
    cases hf
  · obtain ⟨-, -, -, herr, hcause⟩ := bodyOf_broken hb
    exact .inr (ht ▸ ⟨herr, hcause⟩)

/-- Settles O27: an illegal word and a failing check are precise; a body that broke left the operands alone. -/
theorem faultsArePrecise : Obligations.FaultsArePrecise := by
  intro w s t hr ht herr
  rw [submit_ready hr, acceptWord] at ht
  split at ht
  · rcases exec_cases hr ht with ⟨-, -, hnot, -⟩ | ⟨f, -, rfl⟩ | ⟨-, r, hb, rfl⟩
    · rw [hnot] at herr
      cases herr
    · exact ⟨fun _ => rfl, rfl, rfl, rfl, rfl, rfl, rfl, rfl, rfl⟩
    · obtain ⟨⟨hN, hF, hT, hM, hfrozen, hinfo, -⟩, hbusy, hdone, -, hcause⟩ := bodyOf_broken hb
      exact ⟨absurd hcause, hbusy, hdone, hN, hF, hT, hM, hfrozen, hinfo⟩
  · cases ht
    exact ⟨fun _ => rfl, rfl, rfl, rfl, rfl, rfl, rfl, rfl, rfl⟩

/-- A check phase that does not look at the alignment does not report it (R208). -/
theorem checkPhase_cause_ne_misaligned {c : Checks} {s : State} {f : Failure} (ha : c.aligned = false)
    (h : checkPhase c s = some f) : f.1 ≠ .misaligned := by
  have hmem := firstFailing_mem h
  simp only [List.mem_cons, List.not_mem_nil, or_false, false_or, ha, onlyIf, Bool.false_eq_true, false_and,
    checkFrameSize, checkMinSize, checkStage, checkWindow, checkOverlap, Option.some_eq_ite_none_right,
    Option.some_eq_ite_none_left, Option.some.injEq] at hmem
  rcases hmem with ⟨-, -, rfl⟩ | ⟨-, -, rfl⟩ | ⟨-, -, rfl⟩ | ⟨-, -, rfl⟩ | ⟨-, -, rfl⟩ | ⟨-, -, rfl⟩ | ⟨-, -, rfl⟩ <;>
    exact nofun

/-- Settles O23: the alignment is checked after the stage, `TEMP` first, and only with `ALN` set. -/
theorem misalignedFault : Obligations.MisalignedFault := by
  refine ⟨fun i s _ hflag hsize hmin hst => ?_, fun i s t hr hflag hcause ht => ?_⟩
  · have hphase := checkPhase_of_stagePasses hsize hmin hst
    rw [hflag] at hphase
    refine ⟨fun hT => exec_faulted (hphase.trans ?_), fun hT hF => exec_faulted (hphase.trans ?_)⟩
    · rw [onlyIf_applied rfl, checkAligned_some hT, firstFailing_some]
    · rw [onlyIf_applied rfl, onlyIf_applied rfl, (checkAligned_none _).2 hT, checkAligned_some hF]
      rfl
  · rcases exec_cases hr ht with ⟨-, -, -, hkept, -⟩ | ⟨f, hf, rfl⟩ | ⟨-, r, hb, rfl⟩
    · rwa [hkept]
    · exact checkPhase_cause_ne_misaligned ((checksOf_aligned i).trans hflag) hf
    · obtain ⟨-, -, -, -, hbus⟩ := bodyOf_broken hb
      exact fun h => nomatch hbus.symm.trans h

/-! ### Where a body can break (R211) -/

/-- The walk stops inside the frame, at a position whose value's address is outside `M` (R123, R211). -/
def State.WalkStops (s : State) : Prop :=
  ∃ k f m, k < s.frameLength ∧ s.walk k = some (m, f) ∧ s.memSize ≤ s.sourceAddr m f k

theorem walkStops_accept {s : State} (h : s.accept.WalkStops) : s.WalkStops := by
  obtain ⟨k, f, m, hk, hw, hout⟩ := h
  exact ⟨k, f, m, hk, (walk_accept s k).symm.trans hw, hout⟩

/-- A body that is known to go through. -/
theorem ends_of_exists_ok {x : Except Run Run} {P E : Run → Prop} (h : ∃ r, x = .ok r ∧ P r) :
    Ends x (fun _ => True) E := by
  obtain ⟨r, rfl, -⟩ := h
  trivial

/-- A body whose checks passed goes through, unless its walk stops: no other access of it leaves `M` (R211). The
commands with a stage condition need consistent stage parameters. -/
theorem bodyOf_ends {i : Instr} {r : Run} (hlog : r.log = [])
    (hp : (checksOf i).stage ≠ .notUsed → r.st.StageParams) (hc : PassesChecks i r.st) :
    Ends (bodyOf i r) (fun _ => True) fun _ => usesMask i = true ∧ r.st.WalkStops := by
  have hilv : usesMask i = true → Ends (doIlv r) (fun r' => SameOperands r.st r'.st)
      fun _ => usesMask i = true ∧ r.st.WalkStops := fun hm => by
    refine (doIlv_ends hlog (hc.fitsMask hm).1 (hc.fitsMask hm).2).mono ?_ ?_
    · rintro r' ⟨f, m, -, hW⟩
      exact hW.operands
    · rintro _ ⟨k, f, m, -, hk, hw, hout, -, -⟩
      exact ⟨hm, k, f, m, hk, hw, hout⟩
  cases i with
  | lg2 => trivial
  | ilv => exact (hilv rfl).mono (fun _ _ => trivial) fun _ h => h
  | bfs => exact ends_of_exists_ok (doBfs_wrote (hp nofun) hc)
  | cpb => exact ends_of_exists_ok (doCpb_ok (hc.room rfl rfl))
  | upd => trivial
  | mac aln => exact ends_of_exists_ok (doMac_wrote (hp nofun) hc)
  | mic aln =>
    obtain ⟨r', hb, -⟩ := doMic_wrote (hp nofun) hc
    rw [bodyOf, hb]
    trivial
  | xfs => exact ends_of_exists_ok (doXfs_sameOutside (hc.sizeLegal nofun) (hc.room rfl rfl))
  | xfv aln => exact ends_of_exists_ok (doXfv_sameOutside (hc.sizeLegal nofun) (hc.minimum rfl) (hc.room rfl rfl))
  | ens =>
    exact (hilv rfl).bind fun r' ho =>
      ends_of_exists_ok (doXfs_sameOutside (ho.sizeLegal (hc.sizeLegal nofun)) (ho.room (hc.room rfl rfl)))
  | env aln =>
    exact (hilv rfl).bind fun r' ho =>
      ends_of_exists_ok (doXfv_sameOutside (ho.sizeLegal (hc.sizeLegal nofun)) (ho.frameLength ▸ hc.minimum rfl)
        (ho.room (hc.room rfl rfl)))

/-- A `BUS_ERROR` comes after the checks, at a position where the walk stops (R203, R211). -/
theorem walkStops_of_busError {i : Instr} {s t : State} (hr : s.ready = true)
    (hp : (checksOf i).stage ≠ .notUsed → s.StageParams) (hs : s.cause ≠ .busError)
    (ht : exec i s = .next t) (hbus : t.cause = .busError) :
    PassesChecks i s ∧ usesMask i = true ∧ s.WalkStops := by
  rcases exec_cases hr ht with ⟨-, -, -, hkept, -⟩ | ⟨f, hf, rfl⟩ | ⟨hc, r, hb, -⟩
  · exact absurd (hkept.symm.trans hbus) hs
  · exact absurd hbus (checkPhase_cause hf).2
  · have hends := bodyOf_ends (r := ⟨s.accept, []⟩) rfl hp hc
    rw [hb] at hends
    obtain ⟨hm, hstops⟩ := hends
    exact ⟨hc, hm, walkStops_accept hstops⟩

/-- Where `do_ILV()` breaks, so does every command that interleaves (R123, R182, R183). -/
theorem bodyOf_error_of_doIlv {i : Instr} {r r' : Run} (hm : usesMask i = true) (hb : doIlv r = .error r') :
    bodyOf i r = .error r' := by
  have hbind : ∀ g : Run → Except Run Run, (doIlv r).bind g = .error r' := fun g => by rw [hb]; rfl
  cases i with
  | ilv => exact hb
  | ens => exact hbind doXfs
  | env aln => exact hbind (doXfv aln)
  | lg2 | bfs | cpb | upd | mac _ | mic _ | xfs | xfv _ => cases hm

/-- The commands that interleave (R212). -/
theorem interleaves_of_usesMask {i : Instr} (h : usesMask i = true) :
    i = .ilv ∨ i = .ens ∨ ∃ aln, i = .env aln := by
  cases i <;> simp_all [usesMask]

/-- The commands that interleave have no stage condition (R212). -/
theorem stage_notUsed_of_usesMask {i : Instr} (h : usesMask i = true) : (checksOf i).stage = .notUsed := by
  rcases interleaves_of_usesMask h with rfl | rfl | ⟨aln, rfl⟩ <;> rfl

/-- A command whose walk stops at position k ends there by `BUS_ERROR` (R211). -/
theorem exec_broken_of_walk {i : Instr} {s : State} {k f : Nat} {m : Nat → Byte} (hm : usesMask i = true)
    (hc : PassesChecks i s) (hk : k < s.frameLength) (hw : s.walk k = some (m, f))
    (hout : s.memSize ≤ s.sourceAddr m f k) :
    ∃ r, exec i s = .next (r.st.raise .busError (s.sourceAddr m f k)).forgetInternal
      ∧ Run.Walked s.accept k f m r := by
  obtain ⟨r, hb, hW⟩ := doIlv_broken (r := ⟨s.accept, []⟩) rfl hk (hc.fitsMask hm).1 (hc.fitsMask hm).2
    ((walk_accept s k).trans hw) hout
  exact ⟨r, exec_broken hc (bodyOf_error_of_doIlv hm hb), hW⟩

/-- Settles O28: `do_ILV()` raises it where the walk stops, before any stage, and no other access does. -/
theorem interleaverBusError : Obligations.InterleaverBusError := by
  refine ⟨fun i s k f m _ hm hc hk hw hout => ?_, fun i s t hr hp hs ht hbus => ?_,
    fun i s t hr hm hs ht hbus => ?_⟩
  · obtain ⟨r, ht, hW⟩ := exec_broken_of_walk hm hc hk hw hout
    obtain ⟨hle, hkept⟩ := walk_bounds hw
    obtain ⟨hfrozen, hinfo⟩ := hW.indices hle hk.le
    refine ⟨_, ht, ?_, rfl, rfl, hfrozen, hinfo, hW.operands, hW.stages, hW.mem,
      fun a ha => (hW.mem a).trans (hkept a ha)⟩
    show { r.st.status with err := true, busy := false } = _
    rw [hW.regs]
    rfl
  · obtain ⟨-, hm, -⟩ := walkStops_of_busError hr (fun _ => hp) hs ht hbus
    exact interleaves_of_usesMask hm
  · obtain ⟨hc, -, hstops⟩ :=
      walkStops_of_busError hr (absurd (stage_notUsed_of_usesMask hm)) hs ht hbus
    exact ⟨hc, hstops⟩

/-! ### Correct inputs (R213, R214) -/

/-- Frozen and info windows in `M` hold the value of every position (R61, R123). -/
theorem valuesInside_of_counts {s : State} (hfrozen : s.frozenBase.toNat + s.frozenCount ≤ s.memSize)
    (hinfo : s.infoBase.toNat + s.infoCount ≤ s.memSize) : s.ValuesInside s.frameLength := by
  intro i hi
  have hle := frozenBefore_le s i
  have hnext := frozenBefore_succ s i
  obtain ⟨hlo, hhi⟩ := frozenBefore_between s (show i + 1 ≤ s.frameLength from hi)
  unfold State.infoCount State.frozenCount at hinfo
  unfold State.frozenCount at hfrozen
  unfold State.valueAddr State.frozenAddr State.infoAddr
  split at hnext
  · rw [if_pos ‹_›]
    omega
  · rw [if_neg ‹_›]
    omega

/-- A walk that reaches the end of the frame stops nowhere in it. -/
theorem not_walkStops {s : State} (hMA : Apart s.tempBase s.frameLength s.maskBase s.frameLength)
    (hin : s.ValuesInside s.frameLength) : ¬ s.WalkStops := by
  rintro ⟨k, f, m, hk, hw, hout⟩
  have hsource := (walk_source hk hMA hw (walk_mask_apart hk.le hMA hw)).2
  have := hin k hk
  omega

/-- A command without a stage condition ends well when its checks pass and its walk, if it has one, does not
stop. -/
theorem exec_endedWell_of_checks {i : Instr} {s : State} (hr : s.ready = true) (hc : PassesChecks i s)
    (hst : (checksOf i).stage = .notUsed) (hw : usesMask i = true → ¬ s.WalkStops) :
    ∃ t, exec i s = .next t ∧ EndedWell s t := by
  have hends := bodyOf_ends (r := ⟨s.accept, []⟩) rfl (absurd hst) hc
  cases hb : bodyOf i ⟨s.accept, []⟩ with
  | ok r =>
    obtain ⟨t, ht, -, hended, -⟩ := exec_endedWell hr hc hb
    exact ⟨t, ht, hended⟩
  | error r =>
    rw [hb] at hends
    exact absurd (walkStops_accept hends.2) (hw hends.1)

/-- The contract of the operands is what the checks of a command without a stage condition ask for (R212, R214). -/
theorem State.ScalarContract.passesChecks {i : Instr} {s : State} (h : s.ScalarContract)
    (hst : StagePasses i s) (hmin : MinimumPasses i s) (haln : s.AlignedIf i.flag)
    (hM : usesMask i = true → s.Fits s.maskBase) : PassesChecks i s := by
  obtain ⟨hl, hT, hF, hapart⟩ := h
  exact ⟨hl.sizePasses i, hmin, hst, haln, ⟨fun _ => hT, fun _ => hF, hM⟩, fun _ _ => hapart⟩

/-- Settles O52: the contract makes the checks pass, and the values in `M` let the walk reach the end. -/
theorem noFaultFromCorrectInputs : Obligations.NoFaultFromCorrectInputs := by
  intro s aln hr h
  refine ⟨?_, fun h16 haln => ?_, fun hM hMA hfrozen hinfo => ?_⟩
  · exact exec_endedWell_of_checks hr (h.passesChecks trivial nofun nofun nofun) rfl nofun
  · exact exec_endedWell_of_checks hr (h.passesChecks trivial (fun _ => h16) haln nofun) rfl nofun
  · have hw := not_walkStops hMA (valuesInside_of_counts hfrozen hinfo)
    refine ⟨?_, fun h16 haln => ?_⟩
    · exact exec_endedWell_of_checks hr (h.passesChecks trivial nofun nofun fun _ => hM) rfl fun _ => hw
    · exact exec_endedWell_of_checks hr (h.passesChecks trivial (fun _ => h16) haln fun _ => hM) rfl fun _ => hw

/-! ### The interrupt output (R220) -/

theorem irq_iff (s : State) :
    s.irq = true ↔
      (s.status.done = true ∧ s.ctrl.ieDone = true) ∨ (s.status.err = true ∧ s.ctrl.ieErr = true) := by
  simp [State.irq]

/-- With `DONE` clear only the `ERR` part is left. -/
theorem irq_of_not_done {s : State} (h : s.status.done = false) :
    s.irq = true ↔ s.status.err = true ∧ s.ctrl.ieErr = true := by
  simp [irq_iff, h]

/-- Settles O18: what each of the four leaves of `DONE`, `ERR` and the two enables. -/
theorem interruptOutput : Obligations.InterruptOutput := by
  refine fun s => ⟨irq_iff s, fun hb => ?_, irq_of_not_done rfl, fun hb => ?_, rfl⟩
  · exact ⟨_, portWrite_reg (r := .status) hb nofun 0x2, irq_of_not_done rfl⟩
  · refine ⟨_, portWrite_reg (r := .ctrl) hb nofun 0x1, (irq_iff _).trans ?_⟩
    show (s.status.done = true ∧ true = true) ∨ (s.status.err = true ∧ false = true) ↔ _
    simp

end Sys2Proof.Machine
end

section
/-! SUPPORT. The proofs of the reset family: a hard reset between steps, what the host can do to a fault that
stands, and the bytes of `M` after a hard reset during a command. -/

namespace Sys2Proof.Machine

/-! ### Hard reset between steps (R240) -/

/-- The step that takes a hard reset off the script. -/
theorem step_hardReset {s : State} {rest : List HostMove} (hs : s.script = .hardReset :: rest) :
    step s = .next ({ s with script := rest } : State).resetRegisters := step_move hs

/-- A step with nothing left for the host to do (R233). -/
theorem step_idle {s : State} (hs : s.script = []) : step s = .next s := by
  unfold step nextMove
  rw [hs]

/-- Settles O14: the reset of the registers leaves the other fields of the state. -/
theorem hardReset : Obligations.HardReset :=
  ⟨fun _ _ hs => ⟨_, step_hardReset hs, resetRegisters_reset _, rfl, rfl, rfl, rfl, rfl, rfl⟩,
    fun _ => step_idle⟩

/-! ### A fault that stands (R224, R241) -/

/-- From s to t a fault stands as it was recorded (R23, R24). -/
structure State.FaultStands (s t : State) : Prop where
  err : t.status.err = s.status.err
  cause : t.cause = s.cause
  finfo : t.finfo = s.finfo

theorem State.FaultStands.refl (s : State) : s.FaultStands s := ⟨rfl, rfl, rfl⟩

theorem State.FaultStands.trans {s t u : State} (h : s.FaultStands t) (k : t.FaultStands u) :
    s.FaultStands u :=
  ⟨k.err.trans h.err, k.cause.trans h.cause, k.finfo.trans h.finfo⟩

theorem State.Touched.faultStands {s t : State} (h : s.Touched t) : s.FaultStands t := by
  rw [h.same]
  exact ⟨rfl, rfl, rfl⟩

theorem writeStatus_faultStands (w : Word) (s : State) : s.FaultStands (s.writeStatus w) := by
  unfold State.writeStatus
  split <;> exact ⟨rfl, rfl, rfl⟩

/-- A register write clears a fault only by `SRST` (R22, R25, R241). -/
theorem writeReg_faultStands {r : Reg} {w : Word} (h : r = .ctrl → w.getLsbD 31 = false) (s : State) :
    s.FaultStands (writeReg r w s) := by
  cases r with
  | status => exact writeStatus_faultStands w s
  | ctrl =>
    show s.FaultStands (s.writeCtrl w)
    rw [writeCtrl_enables (h rfl)]
    exact ⟨rfl, rfl, rfl⟩
  | frameSize | frameBase | tempBase | maskBase | frozenBase | infoBase => exact ⟨rfl, rfl, rfl⟩
  | cmd | cause | finfo | stageCount | stage | frameHalf | numBranches | frozenIdx | infoIdx =>
    exact State.FaultStands.refl s

theorem not_ready_of_err {s : State} (he : s.status.err = true) : s.ready = false := by
  simp [State.ready, he]

/-- The port takes one aligned 32-bit word inside the block only (R39). -/
theorem portRefusal_none {offset size : Nat} (h : portRefusal offset size = none) :
    size = 4 ∧ offset % 4 = 0 ∧ offset ≤ 0xFF := by
  unfold portRefusal at h
  split at h
  · cases h
  · split at h
    · cases h
    · omega

/-- A write the port does not refuse is an aligned word of the block. -/
theorem portWrite_aligned {offset size : Nat} {w : Word} {s t : State}
    (h : portWrite offset size w s = .next t) : size = 4 ∧ offset % 4 = 0 ∧ offset ≤ 0xFF := by
  cases hp : portRefusal offset size with
  | some why => simp [portWrite, hp] at h
  | none => exact portRefusal_none hp

/-- With `ERR` = 1 a port write but for `SRST` lets the fault stand: `CMD` is not accepted (R21). -/
theorem portWrite_faultStands {offset size : Nat} {w : Word} {s t : State} (he : s.status.err = true)
    (hw : offset = 0x10 → w.getLsbD 31 = false) (h : portWrite offset size w s = .next t) :
    s.FaultStands t := by
  obtain ⟨rfl, ha, hle⟩ := portWrite_aligned h
  cases hr : regAt offset with
  | none =>
    rw [portWrite_reserved ha hle hr] at h
    cases h
    exact State.FaultStands.refl s
  | some r =>
    obtain rfl := offset_of_regAt ha hr
    cases hb : s.status.busy with
    | true =>
      rw [portWrite_busy hb ha hle] at h
      cases h
      exact State.FaultStands.refl s
    | false =>
      by_cases hcmd : r = .cmd
      · subst hcmd
        rw [Reg.offset, portWrite_cmd hb, submit_not_ready (not_ready_of_err he)] at h
        cases h
        exact State.FaultStands.refl s
      · rw [portWrite_reg hb hcmd] at h
        cases h
        exact writeReg_faultStands (fun hctrl => hw (by rw [hctrl]; rfl)) s

/-- With `ERR` = 1 an access of the host that is no reset lets the fault stand. -/
theorem hostAccess_faultStands {c : Running} {a : HostAccess} {s t : State} (he : s.status.err = true)
    (ha : a.resets = false) (h : hostAccess c a s = .next t) : s.FaultStands t := by
  cases a with
  | write offset size w =>
    exact portWrite_faultStands he (fun hoff => by simpa [HostAccess.resets, hoff] using ha) h
  | read offset size => exact (portRead_touched h).faultStands
  | memWrite addr bytes => exact (hostMemWrite_touched h).faultStands
  | memRead addr => exact (hostMemRead_touched h).faultStands
  | senseIrq =>
    cases h
    exact (show_touched _ s).faultStands

theorem hostAccesses_faultStands {c : Running} {l : List HostAccess} {s t : State} (he : s.status.err = true)
    (hl : ∀ a ∈ l, a.resets = false) (h : hostAccesses c l s = .next t) : s.FaultStands t := by
  induction l generalizing c s with
  | nil =>
    cases h
    exact State.FaultStands.refl _
  | cons a l ih =>
    obtain ⟨s', h₁, h₂⟩ := andThen_eq_next h
    have hs' := hostAccess_faultStands he (hl a List.mem_cons_self) h₁
    exact hs'.trans (ih (hs'.err.trans he) (fun x hx => hl x (List.mem_cons_of_mem _ hx)) h₂)

/-- With `ERR` = 1 no command is accepted, so only the accesses take place (R21). -/
theorem commandDuring_faultStands {w : Word} {during : List HostAccess} {s t : State} (he : s.status.err = true)
    (hl : ∀ a ∈ during, a.resets = false) (h : commandDuring w during false s = .next t) :
    s.FaultStands t := by
  unfold commandDuring at h
  rw [not_ready_of_err he] at h
  obtain ⟨s', h₁, h₂⟩ := andThen_eq_next h
  cases h₂
  exact hostAccesses_faultStands he hl h₁

theorem push_faultStands (moves : List HostMove) (s : State) : s.FaultStands (s.push moves) :=
  ⟨rfl, rfl, rfl⟩

theorem onStage_faultStands (next : Nat → List HostMove) (s : State) : s.FaultStands (onStage next s) :=
  ((observeReg_touched _ _ s).trans (show_touched _ _)).faultStands.trans (push_faultStands _ _)

/-- With `ERR` = 1 a move of the host that contains no reset lets the fault stand. -/
theorem hostMove_faultStands {m : HostMove} {s t : State} (he : s.status.err = true) (hm : m.resets = false)
    (h : hostMove m s = .next t) : s.FaultStands t := by
  cases m with
  | access a => exact hostAccess_faultStands he hm h
  | commandDuring w during hardReset =>
    obtain ⟨rfl, hl⟩ : hardReset = false ∧ during.any HostAccess.resets = false := by
      simpa only [HostMove.resets, Bool.or_eq_false_iff] using hm
    exact commandDuring_faultStands he (by simpa using hl) h
  | hardReset => cases hm
  | encode variant frame temp mask frozen info n =>
    cases h
    exact push_faultStands _ _
  | xfsSteps | xfvSteps =>
    cases h
    exact push_faultStands _ _
  | xfsLoop | xfvLoop =>
    cases h
    exact onStage_faultStands _ s

/-! ### Soft reset (R241) -/

/-- Settles O15: a `CTRL` write with `SRST` is `resetRegisters`, as hard reset is, and no other access or
command clears a fault. -/
theorem softReset : Obligations.SoftReset := by
  refine ⟨fun s w rest hs hw => ⟨fun hb => ?_, fun hb => ?_⟩, fun s t m rest hs hm he h => ?_⟩
  · have soft : step s = .next ({ s with script := rest } : State).resetRegisters :=
      (step_move hs).trans (portWrite_srst (s := { s with script := rest }) hb hw)
    exact ⟨soft.trans (step_hardReset (s := { s with script := .hardReset :: rest }) rfl).symm,
      _, soft, resetRegisters_reset _, rfl⟩
  · exact (step_move hs).trans
      (portWrite_busy (offset := 0x10) (s := { s with script := rest }) hb rfl (by decide) w)
  · rw [step_move hs] at h
    have stands := hostMove_faultStands (s := { s with script := rest }) he hm h
    exact ⟨stands.err.trans he, stands.cause, stands.finfo⟩

/-! ### The addresses a command stores to (R62, R65) -/

/-- Every byte the command has stored so far lies at an address of `W`. -/
def Run.LogsIn (r : Run) (W : Nat → Prop) : Prop := ∀ c ∈ r.log, W c.1

theorem Run.LogsIn.mono {r : Run} {W V : Nat → Prop} (h : r.LogsIn W) (hWV : ∀ a, W a → V a) :
    r.LogsIn V := fun c hc => hWV c.1 (h c hc)

theorem Run.LogsIn.of_empty {r : Run} (h : r.log = []) (W : Nat → Prop) : r.LogsIn W := by
  unfold Run.LogsIn
  rw [h]
  exact nofun

/-- A loop of stores to the offsets below n logs the window of n bytes. -/
theorem Run.Wrote.logsIn {r r' : Run} {base : Word} {n : Nat} {out : Nat → Byte} {W : Nat → Prop}
    (h : Run.Wrote r r' base.toNat (fun j => j < n) out) (hr : r.LogsIn W)
    (hW : ∀ a, InWindow base n a → W a) : r'.LogsIn W := fun c hc => by
  rcases h.logged c hc with h₁ | ⟨j, hj, he⟩
  · exact hr c h₁
  · exact hW c.1 ⟨by omega, by omega⟩

/-- The walk of the interleaver logs `TEMP` (R121). -/
theorem Run.Walked.logsIn {s : State} {k f : Nat} {m : Nat → Byte} {r : Run} (h : Run.Walked s k f m r)
    (hk : k ≤ s.frameLength) : r.LogsIn (InWindow s.tempBase s.frameLength) := fun c hc =>
  have ⟨hlo, hhi⟩ := h.logged c hc
  ⟨hlo, by omega⟩

theorem doIlv_logsIn {r : Run} (hl : r.log = []) (hT : r.st.Fits r.st.tempBase)
    (hM : r.st.Fits r.st.maskBase) :
    Ends (doIlv r)
      (fun r' => r'.LogsIn (InWindow r.st.tempBase r.st.frameLength) ∧ SameOperands r.st r'.st)
      fun r' => r'.LogsIn (InWindow r.st.tempBase r.st.frameLength) := by
  refine (doIlv_ends hl hT hM).mono ?_ ?_
  · rintro r' ⟨f, m, -, hr⟩
    refine ⟨hr.logsIn le_rfl, ?_⟩
    rw [hr.regs]
    exact SameOperands.refl _
  · rintro _ ⟨k, f, m, r₀, hk, -, -, hr, rfl⟩
    exact hr.logsIn hk.le

section
variable {r : Run} {W : Nat → Prop} (hr : r.LogsIn W) (hW : ∀ a, r.st.InBoth a → W a)
include hr hW

theorem doXfs_logsIn (hl : r.st.SizeLegal) (room : r.StageRoom r.st.frameLength) :
    ∃ r', doXfs r = .ok r' ∧ r'.LogsIn W := by
  obtain ⟨n, hn, hN⟩ := hl
  obtain ⟨r', hb, -, -, -, -, hlog⟩ := xfs_run hn hN (hN ▸ room)
  rw [← hN] at hlog
  exact ⟨r', hb, fun c hc => (hlog c hc).elim (hr c) (hW c.1)⟩

theorem doXfv_logsIn {aln : Bool} (hl : r.st.SizeLegal) (h16 : 16 ≤ r.st.frameLength)
    (room : r.StageRoom r.st.frameLength) : ∃ r', doXfv aln r = .ok r' ∧ r'.LogsIn W := by
  obtain ⟨n, hn, hN⟩ := hl
  obtain ⟨r', hb, -, -, -, hlog⟩ :=
    xfv_run (aln := aln) (four_le_of_sixteen_le (hN ▸ h16)) hn hN (hN ▸ room)
  rw [← hN] at hlog
  exact ⟨r', hb, fun c hc => (hlog c hc).elim (hr c) (hW c.1)⟩

end

/-- A command that writes both windows may write both of any state with its operands. -/
theorem Writable.both {i : Instr} {s t : State} (ho : SameOperands s t) (hT : writesTemp i = true)
    (hF : writesFrame i = true) : ∀ a, t.InBoth a → Writable i s a := fun a ha => by
  rw [State.InBoth, ho.tempBase, ho.frameBase, ho.frameLength] at ha
  exact ha.elim (Writable.temp hT a) (Writable.frame hF a)

/-- A body that goes through meets what it is known to leave. -/
theorem Ends.of_ok {x : Except Run Run} {P E : Run → Prop} (h : ∃ r, x = .ok r ∧ P r) : Ends x P E := by
  obtain ⟨r, rfl, hr⟩ := h
  exact hr

/-- Every body whose checks passed stores only where R65 lets it, whether it goes on or breaks. -/
theorem bodyOf_logsIn {i : Instr} {r : Run} (hl : r.log = []) (hp : r.st.StageParams)
    (hc : PassesChecks i r.st) :
    Ends (bodyOf i r) (fun r' => r'.LogsIn (Writable i r.st)) fun r' => r'.LogsIn (Writable i r.st) := by
  have start : ∀ W, r.LogsIn W := Run.LogsIn.of_empty hl
  have hilv : usesMask i = true → writesTemp i = true →
      Ends (doIlv r) (fun r' => r'.LogsIn (Writable i r.st) ∧ SameOperands r.st r'.st)
        fun r' => r'.LogsIn (Writable i r.st) := fun hm hw =>
    (doIlv_logsIn hl (hc.fitsMask hm).1 (hc.fitsMask hm).2).mono
      (fun _ h => ⟨h.1.mono (Writable.temp hw), h.2⟩) fun _ h => h.mono (Writable.temp hw)
  cases i with
  | lg2 | upd => exact start _
  | ilv => exact (hilv rfl rfl).mono (fun _ h => h.1) fun _ h => h
  | bfs =>
    obtain ⟨r', hb, hw⟩ := doBfs_wrote hp hc
    exact Ends.of_ok ⟨r', hb, hw.logsIn (start _) (Writable.frame rfl)⟩
  | cpb =>
    obtain ⟨r', hb, hw⟩ := doCpb_ok (hc.room rfl rfl)
    exact Ends.of_ok ⟨r', hb, hw.logsIn (start _) (Writable.temp rfl)⟩
  | mac aln =>
    obtain ⟨r', hb, hw⟩ := doMac_wrote hp hc
    exact Ends.of_ok ⟨r', hb, hw.logsIn (start _) (Writable.frame rfl)⟩
  | mic aln =>
    obtain ⟨r', hb, hw⟩ := doMic_wrote hp hc
    exact Ends.of_ok ⟨_, hb, hw.logsIn (start _) (Writable.frame rfl)⟩
  | xfs =>
    exact Ends.of_ok (doXfs_logsIn (start _) (Writable.both (SameOperands.refl _) rfl rfl)
      (hc.sizeLegal nofun) (hc.room rfl rfl))
  | xfv aln =>
    exact Ends.of_ok (doXfv_logsIn (start _) (Writable.both (SameOperands.refl _) rfl rfl)
      (hc.sizeLegal nofun) (hc.minimum rfl) (hc.room rfl rfl))
  | ens =>
    exact Ends.bind (hilv rfl rfl) fun r₁ ⟨h₁, ho⟩ =>
      Ends.of_ok (doXfs_logsIn h₁ (Writable.both ho rfl rfl) (ho.sizeLegal (hc.sizeLegal nofun))
        (ho.room (hc.room rfl rfl)))
  | env aln =>
    exact Ends.bind (hilv rfl rfl) fun r₁ ⟨h₁, ho⟩ =>
      Ends.of_ok (doXfv_logsIn h₁ (Writable.both ho rfl rfl) (ho.sizeLegal (hc.sizeLegal nofun))
        (ho.frameLength ▸ hc.minimum rfl) (ho.room (hc.room rfl rfl)))

/-- A command stores only where R65 lets it: nowhere when a check fails. -/
theorem runOf_logsIn {i : Instr} {s : State} (hp : s.StageParams) : (runOf i s).LogsIn (Writable i s) := by
  rw [runOf_eq]
  unfold runCommand
  cases hc : checkPhase (checksOf i) s.accept with
  | some f => exact Run.LogsIn.of_empty rfl _
  | none =>
    have hends := bodyOf_logsIn (r := ⟨s.accept, []⟩) rfl hp ((checkPhase_passes i s.accept).1 hc)
    cases hb : bodyOf i ⟨s.accept, []⟩ with
    | ok r | error r =>
      rw [hb] at hends
      exact hends

/-! ### A hard reset during a command (R242) -/

/-- A byte of the torn memory is as it was, or one the command stored there. -/
theorem read_tornMemory_cases (draw : Nat) (log : List Host.Cell) (m : Memory) (a : Nat) :
    Memory.read (tornMemory draw log m) a = Memory.read m a
      ∨ (a, Memory.read (tornMemory draw log m) a) ∈ log := by
  rw [read_tornMemory]
  split
  · cases hb : tornByte draw log a with
    | none => exact .inl rfl
    | some b => exact .inr (tornByte_mem hb)
  · exact .inl rfl

/-- The registers hold their reset values whether the word was legal or not. -/
theorem resetDuring_reset (w : Word) (s : State) : (resetDuring w s).RegistersReset := fun r => by
  unfold resetDuring
  cases commandOf w <;> cases r <;> rfl

theorem resetDuring_mem {w : Word} {i : Instr} (hd : decode w = .ok i) (s : State) :
    (resetDuring w s).mem = tornMemory s.draws (runOf i s).log s.mem := by
  simp [resetDuring, commandOf, hd]

section
variable {w : Word} {i : Instr} {s : State} (hd : decode w = .ok i)
include hd

/-- A byte after the reset holds its value at acceptance or one the command stores there. -/
theorem read_resetDuring (a : Nat) :
    Memory.read (resetDuring w s).mem a = Memory.read s.mem a
      ∨ (a, Memory.read (resetDuring w s).mem a) ∈ (runOf i s).log := by
  rw [resetDuring_mem hd]
  exact read_tornMemory_cases _ _ _ a

/-- A byte the command may not write is as it was. -/
theorem read_resetDuring_outside (hp : s.StageParams) {a : Nat} (ha : ¬ Writable i s a) :
    Memory.read (resetDuring w s).mem a = Memory.read s.mem a :=
  (read_resetDuring hd a).resolve_right fun hlog => ha (runOf_logsIn hp _ hlog)

end

/-- Permitted accesses during a command leave the accepted state but for `M`, which holds the host's own writes,
the counter of draws and the listing (R41, R75). -/
theorem hostAccesses_during {w : Word} {i : Instr} {s : State} {during : List HostAccess}
    (hd : decode w = .ok i) (hx : ∀ x ∈ during, Permitted i s x) :
    ∃ d l, hostAccesses (runningCommand w s.accept) during s.accept
      = .next { s.accept with mem := hostWrites during s.mem, draws := d, listing := l } :=
  hostAccesses_permitted (st := s.accept.status) (m := s.mem) (d := s.draws) (l := s.listing) rfl
    (runningCommand_use hd s.accept) (fun _ _ => rfl) hx

/-- Settles O16: the permitted accesses change `M` by the host's own writes only, and the reset after them tears
no byte but those the command stores, in the windows of R65. -/
theorem hardResetDuringCommand : Obligations.HardResetDuringCommand := by
  intro s w i during hr hp hd hx
  obtain ⟨d, l, hh⟩ := hostAccesses_during hd hx
  have hp' : State.StageParams { s.accept with mem := hostWrites during s.mem, draws := d, listing := l } := hp
  refine ⟨_, _, hh, ⟨rfl, rfl, rfl, rfl, rfl, rfl, rfl, rfl, rfl, rfl⟩, ⟨rfl, rfl, rfl, rfl, rfl⟩, ?_,
    resetDuring_reset w _, read_resetDuring hd, fun a hT hF => read_resetDuring_outside hd hp' ?_⟩
  · unfold commandDuring
    rw [if_pos hr]
    exact congrArg (fun o => andThen o _) hh
  · rintro (⟨hw, ha⟩ | ⟨hw, ha⟩)
    · exact hT hw ha
    · exact hF hw ha

end Sys2Proof.Machine
end
